-- ==== Sys2Proof/Word.lean ====
section
/-! DEFINITION. The value types of the block: bytes, halves, 32-bit words, 4-bit channel masks, and the four
values one `Sample` event returns (spec/00_scope.md, section 9 and rules R4, R8). -/

namespace Sys2Proof

/-- u8 (spec/00_scope.md section 9). -/
abbrev Byte := BitVec 8

/-- u16. -/
abbrev Half := BitVec 16

/-- u32: a register of the host port and a command word. -/
abbrev Word := BitVec 32

/-- A channel mask: bit c stands for channel c (R4). -/
abbrev Mask := BitVec 4

/-- The four values of one `Sample` event, `oc` the value seen on channel c (R8). -/
structure Lanes where
  o0 : Byte
  o1 : Byte
  o2 : Byte
  o3 : Byte
deriving DecidableEq, Repr, Inhabited

end Sys2Proof
end

