-- ==== Sys2Proof/Syntax.lean ====
section
/-! DEFINITION. The 14 commands of the block (spec/30_encoding.md rule R101, spec/opcode_table.json), one constructor
each. A constructor carries exactly the operand fields its command word has: R the retry bit, N the bit count, A and B
the byte operands (R100). -/

namespace Sys2Proof

/-- A command of the block (R101). -/
inductive Instr where
  /-- NOP, code 0x00 (R251). -/
  | nop
  /-- CLRERR, code 0x01 (R252). -/
  | clrerr
  /-- SRST, code 0x02 (R253). -/
  | srst
  /-- CSCLR, code 0x10 (R131). -/
  | csclr
  /-- CSADD a, code 0x11 (R132). -/
  | csadd (a : Byte)
  /-- CSGET, code 0x12 (R133). -/
  | csget
  /-- CSCHK, code 0x13 (R134). -/
  | cschk
  /-- CMP a, b, n, code 0x20, with the retry bit (R152). -/
  | cmp (r : Bool) (n : BitVec 4) (a b : Byte)
  /-- WAITLVL l, code 0x21, with the retry bit; `l` is A[0] (R153). -/
  | waitlvl (r : Bool) (l : Bool)
  /-- TXFRAME, code 0x30 (R170). -/
  | txframe
  /-- RXCAP, code 0x31 (R193). -/
  | rxcap
  /-- RXCMP, code 0x32, with the retry bit (R197). -/
  | rxcmp (r : Bool)
  /-- XCAP, code 0x33 (R201). -/
  | xcap
  /-- XCMP, code 0x34, with the retry bit (R202). -/
  | xcmp (r : Bool)
deriving DecidableEq, Repr

end Sys2Proof
end

