-- ==== Sys2Proof/WellFormed.lean ====
section
/-! DEFINITION. Which terms of `Instr` are commands a word can encode. The clauses (a) to (g) of
spec/30_encoding.md rule R102 are about fields a term does not have and are the decoder's; clause (h) is the one check
that a term can fail. -/

namespace Sys2Proof

/-- CMP's bit count is in 1 .. 8 (R102 (h)). -/
def bitCountOk (n : BitVec 4) : Bool := decide (1 ≤ n.toNat) && decide (n.toNat ≤ 8)

/-- A term that some well-formed command word encodes (R102). -/
def Instr.wellFormed : Instr → Bool
  | .nop => true
  | .clrerr => true
  | .srst => true
  | .csclr => true
  | .csadd _ => true
  | .csget => true
  | .cschk => true
  | .cmp _ n _ _ => bitCountOk n
  | .waitlvl _ _ => true
  | .txframe => true
  | .rxcap => true
  | .rxcmp _ => true
  | .xcap => true
  | .xcmp _ => true

end Sys2Proof
end

