-- ==== Sys2Proof/Decode.lean ====
section
/-! DEFINITION. The command word (spec/30_encoding.md rule R100), the decoder with the reasons of rule R102, and the
encoder. A word is only ever moved whole on the host port (R67), so the decoder takes the 32-bit word itself. -/

namespace Sys2Proof

/-- OP, bits 7:0 (R100). -/
def wordOp (w : Word) : Byte := w.extractLsb' 0 8

/-- R, bit 8 (R100). -/
def wordR (w : Word) : Bool := w.getLsbD 8

/-- Bits 11:9, reserved (R100). -/
def wordReserved (w : Word) : BitVec 3 := w.extractLsb' 9 3

/-- N, bits 15:12 (R100). -/
def wordN (w : Word) : BitVec 4 := w.extractLsb' 12 4

/-- A, bits 23:16 (R100). -/
def wordA (w : Word) : Byte := w.extractLsb' 16 8

/-- B, bits 31:24 (R100). -/
def wordB (w : Word) : Byte := w.extractLsb' 24 8

/-- Why a word is ill-formed: the clauses of R102, one name each. -/
inductive Reject where
  /-- (a) OP is none of the 14 codes. -/
  | unknownOp
  /-- (b) bits 11:9 are not 0. -/
  | reservedBits
  /-- (c) R = 1 on a command that takes no R. -/
  | retryNotAllowed
  /-- (d) N is not 0 on a command other than CMP. -/
  | bitCountNotUsed
  /-- (e) B is not 0 on a command other than CMP. -/
  | ignoreMaskNotUsed
  /-- (f) A is not 0 on a command other than CSADD, CMP, WAITLVL. -/
  | byteNotUsed
  /-- (g) WAITLVL with A[7:1] not 0. -/
  | levelBits
  /-- (h) CMP with N outside 1 .. 8. -/
  | bitCountRange
deriving DecidableEq, Repr

/-- What every command but CMP asks of its word: the clauses (c) to (f), with R, and A, legal or not. -/
def checkFields (w : Word) (rOk aOk : Bool) (i : Instr) : Except Reject Instr :=
  if wordR w && !rOk then .error .retryNotAllowed
  else if wordN w ≠ 0 then .error .bitCountNotUsed
  else if wordB w ≠ 0 then .error .ignoreMaskNotUsed
  else if wordA w ≠ 0 ∧ aOk = false then .error .byteNotUsed
  else .ok i

/-- CMP's word: only clause (h) is left (R102, R104). -/
def decodeCmp (w : Word) : Except Reject Instr :=
  if bitCountOk (wordN w) then .ok (.cmp (wordR w) (wordN w) (wordA w) (wordB w)) else .error .bitCountRange

/-- WAITLVL's word: the level is A[0] and A[7:1] must be 0 (R102 (g)). -/
def decodeWaitlvl (w : Word) : Except Reject Instr :=
  if (wordA w).extractLsb' 1 7 ≠ 0 then .error .levelBits
  else checkFields w true true (.waitlvl (wordR w) ((wordA w).getLsbD 0))

/-- The command a word stands for, or the clause of R102 that makes it ill-formed. The codes are R101's. -/
def decode (w : Word) : Except Reject Instr :=
  if wordReserved w ≠ 0 then .error .reservedBits
  else if wordOp w = 0x00#8 then checkFields w false false .nop
  else if wordOp w = 0x01#8 then checkFields w false false .clrerr
  else if wordOp w = 0x02#8 then checkFields w false false .srst
  else if wordOp w = 0x10#8 then checkFields w false false .csclr
  else if wordOp w = 0x11#8 then checkFields w false true (.csadd (wordA w))
  else if wordOp w = 0x12#8 then checkFields w false false .csget
  else if wordOp w = 0x13#8 then checkFields w false false .cschk
  else if wordOp w = 0x20#8 then decodeCmp w
  else if wordOp w = 0x21#8 then decodeWaitlvl w
  else if wordOp w = 0x30#8 then checkFields w false false .txframe
  else if wordOp w = 0x31#8 then checkFields w false false .rxcap
  else if wordOp w = 0x32#8 then checkFields w true false (.rxcmp (wordR w))
  else if wordOp w = 0x33#8 then checkFields w false false .xcap
  else if wordOp w = 0x34#8 then checkFields w true false (.xcmp (wordR w))
  else .error .unknownOp

/-- The word `{B, A, N, 000, R, OP}` (R100). -/
def packWord (b a : Byte) (n : BitVec 4) (r : Bool) (op : Byte) : Word :=
  b ++ a ++ n ++ 0#3 ++ BitVec.ofBool r ++ op

/-- The word of a command (R100, R101). -/
def encode : Instr → Word
  | .nop => packWord 0 0 0 false 0x00
  | .clrerr => packWord 0 0 0 false 0x01
  | .srst => packWord 0 0 0 false 0x02
  | .csclr => packWord 0 0 0 false 0x10
  | .csadd a => packWord 0 a 0 false 0x11
  | .csget => packWord 0 0 0 false 0x12
  | .cschk => packWord 0 0 0 false 0x13
  | .cmp r n a b => packWord b a n r 0x20
  | .waitlvl r l => packWord 0 (BitVec.setWidth 8 (BitVec.ofBool l)) 0 r 0x21
  | .txframe => packWord 0 0 0 false 0x30
  | .rxcap => packWord 0 0 0 false 0x31
  | .rxcmp r => packWord 0 0 0 r 0x32
  | .xcap => packWord 0 0 0 false 0x33
  | .xcmp r => packWord 0 0 0 r 0x34

/-- The low `nbits` bits of `w` as a command word; every bit above them is 0. -/
def tableWord (nbits w : Nat) : Word := BitVec.ofNat 32 (w % 2 ^ nbits)

/-- The command the decoder reads from the bits `w`, numbered as spec/opcode_table.json numbers them. -/
def decodeTableWord (nbits w : Nat) : Option Instr :=
  match decode (tableWord nbits w) with
  | .ok i => some i
  | .error _ => none

end Sys2Proof
end

