-- ==== Sys2Proof/Config.lean ====
section
/-! DEFINITION. What an implementation fixes and what the spec leaves free: the two open parameters
(spec/00_scope.md rules R5, R6) as a record the state carries, and the free values (R8, R322) as constants without a
body, so that nothing can be proved of what they are. -/

namespace Sys2Proof

/-- The open parameters PAGE_MAX and BUF_SIZE (R5, R6). A state carries them and no step changes them. -/
structure Params where
  pageMax : Nat
  bufSize : Nat
deriving DecidableEq, Repr

/-- `1 <= PAGE_MAX <= BUF_SIZE <= 4096` (R5, R6). -/
abbrev Params.wf (p : Params) : Prop := 1 ≤ p.pageMax ∧ p.pageMax ≤ p.bufSize ∧ p.bufSize ≤ 4096

/-- What the transport answers to a `Sample` for which the state lists no answer: a free value of the draw counter
(R8, U5; log entry 4). -/
opaque Config.freeSample : Nat → Lanes

/-- What the transport answers to a `Level` for which the state lists no answer (R8, U6; log entry 4). -/
opaque Config.freeLevel : Nat → Mask

/-- What a host read of a buffer byte that nothing has written returns (R322, U8; log entry 7). -/
opaque Config.freeByte : Nat → Byte

end Sys2Proof
end

