-- ==== Sys2Proof/Machine/State.lean ====
section
/-! DEFINITION. The state of the block (spec/10_state.md rule R20), with the model's own fields: the open parameters,
the host's port events, the transport's answers, the trace and the host's replies. Every name is the spec's. -/

namespace Sys2Proof.Machine

open Sys2Proof

/-- The 16 states of the FSM register (R26). -/
inductive Fsm where
  | idle
  | txStart
  | txLenHi
  | txLenLo
  | txAck
  | txPayload
  | txCsum
  | txEnd
  | rxStart
  | rxLenHi
  | rxLenLo
  | rxAck
  | rxPayload
  | rxCsum
  | rxEnd
  | aux
deriving DecidableEq, Repr

/-- The error kinds (spec/60_exceptions.md rule R270). -/
inductive ErrKind where
  | frameDecodeError
  | checksumError
  | timeoutError
  | compareMismatch
  /-- A kind of the host; the block never raises it (R276). -/
  | hardwareAbort
  /-- A kind of the host; the block's form of it is the flag SEQ (R276, R286). -/
  | sequenceError
  | illegalCommand
deriving DecidableEq, Repr

/-- The stored fields of TXCTL (R35). `endBit` is the field END. -/
structure TxCtl where
  kind : Bool
  ackEn : Bool
  endBit : Bool
  ackVal : Byte
deriving DecidableEq, Repr

/-- The stored fields of RXCTL (R37). `endBit` is the field END. -/
structure RxCtl where
  kind : Bool
  ackEn : Bool
  endBit : Bool
  cont : Bool
  ackVal : Byte
deriving DecidableEq, Repr

/-- The three buffers (R40). -/
inductive Buf where
  | tx
  | rx
  | ign
deriving DecidableEq, Repr

/-- The transport events (spec/00_scope.md rule R8) as a trace records them (R12). -/
inductive Event where
  /-- `Send(act, v)`. -/
  | send (act : Mask) (v : Byte)
  /-- `Sample(n) -> o`. -/
  | sample (n : Nat) (o : Lanes)
  /-- `Level() -> lv`. -/
  | level (lv : Mask)
deriving DecidableEq, Repr

/-- The two sizes of a host access (spec/20_memory.md rule R60): 1 byte and 4 bytes. -/
inductive AccessSize where
  | one
  | four
deriving DecidableEq, Repr

/-- What happens on the host's side of the block in one step (R60, R320; log entries 1 and 2). -/
inductive PortEvent where
  /-- `HostRead(addr, size)`. -/
  | read (addr : Half) (size : AccessSize)
  /-- `HostWrite(addr, size, data)`; where it is a command, the whole command runs in this step (R11). -/
  | write (addr : Half) (size : AccessSize) (data : Word)
  /-- A size-4 write of `data` to CMD seen at the byte level: the command starts in this step, and its events follow
  one a step (R11, R29). -/
  | post (data : Word)
  /-- The host leaves the port alone for one step of the block. -/
  | quiet
  /-- The reset input takes the level `asserted` (R320). -/
  | rst (asserted : Bool)
deriving DecidableEq, Repr

/-- What a host access is answered: `ok` and, for a read, the data (R60). A write's data is 0. -/
structure Reply where
  ok : Bool
  data : Word
deriving DecidableEq, Repr

/-- Why the machine stops. -/
inductive Fault where
  /-- A command read a buffer byte that nothing has written since the last hardware reset (R69): raised by TXFRAME,
  RXCMP, XCAP and XCMP, at either level. Safe: the spec gives such a command no result. -/
  | unwrittenByte (buf : Buf) (offset : Nat)
deriving DecidableEq, Repr

/-- Why the machine refuses to run an instruction. -/
inductive Refusal where
  /-- The model has no meaning for the instruction. Raised by an arm of `exec` only; no arm raises it. Safe. -/
  | notModelled (mnemonic : String)
deriving DecidableEq, Repr

/-- The buffers as the host space sees them (R61): the written bytes by host address, addresses strictly rising. An
address that is not listed holds no value (R322; log entry 6). -/
abbrev Memory := List Host.Cell

/-- The state of the block (R20) and the model's own fields. -/
@[ext]
structure State where
  /-- CSUM (R21). -/
  csum : Byte
  /-- RSUM (R22). -/
  rsum : Byte
  /-- RPOS (R23). -/
  rpos : Half
  /-- FMASK (R24). -/
  fmask : Mask
  /-- POS (R25). -/
  pos : Half
  /-- LENR (R25). -/
  lenr : Half
  /-- FIRST (R25). -/
  first : Half
  /-- FIRSTV (R25). -/
  firstv : Bool
  /-- ACKC (R25). -/
  ackc : Byte
  /-- OPR (R25). -/
  opr : Word
  /-- FSM (R26). -/
  fsm : Fsm
  /-- BUSY (R30). -/
  busy : Bool
  /-- SEQ (R30). -/
  seq : Bool
  /-- ALLF (R30). -/
  allf : Bool
  /-- ERR (R30). -/
  err : BitVec 4
  /-- ACTIVE (R34). -/
  active : Mask
  /-- TXCTL (R35). -/
  txctl : TxCtl
  /-- TXLEN (R36). -/
  txlen : Half
  /-- RXCTL (R37). -/
  rxctl : RxCtl
  /-- RXLEN (R38). -/
  rxlen : Half
  /-- BUDGET (R39). -/
  budget : Word
  /-- TIMEOUT (R39). -/
  timeout : Word
  /-- RESULT.MASK (R41). -/
  resMask : Mask
  /-- RESULT.VALUE (R41). -/
  resValue : Byte
  /-- ERRINFO.ERRPOS (R44). -/
  errPos : Half
  /-- ERRINFO.ERRMASK (R44). -/
  errMask : Mask
  /-- ERRINFO.ERRBYTE (R44). -/
  errByte : Byte
  /-- RREM (R45). -/
  rrem : Word
  /-- TREM (R45). -/
  trem : Word
  /-- TXBUF, RXBUF and IGNBUF (R40, R61). -/
  mem : Memory
  /-- The model's own: the level of the reset input (R320; log entry 8). -/
  rst : Bool
  /-- The model's own: PAGE_MAX and BUF_SIZE, never changed (R5, R6, R48; log entry 3). -/
  params : Params
  /-- The model's own: the host's coming port events, oldest first (log entry 2). -/
  port : List PortEvent
  /-- The model's own: what the host's accesses were answered, oldest first (log entry 9). -/
  replies : List Reply
  /-- The model's own: the transport events so far, oldest first (R12; log entry 9). -/
  trace : List Event
  /-- The model's own: the transport's answers to the coming `Sample` events (R8; log entry 4). -/
  samples : List Lanes
  /-- The model's own: the transport's answers to the coming `Level` events (R8; log entry 4). -/
  levels : List Mask
  /-- The model's own: how many free values have been drawn (log entry 4). -/
  draws : Nat
deriving DecidableEq, Repr

/-- The machine right after reset (spec/70_reset_and_hazards.md rule R321): every register and flag 0, no buffer byte
written, `rst` released. The values of the model's own fields are log entries 2, 3, 4, 8 and 9. -/
def State.reset : State where
  csum := 0
  rsum := 0
  rpos := 0
  fmask := 0
  pos := 0
  lenr := 0
  first := 0
  firstv := false
  ackc := 0
  opr := 0
  fsm := .idle
  busy := false
  seq := false
  allf := false
  err := 0
  active := 0
  txctl := ⟨false, false, false, 0⟩
  txlen := 0
  rxctl := ⟨false, false, false, false, 0⟩
  rxlen := 0
  budget := 0
  timeout := 0
  resMask := 0
  resValue := 0
  errPos := 0
  errMask := 0
  errByte := 0
  rrem := 0
  trem := 0
  mem := []
  rst := false
  params := ⟨256, 1024⟩
  port := []
  replies := []
  trace := []
  samples := []
  levels := []
  draws := 0

end Sys2Proof.Machine
end

