-- ==== Sys2Proof/Machine/Memory.lean ====
section
/-! DEFINITION. The sparse memory that holds the three buffers (spec/20_memory.md rules R61, R68): read one byte, write
one byte, and the canonical form. -/

namespace Sys2Proof.Machine

/-- The byte at a host address, or none where nothing has written it (R69, R322). -/
def Memory.read (a : Nat) : Memory → Option Byte
  | [] => none
  | (b, v) :: rest => if a = b then some v else Memory.read a rest

/-- Store one byte, keeping the addresses strictly rising. -/
def Memory.write (a : Nat) (v : Byte) : Memory → Memory
  | [] => [(a, v)]
  | (b, u) :: rest =>
    if a < b then (a, v) :: (b, u) :: rest
    else if a = b then (a, v) :: rest
    else (b, u) :: Memory.write a v rest

/-- Every listed address is above `lo`, and the addresses rise strictly. -/
def Memory.risingFrom (lo : Nat) : Memory → Bool
  | [] => true
  | (b, _) :: rest => decide (lo < b) && Memory.risingFrom b rest

/-- The canonical form: addresses strictly rising. An unlisted address holds no value, so no entry can equal it. -/
def Memory.wf : Memory → Bool
  | [] => true
  | (b, _) :: rest => Memory.risingFrom b rest

/-- The host address at which a buffer's window starts (R61). -/
def Buf.base : Buf → Nat
  | .tx => 0x1000
  | .rx => 0x2000
  | .ign => 0x3000

/-- The host address of byte `off` of a buffer (R61). -/
def Buf.addr (b : Buf) (off : Nat) : Nat := b.base + off

/-- `a` lies in one of the three windows, each BUF_SIZE bytes long (R61). -/
def inWindow (p : Params) (a : Nat) : Bool :=
  (decide (0x1000 ≤ a) && decide (a < 0x1000 + p.bufSize))
    || (decide (0x2000 ≤ a) && decide (a < 0x2000 + p.bufSize))
    || (decide (0x3000 ≤ a) && decide (a < 0x3000 + p.bufSize))

end Sys2Proof.Machine
end

