-- ==== Sys2Proof/Machine/Operands.lean ====
section
/-! DEFINITION. Where a command's operands come from: the helper functions of spec/00_scope.md section 9, the
descriptors (spec/10_state.md rules R35 to R38), the length field and frame byte indices (spec/30_encoding.md rules R92,
R94), the fields of OPR (R25), the comparator's function (spec/41_compare.md rule R150), and the parameter tests of the
commands (R154, R171, R192, R231). -/

namespace Sys2Proof.Machine

/-! ### Helper functions of spec/00_scope.md section 9 -/

/-- `sm(kind)`: the start marker (R93). -/
def startMarker (kind : Bool) : Byte := if kind then 0x81 else 0x01

/-- `em(end)`: the end marker (R97). -/
def endMarker (e : Bool) : Byte := if e then 0x17 else 0x03

/-- `rep4(b)`. -/
def rep4 (b : Bool) : Mask := if b then 0xF else 0x0

/-- `popcount(m)`. -/
def popcount (m : Mask) : Nat :=
  (m.getLsbD 0).toNat + (m.getLsbD 1).toNat + (m.getLsbD 2).toNat + (m.getLsbD 3).toNat

/-- `onehot(m)`. -/
def onehot (m : Mask) : Bool := popcount m == 1

/-- The value seen on channel `index(m)`, for a one-hot `m`. For another `m`, which no command that reads it lets pass
(R192 (d)), it is the lowest set channel's, and channel 3's for 0 (log entry 10). -/
def lanePick (m : Mask) (o : Lanes) : Byte :=
  if m.getLsbD 0 then o.o0
  else if m.getLsbD 1 then o.o1
  else if m.getLsbD 2 then o.o2
  else o.o3

/-- `2^n - 1`: the bits below the bit count (R150). -/
def lowBits (n : Nat) : Byte := BitVec.ofNat 8 (2 ^ n - 1)

/-- One channel's part of `diverge`: some bit below n that is not ignored differs (R150). -/
def laneDiverges (v e ign : Byte) (n : Nat) : Bool := (v ^^^ e) &&& ~~~ign &&& lowBits n != 0

/-- `diverge(o, e, ign, n)` (R150). -/
def diverge (o : Lanes) (e ign : Byte) (n : Nat) : Mask :=
  BitVec.ofBool (laneDiverges o.o3 e ign n) ++ BitVec.ofBool (laneDiverges o.o2 e ign n)
    ++ BitVec.ofBool (laneDiverges o.o1 e ign n) ++ BitVec.ofBool (laneDiverges o.o0 e ign n)

/-- The values of a `Sample(n)`: each below 2^n (R8; log entry 5). -/
def lanesLow (n : Nat) (o : Lanes) : Lanes :=
  ⟨o.o0 &&& lowBits n, o.o1 &&& lowBits n, o.o2 &&& lowBits n, o.o3 &&& lowBits n⟩

/-- The high byte of a 16-bit value, `v[15:8]`. -/
def hiByte (v : Half) : Byte := v.extractLsb' 8 8

/-- The low byte of a 16-bit value, `v[7:0]`. -/
def loByte (v : Half) : Byte := v.extractLsb' 0 8

/-- One bit as a 16-bit value. -/
def bitHalf (b : Bool) : Half := if b then 1 else 0

/-! ### Register layouts -/

/-- TXCTL as its register reads (R35). -/
def TxCtl.pack (c : TxCtl) : Word :=
  0#16 ++ c.ackVal ++ 0#5 ++ BitVec.ofBool c.endBit ++ BitVec.ofBool c.ackEn ++ BitVec.ofBool c.kind

/-- What a write of `w` stores in TXCTL (R35, R46). -/
def TxCtl.unpack (w : Word) : TxCtl :=
  ⟨w.getLsbD 0, w.getLsbD 1, w.getLsbD 2, w.extractLsb' 8 8⟩

/-- RXCTL as its register reads (R37). -/
def RxCtl.pack (c : RxCtl) : Word :=
  0#16 ++ c.ackVal ++ 0#4 ++ BitVec.ofBool c.cont ++ BitVec.ofBool c.endBit ++ BitVec.ofBool c.ackEn
    ++ BitVec.ofBool c.kind

/-- What a write of `w` stores in RXCTL (R37, R46). -/
def RxCtl.unpack (w : Word) : RxCtl :=
  ⟨w.getLsbD 0, w.getLsbD 1, w.getLsbD 2, w.getLsbD 3, w.extractLsb' 8 8⟩

/-! ### The frame a command moves -/

/-- The Len field of the frame TXFRAME sends: TXLEN plus 1 if it carries an ack byte (R94, R170). It does not wrap where
`txLenOk` lets the command pass. -/
def State.txLenField (s : State) : Half := s.txlen + bitHalf s.txctl.ackEn

/-- The Len field of the frame a receive command expects (R94, R191). It does not wrap where `rxLenOk` lets the command
pass. -/
def State.rxLenField (s : State) : Half := s.rxlen + bitHalf s.rxctl.ackEn

/-- The frame byte index of received payload byte POS: `3 + A + i` (R92). -/
def State.rxPayloadIndex (s : State) : Half := 3 + bitHalf s.rxctl.ackEn + s.pos

/-- The byte at offset POS of a buffer, none if nothing has written it (R68, R69). -/
def State.bufAtPos (s : State) (b : Buf) : Option Byte := s.mem.read (b.addr s.pos.toNat)

/-! ### The command in OPR (R25, R101) -/

/-- OPR.R. -/
def State.oprR (s : State) : Bool := wordR s.opr

/-- OPR holds a command with the given code. -/
def State.oprIs (s : State) (op : Byte) : Bool := wordOp s.opr == op

/-- The running command is RXCAP or XCAP: the receive states capture (R28). -/
def State.capturing (s : State) : Bool := s.oprIs 0x31 || s.oprIs 0x33

/-- The running command is XCAP or XCMP: a receive follows the transmit (R27). -/
def State.exchanging (s : State) : Bool := s.oprIs 0x33 || s.oprIs 0x34

/-- The command moves something over the transport port and so sets BUSY; the other commands complete in the step that
accepts them (R29, and the headings of spec/40_checksum.md and spec/45_control.md). -/
def isTransport : Instr → Bool
  | .nop => false
  | .clrerr => false
  | .srst => false
  | .csclr => false
  | .csadd _ => false
  | .csget => false
  | .cschk => false
  | .cmp _ _ _ _ => true
  | .waitlvl _ _ => true
  | .txframe => true
  | .rxcap => true
  | .rxcmp _ => true
  | .xcap => true
  | .xcmp _ => true

/-! ### Parameter tests: a command that fails its test ends as IllegalCommand before any event -/

/-- Some channel is active (R154, R171, R192 (a)). -/
def State.someActive (s : State) : Bool := s.active != 0

/-- `PLEN + ACKEN` fits the 16 bits of the Len field (R94). With PAGE_MAX in its range it always does; a model that
lifts that bound must refuse it where it does not. -/
def lenFits (plen : Half) (ackEn : Bool) : Bool := decide (plen.toNat + ackEn.toNat ≤ 0xFFFF)

/-- TXLEN is at most PAGE_MAX (R171, R192 (c)), and the Len field holds it (R94). -/
def State.txLenOk (s : State) : Bool :=
  decide (s.txlen.toNat ≤ s.params.pageMax) && lenFits s.txlen s.txctl.ackEn

/-- RXLEN is at most PAGE_MAX (R192 (b)), and the Len field holds it (R94). -/
def State.rxLenOk (s : State) : Bool :=
  decide (s.rxlen.toNat ≤ s.params.pageMax) && lenFits s.rxlen s.rxctl.ackEn

/-- R = 1 needs a budget (R231). -/
def State.budgetOk (s : State) (r : Bool) : Bool := !r || s.budget != 0

/-- Where a capture starts to store: RPOS if it continues, else 0 (R192 (e)). -/
def State.captureBase (s : State) : Nat := if s.rxctl.cont then s.rpos.toNat else 0

/-- A capture's own tests (R192 (d), (e)). -/
def State.captureOk (s : State) : Bool :=
  onehot s.active && decide (s.captureBase + s.rxlen.toNat ≤ s.params.bufSize)

/-- CMP's tests (R102 (h), R154, R231). -/
def State.cmpLegal (s : State) (r : Bool) (n : BitVec 4) : Bool := s.someActive && bitCountOk n && s.budgetOk r

/-- WAITLVL's tests (R154, R231). -/
def State.waitlvlLegal (s : State) (r : Bool) : Bool := s.someActive && s.timeout != 0 && s.budgetOk r

/-- TXFRAME's tests (R171). -/
def State.txframeLegal (s : State) : Bool := s.someActive && s.txLenOk

/-- RXCAP's tests (R192). -/
def State.rxcapLegal (s : State) : Bool := s.someActive && s.rxLenOk && s.captureOk

/-- RXCMP's tests (R192). -/
def State.rxcmpLegal (s : State) (r : Bool) : Bool :=
  s.someActive && s.rxLenOk && !s.rxctl.cont && s.budgetOk r

/-- XCAP's tests (R192). -/
def State.xcapLegal (s : State) : Bool := s.someActive && s.rxLenOk && s.txLenOk && s.captureOk

/-- XCMP's tests (R192). -/
def State.xcmpLegal (s : State) (r : Bool) : Bool :=
  s.someActive && s.rxLenOk && s.txLenOk && !s.rxctl.cont && s.budgetOk r

/-- The parameter tests of a command; a command without any passes (R250 line 4). -/
def State.legal (s : State) : Instr → Bool
  | .nop => true
  | .clrerr => true
  | .srst => true
  | .csclr => true
  | .csadd _ => true
  | .csget => true
  | .cschk => true
  | .cmp r n _ _ => s.cmpLegal r n
  | .waitlvl r _ => s.waitlvlLegal r
  | .txframe => s.txframeLegal
  | .rxcap => s.rxcapLegal
  | .rxcmp r => s.rxcmpLegal r
  | .xcap => s.xcapLegal
  | .xcmp r => s.xcmpLegal r

end Sys2Proof.Machine
end

