-- ==== Sys2Proof/Machine/Flags.lean ====
section
/-! DEFINITION. The flags, the codes of FSM and ERR, and the read-only registers put together from them
(spec/10_state.md rules R26, R30, R33, R41 to R44; spec/60_exceptions.md rule R270). -/

namespace Sys2Proof.Machine

/-- The code of an FSM state (R26). -/
def Fsm.code : Fsm → BitVec 4
  | .idle => 0
  | .txStart => 1
  | .txLenHi => 2
  | .txLenLo => 3
  | .txAck => 4
  | .txPayload => 5
  | .txCsum => 6
  | .txEnd => 7
  | .rxStart => 8
  | .rxLenHi => 9
  | .rxLenLo => 10
  | .rxAck => 11
  | .rxPayload => 12
  | .rxCsum => 13
  | .rxEnd => 14
  | .aux => 15

/-- The code ERR takes for a kind (R270). -/
def ErrKind.code : ErrKind → BitVec 4
  | .frameDecodeError => 1
  | .checksumError => 2
  | .timeoutError => 3
  | .compareMismatch => 4
  | .hardwareAbort => 5
  | .sequenceError => 6
  | .illegalCommand => 7

/-- `m != 0 and m = ACTIVE`: the predicate ALLF is given at every attempt end (R30). -/
def allFailed (m act : Mask) : Bool := m != 0 && m == act

/-- STATUS (R33). -/
def State.statusReg (s : State) : Word :=
  0#20 ++ s.fsm.code ++ s.err ++ 0#1 ++ BitVec.ofBool s.allf ++ BitVec.ofBool s.seq ++ BitVec.ofBool s.busy

/-- RESULT (R41). -/
def State.resultReg (s : State) : Word := 0#16 ++ s.resValue ++ 0#4 ++ s.resMask

/-- SUMS (R42). -/
def State.sumsReg (s : State) : Word := 0#16 ++ s.rsum ++ s.csum

/-- RPOS as its register reads (R43). -/
def State.rposReg (s : State) : Word := 0#16 ++ s.rpos

/-- ERRINFO (R44). -/
def State.errinfoReg (s : State) : Word := s.errByte ++ 0#4 ++ s.errMask ++ s.errPos

end Sys2Proof.Machine
end

