-- ==== Sys2Proof/Machine/Ops.lean ====
section
/-! DEFINITION. The named operations every command is written over: the transport events, the buffer accesses, the
comparator's step, error entry and the return from it, refusal, command start and end, acceptance, and the retry
loop. -/

namespace Sys2Proof.Machine

/-! ### Transport events (spec/00_scope.md rule R8) -/

/-- `Send(ACTIVE, v)`. -/
def State.send (s : State) (v : Byte) : State := { s with trace := s.trace ++ [.send s.active v] }

/-- `Send(ACTIVE, v)` of a byte the checksum covers (R96): `CSUM <- CSUM +8 v`. -/
def State.sendCovered (s : State) (v : Byte) : State :=
  { s with trace := s.trace ++ [.send s.active v], csum := s.csum + v }

/-- What the next `Sample(n)` returns: the transport's next answer, or a free value, each value below 2^n (log entries
4 and 5). -/
def State.sampleValue (s : State) (n : Nat) : Lanes :=
  lanesLow n (s.samples.headD (Config.freeSample s.draws))

/-- The state once a `Sample(n)` has returned. -/
def State.afterSample (s : State) (n : Nat) : State :=
  { s with
    samples := s.samples.tail
    draws := if s.samples.isEmpty then s.draws + 1 else s.draws
    trace := s.trace ++ [.sample n (s.sampleValue n)] }

/-- What the next `Level()` returns (log entry 4). -/
def State.levelValue (s : State) : Mask := s.levels.headD (Config.freeLevel s.draws)

/-- The state once a `Level()` has returned. -/
def State.afterLevel (s : State) : State :=
  { s with
    levels := s.levels.tail
    draws := if s.levels.isEmpty then s.draws + 1 else s.draws
    trace := s.trace ++ [.level s.levelValue] }

/-- `Sample(8)[index(ACTIVE)]`: the byte a capture reads (R193). -/
def State.captureValue (s : State) : Byte := lanePick s.active (s.sampleValue 8)

/-! ### Result and errors -/

/-- An attempt end's write of RESULT and ALLF (R30, R41). -/
def State.writeResult (s : State) (m : Mask) (v : Byte) : State :=
  { s with resMask := m, resValue := v, allf := allFailed m s.active }

/-- Error entry, `raise K(pos, mask, byte)` (spec/60_exceptions.md rule R280): the block goes idle, and the first error
is recorded. -/
def State.raiseError (s : State) (k : ErrKind) (pos : Half) (mask : Mask) (byte : Byte) : State :=
  { s with
    fsm := .idle
    busy := false
    err := if s.err = 0 then k.code else s.err
    errPos := if s.err = 0 then pos else s.errPos
    errMask := if s.err = 0 then mask else s.errMask
    errByte := if s.err = 0 then byte else s.errByte }

/-- The return from an error (R252, R284): ERR, SEQ and ERRINFO to 0. -/
def State.clearError (s : State) : State :=
  { s with err := 0, seq := false, errPos := 0, errMask := 0, errByte := 0 }

/-- Refusal (R286): `SEQ <- 1` and nothing else. -/
def State.refuse (s : State) : State := { s with seq := true }

/-- Every register and flag to its reset value (R321); the buffers and the model's own fields stay. -/
def State.resetRegisters (s : State) : State :=
  { State.reset with
    mem := s.mem
    rst := s.rst
    params := s.params
    port := s.port
    replies := s.replies
    trace := s.trace
    samples := s.samples
    levels := s.levels
    draws := s.draws }

/-! ### Command start and end (spec/10_state.md rule R29) -/

/-- Command start: OPR and BUSY. -/
def State.beginCommand (s : State) (w : Word) : State := { s with opr := w, busy := true }

/-- Command end: FSM and BUSY. -/
def State.endCommand (s : State) : State := { s with fsm := .idle, busy := false }

/-- Command end with the mask of the last attempt, which stands in RESULT.MASK: a mask that is not 0 is an error of
kind `k` (R29, R230). -/
def State.finish (s : State) (k : ErrKind) (pos : Half) : State :=
  if s.resMask = 0 then s.endCommand else s.endCommand.raiseError k pos s.resMask 0x00

/-- Command acceptance (spec/45_control.md rule R250, lines 1, 3, 4 and 5) of the word `w`, whose parameter tests gave
`legal` and whose run is `run`. -/
def State.accept (s : State) (w : Word) (legal : Bool) (run : State → Host.Outcome State Fault Refusal) :
    Host.Outcome State Fault Refusal :=
  if s.busy then .next s.refuse
  else if s.err ≠ 0 then .next s.refuse
  else if legal then run s
  else .next (s.raiseError .illegalCommand 0 0 (wordOp w))

/-- Acceptance of NOP, CLRERR and SRST (R250, lines 1 and 2): refused only when BUSY = 1. -/
def State.acceptAlways (s : State) (run : State → State) : Host.Outcome State Fault Refusal :=
  if s.busy then .next s.refuse else .next (run s)

/-- A word that is ill-formed (R250, lines 1, 3 and 4). -/
def State.illegalWord (s : State) (w : Word) : Host.Outcome State Fault Refusal :=
  s.accept w false .next

/-! ### Command bodies -/

/-- What a part of a command's body comes to. -/
inductive Flow where
  /-- It ran to its end. -/
  | go (s : State)
  /-- A `raise` ended the command (R280); the state is the one after error entry. -/
  | raised (s : State)
  /-- It read a byte nothing has written (R69). -/
  | stop (f : Fault)

/-- Go on with `k` where `x` ran to its end. -/
def Flow.andThen (x : Flow) (k : State → Flow) : Flow :=
  match x with
  | .go s => k s
  | .raised s => .raised s
  | .stop f => .stop f

/-- A finished body as the outcome of a command. -/
def Flow.outcome : Flow → Host.Outcome State Fault Refusal
  | .go s => .next s
  | .raised s => .next s
  | .stop f => .fault f

/-- The retry loop (spec/44_retry.md rule R230). The first argument bounds the attempts by BUDGET; RREM reaches 0 when
it is spent. The attempt's mask stands in RESULT.MASK. -/
def retryLoop (attempt : State → Flow) : Nat → State → Flow
  | 0, s => .go s
  | k + 1, s =>
    (attempt { s with rrem := s.rrem - 1 }).andThen fun t =>
      if t.resMask = 0 ∨ t.rrem = 0 then .go t else retryLoop attempt k t

/-- One attempt with R = 0, the retry loop with R = 1 (R230, R29). -/
def runAttempts (r : Bool) (attempt : State → Flow) (s : State) : Flow :=
  if r then retryLoop attempt s.budget.toNat { s with rrem := s.budget } else attempt s

end Sys2Proof.Machine
end

