-- ==== Sys2Proof/Machine/Compare.lean ====
section
/-! DEFINITION. The parallel channel comparator commands CMP and WAITLVL (spec/41_compare.md). -/

namespace Sys2Proof.Machine

/-- The mask of a CMP attempt: `ACTIVE and diverge(o, A, B, N)` (R151, R152). -/
def State.cmpMask (s : State) (n : Nat) (a b : Byte) : Mask := s.active &&& diverge (s.sampleValue n) a b n

/-- One attempt of CMP (R152). -/
def cmpAttempt (n : Nat) (a b : Byte) (s : State) : Flow :=
  .go ((s.afterSample n).writeResult (s.cmpMask n a b) 0x00)

/-- CMP a, b, n (R152). -/
def execCmp (r : Bool) (n : BitVec 4) (a b : Byte) (s : State) : Host.Outcome State Fault Refusal :=
  s.accept (encode (.cmp r n a b)) (s.cmpLegal r n) fun t =>
    ((runAttempts r (cmpAttempt n.toNat a b) (t.beginCommand (encode (.cmp r n a b)))).andThen fun u =>
      .go (u.finish .compareMismatch 0)).outcome

/-- The mask of one poll: `ACTIVE and (lv xor rep4(level))` (R151, R153). -/
def State.pollMask (s : State) (l : Bool) : Mask := s.active &&& (s.levelValue ^^^ rep4 l)

/-- The state after one poll, TREM counted down (R153). -/
def State.afterPoll (s : State) : State := { s.afterLevel with trem := s.trem - 1 }

/-- The polls of one WAITLVL attempt (R153): until a poll's mask is 0 or TREM is 0. The first argument bounds the
polls by TIMEOUT. -/
def pollLoop (l : Bool) : Nat → State → State
  | 0, s => s
  | k + 1, s =>
    if s.pollMask l = 0 ∨ s.afterPoll.trem = 0 then s.afterPoll.writeResult (s.pollMask l) 0x00
    else pollLoop l k s.afterPoll

/-- One attempt of WAITLVL (R153). -/
def waitlvlAttempt (l : Bool) (s : State) : Flow :=
  .go (pollLoop l s.timeout.toNat { s with trem := s.timeout })

/-- WAITLVL l (R153). -/
def execWaitlvl (r l : Bool) (s : State) : Host.Outcome State Fault Refusal :=
  s.accept (encode (.waitlvl r l)) (s.waitlvlLegal r) fun t =>
    ((runAttempts r (waitlvlAttempt l) (t.beginCommand (encode (.waitlvl r l)))).andThen fun u =>
      .go (u.finish .timeoutError 0)).outcome

end Sys2Proof.Machine
end

