-- ==== Sys2Proof/Machine/FrameTx.lean ====
section
/-! DEFINITION. Sending a frame (spec/42_frame_tx.md). -/

namespace Sys2Proof.Machine

/-- The registers a frame's transmission starts from: CSUM, LENR and POS (R27, R170). -/
def State.txBegin (s : State) : State := { s with csum := 0x00, lenr := s.txLenField, pos := 0 }

/-- The ack byte, if the frame carries one (R95, R170). -/
def State.sendAck (s : State) : State := if s.txctl.ackEn then s.sendCovered s.txctl.ackVal else s

/-- Start marker, LenHi, LenLo and ack byte (R170). -/
def State.sendHeader (s : State) : State :=
  (((s.send (startMarker s.txctl.kind)).sendCovered (hiByte s.lenr)).sendCovered (loByte s.lenr)).sendAck

/-- The next `k` payload bytes, from offset POS on (R170). -/
def sendPayload : Nat → State → Flow
  | 0, s => .go s
  | k + 1, s =>
    match s.bufAtPos .tx with
    | some v => sendPayload k { s.sendCovered v with pos := s.pos + 1 }
    | none => .stop (.unwrittenByte .tx s.pos.toNat)

/-- Checksum byte and end marker; CSUM is not changed (R170). -/
def State.sendTrailer (s : State) : State := (s.send (0 - s.csum)).send (endMarker s.txctl.endBit)

/-- TXFRAME's body without its RESULT write (R170, R201). -/
def txBody (s : State) : Flow :=
  (sendPayload s.txlen.toNat s.txBegin.sendHeader).andThen fun t => .go t.sendTrailer

/-- TXFRAME (R170). -/
def execTxframe (s : State) : Host.Outcome State Fault Refusal :=
  s.accept (encode .txframe) s.txframeLegal fun t =>
    ((txBody (t.beginCommand (encode .txframe))).andThen fun u =>
      .go (u.writeResult 0 (0 - u.csum)).endCommand).outcome

end Sys2Proof.Machine
end

