-- ==== Sys2Proof/Machine/FrameRx.lean ====
section
/-! DEFINITION. Receiving a frame in capture and in compare mode, and the exchanges (spec/43_frame_rx.md). -/

namespace Sys2Proof.Machine

/-! ### Capture mode -/

/-- The registers a capture starts from (R193): LENR, POS, CSUM, ACKC, and RPOS and RSUM unless it continues. -/
def State.capBegin (s : State) : State :=
  { s with
    csum := 0x00
    lenr := s.rxLenField
    pos := 0
    ackc := 0x00
    rpos := if s.rxctl.cont then s.rpos else 0
    rsum := if s.rxctl.cont then s.rsum else 0x00 }

/-- A `raise` inside a captured frame writes RESULT first (R193, R41). -/
def State.raiseInCapture (s : State) (k : ErrKind) (pos : Half) (byte : Byte) : State :=
  (s.writeResult 0 s.ackc).raiseError k pos 0 byte

/-- Sample a structural byte: any other byte than `e` is a FrameDecodeError at index `idx`, and is not summed
(R193, R194). -/
def capStructural (e : Byte) (idx : Half) (covered : Bool) (s : State) : Flow :=
  if s.captureValue = e then
    .go { s.afterSample 8 with csum := if covered then s.csum + s.captureValue else s.csum }
  else .raised ((s.afterSample 8).raiseInCapture .frameDecodeError idx s.captureValue)

/-- Sample the ack byte, kept and summed but not tested (R95, R193). -/
def State.capAck (s : State) : State :=
  { s.afterSample 8 with ackc := s.captureValue, csum := s.csum + s.captureValue }

/-- The ack byte, if the frame carries one (R193). -/
def State.capAckIfAny (s : State) : State := if s.rxctl.ackEn then s.capAck else s

/-- Sample one payload byte and store it at RXBUF[RPOS] (R193). -/
def State.capPayloadByte (s : State) : State :=
  { s.afterSample 8 with
    mem := s.mem.write (Buf.rx.addr s.rpos.toNat) s.captureValue
    rpos := s.rpos + 1
    rsum := s.rsum + s.captureValue
    csum := s.csum + s.captureValue
    pos := s.pos + 1 }

/-- The next `k` payload bytes (R193). -/
def capPayload : Nat → State → State
  | 0, s => s
  | k + 1, s => capPayload k s.capPayloadByte

/-- Sample the checksum byte and add it (R193). -/
def State.capCsum (s : State) : State := { s.afterSample 8 with csum := s.csum + s.captureValue }

/-- The test of the sum, made after the end marker was found right (R195). -/
def capCheckSum (s : State) : Flow :=
  if s.csum = 0x00 then .go s else .raised (s.raiseInCapture .checksumError (3 + s.lenr) s.csum)

/-- RXCAP's body (R193). -/
def capBody (s : State) : Flow :=
  (capStructural (startMarker s.rxctl.kind) 0 false s.capBegin).andThen fun s1 =>
  (capStructural (hiByte s1.lenr) 1 true s1).andThen fun s2 =>
  (capStructural (loByte s2.lenr) 2 true s2).andThen fun s3 =>
  (capStructural (endMarker s.rxctl.endBit) (4 + s3.lenr) false
    (capPayload s3.rxlen.toNat s3.capAckIfAny).capCsum).andThen capCheckSum

/-- The end of a capture without error (R193). -/
def State.capEnd (s : State) : State := (s.writeResult 0 s.ackc).endCommand

/-- RXCAP (R193). -/
def execRxcap (s : State) : Host.Outcome State Fault Refusal :=
  s.accept (encode .rxcap) s.rxcapLegal fun t =>
    ((capBody (t.beginCommand (encode .rxcap))).andThen fun u => .go u.capEnd).outcome

/-- XCAP (R201): the request, then the capture. -/
def execXcap (s : State) : Host.Outcome State Fault Refusal :=
  s.accept (encode .xcap) s.xcapLegal fun t =>
    ((txBody (t.beginCommand (encode .xcap))).andThen fun u =>
      (capBody u).andThen fun v => .go v.capEnd).outcome

/-! ### Compare mode -/

/-- The registers an attempt's comparison starts from (R197). -/
def State.rxcmpBegin (s : State) : State :=
  { s with
    csum := 0x00
    lenr := s.rxLenField
    pos := 0
    fmask := 0x0
    firstv := false
    first := 0 }

/-- The mask of one byte position: `ACTIVE and diverge(o, e, ign, 8)` (R151, R197). -/
def State.hitMask (s : State) (e ign : Byte) : Mask := s.active &&& diverge (s.sampleValue 8) e ign 8

/-- `hit(e, ign)` at frame byte index `idx` (R28, R197). -/
def State.hit (s : State) (e ign : Byte) (idx : Half) : State :=
  { s.afterSample 8 with
    first := if s.hitMask e ign ≠ 0 ∧ s.firstv = false then idx else s.first
    firstv := s.firstv || s.hitMask e ign != 0
    fmask := s.fmask ||| s.hitMask e ign }

/-- `hit` at a byte the checksum covers (R197): the expected byte is summed. -/
def State.hitCovered (s : State) (e ign : Byte) (idx : Half) : State :=
  { s.hit e ign idx with csum := s.csum + e }

/-- The ack byte, if the expected frame carries one (R197). -/
def State.hitAckIfAny (s : State) : State :=
  if s.rxctl.ackEn then s.hitCovered s.rxctl.ackVal 0x00 3 else s

/-- Start marker, LenHi, LenLo and ack byte (R197). -/
def State.hitHeader (s : State) : State :=
  (((s.hit (startMarker s.rxctl.kind) 0x00 0).hitCovered (hiByte s.lenr) 0x00 1).hitCovered
    (loByte s.lenr) 0x00 2).hitAckIfAny

/-- The next `k` expected payload bytes with their ignore masks, from offset POS on (R197). -/
def hitPayload : Nat → State → Flow
  | 0, s => .go s
  | k + 1, s =>
    match s.bufAtPos .rx with
    | none => .stop (.unwrittenByte .rx s.pos.toNat)
    | some e =>
      match s.bufAtPos .ign with
      | none => .stop (.unwrittenByte .ign s.pos.toNat)
      | some g => hitPayload k { s.hitCovered e g s.rxPayloadIndex with pos := s.pos + 1 }

/-- Checksum byte and end marker; CSUM is not changed (R197). -/
def State.hitTrailer (s : State) : State :=
  (s.hit (0 - s.csum) 0x00 (3 + s.lenr)).hit (endMarker s.rxctl.endBit) 0x00 (4 + s.lenr)

/-- One attempt of RXCMP (R197). -/
def rxcmpAttempt (s : State) : Flow :=
  (hitPayload s.rxlen.toNat s.rxcmpBegin.hitHeader).andThen fun t =>
    .go (t.hitTrailer.writeResult t.hitTrailer.fmask (0 - t.csum))

/-- RXCMP (R197). -/
def execRxcmp (r : Bool) (s : State) : Host.Outcome State Fault Refusal :=
  s.accept (encode (.rxcmp r)) (s.rxcmpLegal r) fun t =>
    ((runAttempts r rxcmpAttempt (t.beginCommand (encode (.rxcmp r)))).andThen fun u =>
      .go (u.finish .compareMismatch u.first)).outcome

/-- One attempt of XCMP (R202): the request, then the comparison. -/
def xcmpAttempt (s : State) : Flow := (txBody s).andThen rxcmpAttempt

/-- XCMP (R202). -/
def execXcmp (r : Bool) (s : State) : Host.Outcome State Fault Refusal :=
  s.accept (encode (.xcmp r)) (s.xcmpLegal r) fun t =>
    ((runAttempts r xcmpAttempt (t.beginCommand (encode (.xcmp r)))).andThen fun u =>
      .go (u.finish .compareMismatch u.first)).outcome

end Sys2Proof.Machine
end

