-- ==== Sys2Proof/Machine/ByteLevel.lean ====
section
/-! DEFINITION. The byte-level FSM (spec/10_state.md rules R26 to R29): one transport event a step. It is written from
its own tables, beside the command-level meanings; that the two agree is R11. -/

namespace Sys2Proof.Machine

/-! ### Command start, attempt start, attempt end, command end (R29) -/

/-- The FSM state an attempt of the command in OPR starts in. -/
def State.attemptFsm (s : State) : Fsm :=
  if s.oprIs 0x30 || s.exchanging then .txStart
  else if s.oprIs 0x31 || s.oprIs 0x32 then .rxStart
  else .aux

/-- Attempt start. -/
def State.attemptStart (s : State) : State :=
  { s with
    rrem := if s.oprR then s.rrem - 1 else s.rrem
    trem := if s.oprIs 0x21 then s.timeout else s.trem
    fsm := s.attemptFsm }

/-- Command start, of an accepted transport command with the word `w`. -/
def State.commandStart (s : State) (w : Word) : State :=
  { s.beginCommand w with rrem := if wordR w then s.budget else s.rrem }.attemptStart

/-- The kind of error the command in OPR ends with when its last mask is not 0. -/
def State.maskKind (s : State) : ErrKind := if s.oprIs 0x21 then .timeoutError else .compareMismatch

/-- The position such an error carries: FIRST for RXCMP and XCMP, else 0 (R274). -/
def State.maskPos (s : State) : Half := if s.oprIs 0x32 || s.oprIs 0x34 then s.first else 0

/-- Attempt end with mask `m` and VALUE `v` (R41): a new attempt, or the command's end. -/
def State.attemptEnd (s : State) (m : Mask) (v : Byte) : State :=
  if m ≠ 0 ∧ s.oprR = true ∧ s.rrem ≠ 0 then (s.writeResult m v).attemptStart
  else (s.writeResult m v).finish s.maskKind s.maskPos

/-! ### Transmit states (R27) -/

/-- The state after LenLo or the ack byte: payload if there is any, else the checksum. -/
def State.txAfterHeader (s : State) : Fsm := if s.txlen = 0 then .txCsum else .txPayload

/-- TX_PAYLOAD. -/
def State.stepTxPayload (s : State) : Flow :=
  match s.bufAtPos .tx with
  | none => .stop (.unwrittenByte .tx s.pos.toNat)
  | some v => .go
      { s.sendCovered v with
        pos := s.pos + 1
        fsm := if s.pos + 1 < s.txlen then .txPayload else .txCsum }

/-- TX_END: the end of TXFRAME's one attempt, or the start of an exchange's receive half. -/
def State.stepTxEnd (s : State) : State :=
  if s.exchanging then { s.send (endMarker s.txctl.endBit) with fsm := .rxStart }
  else (s.send (endMarker s.txctl.endBit)).attemptEnd 0 (0 - s.csum)

/-! ### Receive states (R28) -/

/-- The state after LenLo or the ack byte: payload if there is any, else the checksum. -/
def State.rxAfterHeader (s : State) : Fsm := if s.rxlen = 0 then .rxCsum else .rxPayload

/-- The next FSM state of a step that ran to its end. -/
def Flow.toFsm (x : Flow) (f : Fsm) : Flow := x.andThen fun s => .go { s with fsm := f }

/-- RX_START. -/
def State.stepRxStart (s : State) : Flow :=
  if s.capturing then (capStructural (startMarker s.rxctl.kind) 0 false s.capBegin).toFsm .rxLenHi
  else .go { s.rxcmpBegin.hit (startMarker s.rxctl.kind) 0x00 0 with fsm := .rxLenHi }

/-- RX_LENHI. -/
def State.stepRxLenHi (s : State) : Flow :=
  if s.capturing then (capStructural (hiByte s.lenr) 1 true s).toFsm .rxLenLo
  else .go { s.hitCovered (hiByte s.lenr) 0x00 1 with fsm := .rxLenLo }

/-- RX_LENLO. -/
def State.stepRxLenLo (s : State) : Flow :=
  if s.capturing then
    (capStructural (loByte s.lenr) 2 true s).toFsm (if s.rxctl.ackEn then .rxAck else s.rxAfterHeader)
  else .go { s.hitCovered (loByte s.lenr) 0x00 2 with
    fsm := if s.rxctl.ackEn then .rxAck else s.rxAfterHeader }

/-- RX_ACK. -/
def State.stepRxAck (s : State) : State :=
  if s.capturing then { s.capAck with fsm := s.rxAfterHeader }
  else { s.hitCovered s.rxctl.ackVal 0x00 3 with fsm := s.rxAfterHeader }

/-- RX_PAYLOAD. -/
def State.stepRxPayload (s : State) : Flow :=
  if s.capturing then
    .go { s.capPayloadByte with fsm := if s.pos + 1 < s.rxlen then .rxPayload else .rxCsum }
  else
    match s.bufAtPos .rx with
    | none => .stop (.unwrittenByte .rx s.pos.toNat)
    | some e =>
      match s.bufAtPos .ign with
      | none => .stop (.unwrittenByte .ign s.pos.toNat)
      | some g => .go
          { s.hitCovered e g s.rxPayloadIndex with
            pos := s.pos + 1
            fsm := if s.pos + 1 < s.rxlen then .rxPayload else .rxCsum }

/-- RX_CSUM. -/
def State.stepRxCsum (s : State) : State :=
  if s.capturing then { s.capCsum with fsm := .rxEnd }
  else { s.hit (0 - s.csum) 0x00 (3 + s.lenr) with fsm := .rxEnd }

/-- RX_END: the last byte, and the attempt's end. -/
def State.stepRxEnd (s : State) : Flow :=
  if s.capturing then
    ((capStructural (endMarker s.rxctl.endBit) (4 + s.lenr) false s).andThen capCheckSum).andThen fun t =>
      .go (t.attemptEnd 0 t.ackc)
  else
    .go ((s.hit (endMarker s.rxctl.endBit) 0x00 (4 + s.lenr)).attemptEnd
      (s.hit (endMarker s.rxctl.endBit) 0x00 (4 + s.lenr)).fmask (0 - s.csum))

/-! ### AUX (R29) -/

/-- AUX for CMP. -/
def State.stepAuxCmp (s : State) : State :=
  (s.afterSample (wordN s.opr).toNat).attemptEnd
    (s.cmpMask (wordN s.opr).toNat (wordA s.opr) (wordB s.opr)) 0x00

/-- AUX for WAITLVL: the level waited for is OPR.A[0]. -/
def State.stepAuxWaitlvl (s : State) : State :=
  if s.pollMask ((wordA s.opr).getLsbD 0) = 0 ∨ s.afterPoll.trem = 0 then
    s.afterPoll.attemptEnd (s.pollMask ((wordA s.opr).getLsbD 0)) 0x00
  else s.afterPoll

/-- One step of the block (R26): the event of the state FSM names. In IDLE the block waits. -/
def State.fsmFlow (s : State) : Flow :=
  match s.fsm with
  | .idle => .go s
  | .txStart => .go { s.txBegin.send (startMarker s.txctl.kind) with fsm := .txLenHi }
  | .txLenHi => .go { s.sendCovered (hiByte s.lenr) with fsm := .txLenLo }
  | .txLenLo => .go { s.sendCovered (loByte s.lenr) with
      fsm := if s.txctl.ackEn then .txAck else s.txAfterHeader }
  | .txAck => .go { s.sendCovered s.txctl.ackVal with fsm := s.txAfterHeader }
  | .txPayload => s.stepTxPayload
  | .txCsum => .go { s.send (0 - s.csum) with fsm := .txEnd }
  | .txEnd => .go s.stepTxEnd
  | .rxStart => s.stepRxStart
  | .rxLenHi => s.stepRxLenHi
  | .rxLenLo => s.stepRxLenLo
  | .rxAck => .go s.stepRxAck
  | .rxPayload => s.stepRxPayload
  | .rxCsum => .go s.stepRxCsum
  | .rxEnd => s.stepRxEnd
  | .aux => .go (if s.oprIs 0x21 then s.stepAuxWaitlvl else s.stepAuxCmp)

/-- One step of the block as an outcome. While `rst` is asserted the block is held (R320). -/
def blockStep (s : State) : Host.Outcome State Fault Refusal :=
  if s.rst then .next s else s.fsmFlow.outcome

end Sys2Proof.Machine
end

