-- ==== Sys2Proof/Machine/Checksum.lean ====
section
/-! DEFINITION. The checksum generator commands (spec/40_checksum.md). They complete in the step that accepts them and
never set BUSY. -/

namespace Sys2Proof.Machine

/-- CSCLR (R131). -/
def execCsclr (s : State) : Host.Outcome State Fault Refusal :=
  s.accept (encode .csclr) true fun t => .next { t with csum := 0x00 }

/-- CSADD a (R132). -/
def execCsadd (a : Byte) (s : State) : Host.Outcome State Fault Refusal :=
  s.accept (encode (.csadd a)) true fun t => .next { t with csum := t.csum + a }

/-- CSGET (R133). -/
def execCsget (s : State) : Host.Outcome State Fault Refusal :=
  s.accept (encode .csget) true fun t => .next (t.writeResult 0 (0 - t.csum))

/-- CSCHK (R134). -/
def execCschk (s : State) : Host.Outcome State Fault Refusal :=
  s.accept (encode .cschk) true fun t => .next (t.writeResult 0 (if t.csum = 0x00 then 0x01 else 0x00))

end Sys2Proof.Machine
end

