-- ==== Sys2Proof/Machine/Control.lean ====
section
/-! DEFINITION. The control commands NOP, CLRERR and SRST (spec/45_control.md). -/

namespace Sys2Proof.Machine

/-- NOP (R251): nothing. -/
def execNop (s : State) : Host.Outcome State Fault Refusal := s.acceptAlways fun t => t

/-- CLRERR (R252). -/
def execClrerr (s : State) : Host.Outcome State Fault Refusal := s.acceptAlways State.clearError

/-- SRST (R253): every register and flag to its reset value, the buffers kept, no event. -/
def execSrst (s : State) : Host.Outcome State Fault Refusal := s.acceptAlways State.resetRegisters

end Sys2Proof.Machine
end

