-- ==== Sys2Proof/Machine/Dispatch.lean ====
section
/-! DEFINITION. One arm per command (spec/30_encoding.md rule R101), each one call of its meaning. -/

namespace Sys2Proof.Machine

def exec (i : Instr) (s : State) : Host.Outcome State Fault Refusal :=
  match i with
  | .nop => Sys2Proof.Machine.execNop s
  | .clrerr => Sys2Proof.Machine.execClrerr s
  | .srst => Sys2Proof.Machine.execSrst s
  | .csclr => Sys2Proof.Machine.execCsclr s
  | .csadd a => Sys2Proof.Machine.execCsadd a s
  | .csget => Sys2Proof.Machine.execCsget s
  | .cschk => Sys2Proof.Machine.execCschk s
  | .cmp r n a b => Sys2Proof.Machine.execCmp r n a b s
  | .waitlvl r l => Sys2Proof.Machine.execWaitlvl r l s
  | .txframe => Sys2Proof.Machine.execTxframe s
  | .rxcap => Sys2Proof.Machine.execRxcap s
  | .rxcmp r => Sys2Proof.Machine.execRxcmp r s
  | .xcap => Sys2Proof.Machine.execXcap s
  | .xcmp r => Sys2Proof.Machine.execXcmp r s

end Sys2Proof.Machine
end

