-- ==== Sys2Proof/Machine/HostPort.lean ====
section
/-! DEFINITION. The host port (spec/20_memory.md rules R60 to R66, spec/10_state.md rules R31 to R46), the reset input
(spec/70_reset_and_hazards.md rules R320 to R322), and what a word written to CMD does (spec/45_control.md rule
R250). -/

namespace Sys2Proof.Machine

/-- The 15 registers (R31). -/
inductive Reg where
  | cmd
  | status
  | active
  | txctl
  | txlen
  | rxctl
  | rxlen
  | budget
  | timeout
  | result
  | sums
  | rpos
  | errinfo
  | rrem
  | trem
deriving DecidableEq, Repr

/-- The register at a host address (R31); none where no register starts. -/
def regAt (a : Half) : Option Reg :=
  if a = 0x0000#16 then some .cmd
  else if a = 0x0004#16 then some .status
  else if a = 0x0008#16 then some .active
  else if a = 0x000C#16 then some .txctl
  else if a = 0x0010#16 then some .txlen
  else if a = 0x0014#16 then some .rxctl
  else if a = 0x0018#16 then some .rxlen
  else if a = 0x001C#16 then some .budget
  else if a = 0x0020#16 then some .timeout
  else if a = 0x0024#16 then some .result
  else if a = 0x0028#16 then some .sums
  else if a = 0x002C#16 then some .rpos
  else if a = 0x0030#16 then some .errinfo
  else if a = 0x0034#16 then some .rrem
  else if a = 0x0038#16 then some .trem
  else none

/-- The registers marked RO (R31): a write to one is a bus error. -/
def Reg.readOnly : Reg → Bool
  | .cmd => false
  | .status => true
  | .active => false
  | .txctl => false
  | .txlen => false
  | .rxctl => false
  | .rxlen => false
  | .budget => false
  | .timeout => false
  | .result => true
  | .sums => true
  | .rpos => true
  | .errinfo => true
  | .rrem => true
  | .trem => true

/-- What a register reads as (R32 to R46). -/
def State.readReg (s : State) : Reg → Word
  | .cmd => 0
  | .status => s.statusReg
  | .active => s.active.setWidth 32
  | .txctl => s.txctl.pack
  | .txlen => s.txlen.setWidth 32
  | .rxctl => s.rxctl.pack
  | .rxlen => s.rxlen.setWidth 32
  | .budget => s.budget
  | .timeout => s.timeout
  | .result => s.resultReg
  | .sums => s.sumsReg
  | .rpos => s.rposReg
  | .errinfo => s.errinfoReg
  | .rrem => s.rrem
  | .trem => s.trem

/-- What a write of a register stores (R34 to R39, R46). A write of CMD is a command and stores nothing (R32); the
read-only registers are never written (R63). -/
def State.writeReg (s : State) (w : Word) : Reg → State
  | .cmd => s
  | .status => s
  | .active => { s with active := w.setWidth 4 }
  | .txctl => { s with txctl := TxCtl.unpack w }
  | .txlen => { s with txlen := w.setWidth 16 }
  | .rxctl => { s with rxctl := RxCtl.unpack w }
  | .rxlen => { s with rxlen := w.setWidth 16 }
  | .budget => { s with budget := w }
  | .timeout => { s with timeout := w }
  | .result => s
  | .sums => s
  | .rpos => s
  | .errinfo => s
  | .rrem => s
  | .trem => s

/-- What a well-formed access reaches (R61, R62). -/
inductive Target where
  | reg (r : Reg)
  | byte (a : Nat)
deriving DecidableEq, Repr

/-- What an access of a size at an address reaches; none for a bus error (R61, R62, R63). -/
def target (p : Params) (a : Half) : AccessSize → Option Target
  | .four => (regAt a).map .reg
  | .one => if inWindow p a.toNat then some (.byte a.toNat) else none

/-- The host access is answered. -/
def State.answer (s : State) (ok : Bool) (data : Word) : State := { s with replies := s.replies ++ [⟨ok, data⟩] }

/-- A bus error (R63): `ok = false`, data 0, nothing in the block changes. -/
def State.busError (s : State) : State := s.answer false 0

/-- An access refused because BUSY = 1 (R66): `ok = true`, data 0, SEQ set. -/
def State.refuseAccess (s : State) : State := s.refuse.answer true 0

/-- The host's read of a buffer byte; one that nothing has written reads as a free value (R322; log entry 7). -/
def State.readByte (s : State) (a : Nat) : State :=
  match s.mem.read a with
  | some v => s.answer true (v.setWidth 32)
  | none => { s with draws := s.draws + 1 }.answer true ((Config.freeByte s.draws).setWidth 32)

/-- `HostRead(addr, size)` (R60, R63, R66, R320). -/
def hostRead (a : Half) (sz : AccessSize) (s : State) : State :=
  if s.rst then s.busError
  else
    match target s.params a sz with
    | none => s.busError
    | some (.reg r) =>
      if s.busy && r != .status then s.refuseAccess else s.answer true (s.readReg r)
    | some (.byte k) => if s.busy then s.refuseAccess else s.readByte k

/-- A command word at the command level: the whole command (R11, R250). -/
def runWord (w : Word) (s : State) : Host.Outcome State Fault Refusal :=
  match decode w with
  | .ok i => exec i s
  | .error _ => s.illegalWord w

/-- A command word at the byte level: a transport command is accepted and started (R29, R250); any other completes in
the step that accepts it. -/
def startWord (w : Word) (s : State) : Host.Outcome State Fault Refusal :=
  match decode w with
  | .ok i =>
    if isTransport i then s.accept w (s.legal i) fun t => .next (t.commandStart w) else exec i s
  | .error _ => s.illegalWord w

/-- `HostWrite(addr, size, data)` (R60, R63, R66, R320). A size-1 write stores data[7:0]. -/
def hostWrite (a : Half) (sz : AccessSize) (d : Word) (s : State) : Host.Outcome State Fault Refusal :=
  if s.rst then .next s.busError
  else
    match target s.params a sz with
    | none => .next s.busError
    | some (.reg r) =>
      if r = .cmd then runWord d (s.answer true 0)
      else if r.readOnly then .next s.busError
      else if s.busy then .next s.refuseAccess
      else .next ((s.writeReg d r).answer true 0)
    | some (.byte k) =>
      if s.busy then .next s.refuseAccess
      else .next ({ s with mem := s.mem.write k (d.extractLsb' 0 8) }.answer true 0)

/-- A CMD write seen at the byte level (R11, R29). -/
def hostPost (w : Word) (s : State) : Host.Outcome State Fault Refusal :=
  if s.rst then .next s.busError else startWord w (s.answer true 0)

/-- The reset input (R320, R322): asserted, the block is put into its reset state, the buffers' contents are lost and
the block is held there; released, it goes on from there. -/
def State.setRst (s : State) (asserted : Bool) : State :=
  if asserted then { s.resetRegisters with mem := [], rst := true } else { s with rst := false }

/-- One port event. -/
def portStep (e : PortEvent) (s : State) : Host.Outcome State Fault Refusal :=
  match e with
  | .read a sz => .next (hostRead a sz s)
  | .write a sz d => hostWrite a sz d s
  | .post w => hostPost w s
  | .quiet => blockStep s
  | .rst b => .next (s.setRst b)

/-- One step of the machine: the host's next port event; the block's own step where the host does nothing more. -/
def machineStep (s : State) : Host.Outcome State Fault Refusal :=
  match s.port with
  | [] => blockStep s
  | e :: rest => portStep e { s with port := rest }

/-- The state in which the very next step runs the word `w` at the command level: `rst` released and a size-4 write of
`w` to CMD as the host's next act. -/
def State.issue (s : State) (w : Word) : State :=
  { s with rst := false, port := .write 0x0000 .four w :: s.port }

end Sys2Proof.Machine
end

