-- ==== Sys2Proof/Machine/Step.lean ====
section
/-! DEFINITION. The step of the machine, and the placing of an instruction. -/

namespace Sys2Proof.Machine

/-- One step (log entries 1 and 2). -/
def step (s : State) : Host.Outcome State Fault Refusal := machineStep s

/-- `s` with the instruction of bits `w` as the host's next write to CMD (log entry 2). -/
def State.withFetchWord (s : State) (nbits w : Nat) : State := s.issue (tableWord nbits w)

end Sys2Proof.Machine
end

