-- ==== Sys2Proof/Machine/WireFrame.lean ====
section
/-! DEFINITION. The wire frame as data (spec/30_encoding.md rules R90 to R98), apart from the commands that send and
receive one: what claims about those commands are stated in. -/

namespace Sys2Proof.Machine

/-- The document's Frame record (R90); the length and the checksum are computed. `endBit` true is end-of-block. -/
structure Frame where
  kind : Bool
  ack : Option Byte
  payload : List Byte
  endBit : Bool
deriving DecidableEq, Repr

/-- The sum modulo 256 of a list of bytes (R130). -/
def byteSum : List Byte → Byte
  | [] => 0
  | v :: rest => v + byteSum rest

/-- Len: the payload length, plus 1 if there is an ack byte (R94). -/
def Frame.len (f : Frame) : Half := BitVec.ofNat 16 (f.payload.length + f.ack.toList.length)

/-- The bytes the checksum covers: LenHi, LenLo, AckByte if present, payload (R96). -/
def Frame.covered (f : Frame) : List Byte := hiByte f.len :: loByte f.len :: (f.ack.toList ++ f.payload)

/-- The checksum byte (R96). -/
def Frame.checksum (f : Frame) : Byte := 0 - byteSum f.covered

/-- The frame on the wire (R90, R91). -/
def Frame.bytes (f : Frame) : List Byte :=
  startMarker f.kind :: (f.covered ++ [f.checksum, endMarker f.endBit])

/-- The frame that TXCTL and a payload describe (R35, R36). -/
def State.txFrame (s : State) (payload : List Byte) : Frame :=
  ⟨s.txctl.kind, if s.txctl.ackEn then some s.txctl.ackVal else none, payload, s.txctl.endBit⟩

/-- The frame that RXCTL and a payload describe for a compare (R37, R191). -/
def State.rxFrame (s : State) (payload : List Byte) : Frame :=
  ⟨s.rxctl.kind, if s.rxctl.ackEn then some s.rxctl.ackVal else none, payload, s.rxctl.endBit⟩

/-- Store bytes at rising addresses from `a` on. -/
def storeBytes (a : Nat) : List Byte → Memory → Memory
  | [], m => m
  | v :: rest, m => storeBytes (a + 1) rest (m.write a v)

end Sys2Proof.Machine
end

