-- ==== Sys2Proof/Safety.lean ====
section
/-! DEFINITION. The terms claims are stated in: when a command is accepted, what a buffer holds, what the transport
answers to a run of events, chains of retry attempts, the event bounds, and the invariants of the machine. -/

namespace Sys2Proof.Machine

/-- Acceptance's lines 1 and 3 let a command pass (R250). -/
abbrev State.ready (s : State) : Prop := s.busy = false ∧ s.err = 0

/-- The buffer holds these bytes from offset 0 on (R40, R69). -/
def State.holds (s : State) (b : Buf) (bytes : List Byte) : Prop :=
  ∀ i (h : i < bytes.length), s.mem.read (b.addr i) = some bytes[i]

/-! ### What the transport answers to a run of events (R8) -/

/-- What the `j`-th `Sample(n)` from here on returns, 0 for the next one: a listed answer, or the free value its draw
gives. -/
def State.sampleAt (s : State) (n j : Nat) : Lanes :=
  lanesLow n (s.samples.getD j (Config.freeSample (s.draws + (j - s.samples.length))))

/-- What the next `k` events `Sample(n)` return. -/
def State.samplesAhead (s : State) (n k : Nat) : List Lanes := (List.range k).map (s.sampleAt n)

/-- The state once `k` events `Sample(n)` have returned. -/
def State.afterSamples (s : State) (n k : Nat) : State :=
  { s with
    samples := s.samples.drop k
    draws := s.draws + (k - s.samples.length)
    trace := s.trace ++ (s.samplesAhead n k).map (.sample n) }

/-- What the `j`-th `Level()` from here on returns, 0 for the next one. -/
def State.levelAt (s : State) (j : Nat) : Mask :=
  s.levels.getD j (Config.freeLevel (s.draws + (j - s.levels.length)))

/-- The state once `k` events `Level()` have returned. -/
def State.afterLevels (s : State) (k : Nat) : State :=
  { s with
    levels := s.levels.drop k
    draws := s.draws + (k - s.levels.length)
    trace := s.trace ++ (List.range k).map fun j => .level (s.levelAt j) }

/-- The bytes a capture reads next: the active channel's part of each sample (R193). -/
def State.captureAhead (s : State) (k : Nat) : List Byte := (s.samplesAhead 8 k).map (lanePick s.active)

/-! ### Compare mode (R197) -/

/-- The ignore mask of each byte of a frame: 0x00 but for the payload's (R198 (d)). -/
def Frame.ignores (f : Frame) (masks : List Byte) : List Byte :=
  List.replicate (3 + f.ack.toList.length) 0x00 ++ masks ++ [0x00, 0x00]

/-- The mask of each byte position: `ACTIVE and diverge(o, e, ign, 8)` (R151, R197). -/
def hitMasks (act : Mask) (os : List Lanes) (es gs : List Byte) : List Mask :=
  (os.zip (es.zip gs)).map fun p => act &&& diverge p.1 p.2.1 p.2.2 8

/-- The fault mask of a whole frame (R24). -/
def orMasks (ms : List Mask) : Mask := ms.foldl (· ||| ·) 0

/-- FIRST: the index of the first position with a mask that is not 0, and 0 if there is none (R25, R197). -/
def firstHit (ms : List Mask) : Half := if orMasks ms = 0 then 0 else BitVec.ofNat 16 (ms.findIdx (· != 0))

/-! ### Retry (R230) -/

/-- `k` attempts were made from `s` and left `t`: RREM was counted down before each, and each but the last left a mask
that is not 0. -/
inductive Attempts (attempt : State → Flow) : Nat → State → State → Prop
  | one {s t : State} : attempt { s with rrem := s.rrem - 1 } = .go t → Attempts attempt 1 s t
  | more {k : Nat} {s t u : State} : Attempts attempt k s t → t.resMask ≠ 0 →
      attempt { t with rrem := t.rrem - 1 } = .go u → Attempts attempt (k + 1) s u

/-- One attempt of the four commands that may be retried (R232); none for the others. -/
def attemptOf : Instr → Option (State → Flow)
  | .nop => none
  | .clrerr => none
  | .srst => none
  | .csclr => none
  | .csadd _ => none
  | .csget => none
  | .cschk => none
  | .cmp _ n a b => some (cmpAttempt n.toNat a b)
  | .waitlvl _ l => some (waitlvlAttempt l)
  | .txframe => none
  | .rxcap => none
  | .rxcmp _ => some rxcmpAttempt
  | .xcap => none
  | .xcmp _ => some xcmpAttempt

/-- The retry bit of a command (R100, R232). -/
def retried : Instr → Bool
  | .nop => false
  | .clrerr => false
  | .srst => false
  | .csclr => false
  | .csadd _ => false
  | .csget => false
  | .cschk => false
  | .cmp r _ _ _ => r
  | .waitlvl r _ => r
  | .txframe => false
  | .rxcap => false
  | .rxcmp r => r
  | .xcap => false
  | .xcmp r => r

/-! ### What the active channels see -/

/-- Two answers to a `Sample` are the same on every channel of the mask (R8, R151). -/
structure Lanes.agree (act : Mask) (o o' : Lanes) : Prop where
  lane0 : act.getLsbD 0 = true → o.o0 = o'.o0
  lane1 : act.getLsbD 1 = true → o.o1 = o'.o1
  lane2 : act.getLsbD 2 = true → o.o2 = o'.o2
  lane3 : act.getLsbD 3 = true → o.o3 = o'.o3

/-- Two events are the same but for what the channels outside the mask answered: the same `Send`, a `Sample` of the same
bit count, a `Level` (R8). -/
def Event.agree (act : Mask) : Event → Event → Prop
  | .send a v, .send a' v' => a = a' ∧ v = v'
  | .sample n o, .sample n' o' => n = n' ∧ Lanes.agree act o o'
  | .level lv, .level lv' => act &&& lv = act &&& lv'
  | _, _ => False

/-! ### Event counts (R341) -/

/-- `Ltx` (R341). -/
def State.txEvents (s : State) : Nat := s.txlen.toNat + s.txctl.ackEn.toNat + 5

/-- `Lrx` (R341). -/
def State.rxEvents (s : State) : Nat := s.rxlen.toNat + s.rxctl.ackEn.toNat + 5

/-- How many attempts a command may make: BUDGET if R = 1, else 1 (R341). -/
def State.attemptBound (s : State) (r : Bool) : Nat := if r then s.budget.toNat else 1

/-- The largest number of transport events of one command (R341). -/
def State.eventBound (s : State) : Instr → Nat
  | .nop => 0
  | .clrerr => 0
  | .srst => 0
  | .csclr => 0
  | .csadd _ => 0
  | .csget => 0
  | .cschk => 0
  | .cmp r _ _ _ => s.attemptBound r
  | .waitlvl r _ => s.attemptBound r * s.timeout.toNat
  | .txframe => s.txEvents
  | .rxcap => s.rxEvents
  | .rxcmp r => s.attemptBound r * s.rxEvents
  | .xcap => s.txEvents + s.rxEvents
  | .xcmp r => s.attemptBound r * (s.txEvents + s.rxEvents)

/-! ### Invariants -/

/-- BUSY and FSM agree (R26), and the error registers hold only what error entry and its return leave: ERR is a code
the block writes (R270, U19), ERRINFO is 0 while ERR is (R44), no command runs while ERR is set (R280), and `rst` holds
the block in its reset state (R320). -/
structure State.ControlInv (s : State) : Prop where
  busy_iff : s.busy = true ↔ s.fsm ≠ .idle
  err_code : s.err = 0 ∨ s.err = 1 ∨ s.err = 2 ∨ s.err = 3 ∨ s.err = 4 ∨ s.err = 7
  errinfo_clear : s.err = 0 → s.errPos = 0 ∧ s.errMask = 0 ∧ s.errByte = 0
  busy_no_error : s.busy = true → s.err = 0
  held : s.rst = true → s.resetRegisters = s ∧ s.mem = []

/-- The receive states in which a capture stores or has stored payload bytes of its frame. -/
def Fsm.inCapture : Fsm → Bool
  | .rxLenHi | .rxLenLo | .rxAck | .rxPayload => true
  | _ => false

/-- The transmit states, and RX_START, in which an accepted capture has not yet set RPOS. -/
def Fsm.beforeCapture : Fsm → Bool
  | .txStart | .txLenHi | .txLenLo | .txAck | .txPayload | .txCsum | .txEnd | .rxStart => true
  | _ => false

/-- The buffers stay inside their windows: the memory is in its canonical form and lists only buffer bytes, RPOS never
exceeds BUF_SIZE (R23), and the rest of a running capture still fits (R68, R192 (e)). -/
structure State.BufferInv (s : State) : Prop where
  params_wf : s.params.wf
  mem_wf : s.mem.wf = true
  in_windows : ∀ c ∈ s.mem, inWindow s.params c.1 = true
  rpos_le : s.rpos.toNat ≤ s.params.bufSize
  aux_not_capture : s.fsm = .aux → s.capturing = false
  room_before : s.fsm.beforeCapture = true → s.capturing = true →
    s.captureBase + s.rxlen.toNat ≤ s.params.bufSize
  room_during : s.fsm.inCapture = true → s.capturing = true →
    (s.fsm ≠ .rxPayload → s.pos = 0) ∧ (s.fsm = .rxPayload → s.pos.toNat < s.rxlen.toNat) ∧
      s.rpos.toNat + (s.rxlen.toNat - s.pos.toNat) ≤ s.params.bufSize

end Sys2Proof.Machine
end

