-- ==== Sys2Proof/Certificates/Slice0/Obligations.lean ====
section
/-! DEFINITION. The statements about the block, from the numbered rules of spec/. Nothing is proved here. -/

open Sys2Proof Sys2Proof.Machine

/-! ## Encoding -/

/-- Decoding the word of a well-formed command gives the command back (spec/30_encoding.md rules R100, R101). -/
def Obligations.DecodeOfEncodeIsTheCommand : Prop :=
  ∀ i : Instr, i.wellFormed = true → decode (encode i) = .ok i

/-- A word decodes to at most one command, well formed, and is the word of that command: no bit of it is dropped. -/
def Obligations.EncodeOfDecodeIsTheWord : Prop :=
  ∀ (w : Word) (i : Instr), decode w = .ok i → i.wellFormed = true ∧ encode i = w

/-- R102: the words the decoder rejects are exactly those with an unassigned OP (a), a reserved bit set (b), R on a
command without it (c), N, B or A on a command that does not use it (d, e, f), A[7:1] set on WAITLVL (g), or a bit count
outside 1 .. 8 on CMP (h). -/
def Obligations.RejectedWordsAreTheIllFormedOnes : Prop :=
  ∀ w : Word,
    (∃ r, decode w = .error r) ↔
      (let op := w.toNat % 256
       let r := w.toNat / 256 % 2
       let rsv := w.toNat / 512 % 8
       let n := w.toNat / 4096 % 16
       let a := w.toNat / 65536 % 256
       let b := w.toNat / 16777216
       op ∉ [0x00, 0x01, 0x02, 0x10, 0x11, 0x12, 0x13, 0x20, 0x21, 0x30, 0x31, 0x32, 0x33, 0x34] ∨
       rsv ≠ 0 ∨
       (r = 1 ∧ op ∉ [0x20, 0x21, 0x32, 0x34]) ∨
       (n ≠ 0 ∧ op ≠ 0x20) ∨
       (b ≠ 0 ∧ op ≠ 0x20) ∨
       (a ≠ 0 ∧ op ∉ [0x11, 0x20, 0x21]) ∨
       (op = 0x21 ∧ a / 2 ≠ 0) ∨
       (op = 0x20 ∧ ¬ (1 ≤ n ∧ n ≤ 8)))

/-- A few command words of the spec's own listings decode to the commands they stand for. -/
def Obligations.ListedWordsDecode : Prop :=
  decode 0x00000000 = .ok .nop ∧
  decode 0x00AA0011 = .ok (.csadd 0xAA) ∧
  decode 0x01A58020 = .ok (.cmp false 8 0xA5 0x01) ∧
  decode 0x00A58120 = .ok (.cmp true 8 0xA5 0x00) ∧
  decode 0x00010121 = .ok (.waitlvl true true) ∧
  decode 0x00000030 = .ok .txframe ∧
  decode 0x00000134 = .ok (.xcmp true)

/-! ## The step and acceptance -/

/-- A size-4 write to CMD of a word that decodes to a command runs that command: the step is `exec` of it, with the
write taken off the host's list and answered. -/
def Obligations.StepRunsTheDecodedCommand : Prop :=
  ∀ (s : State) (w : Word) (i : Instr) (rest : List PortEvent),
    s.rst = false → s.port = .write 0x0000 .four w :: rest → decode w = .ok i →
    step s = exec i { s with port := rest, replies := s.replies ++ [⟨true, 0⟩] }

/-- R250 line 4, R275: an ill-formed word written to an idle block without an error ends as IllegalCommand; no event,
and nothing but the error registers changes. -/
def Obligations.IllFormedWordEndsAsIllegalCommand : Prop :=
  ∀ (s : State) (w : Word) (rest : List PortEvent),
    s.rst = false → s.port = .write 0x0000 .four w :: rest → s.ready → s.fsm = .idle →
    (∃ r, decode w = .error r) →
    step s = .next
      { s with
        port := rest
        replies := s.replies ++ [⟨true, 0⟩]
        err := 7
        errPos := 0
        errMask := 0
        errByte := w.extractLsb' 0 8 }

/-- R250 line 1: while BUSY = 1 every command is refused, SRST among them: SEQ is set and nothing else changes. -/
def Obligations.BusyRefusesEveryCommand : Prop :=
  ∀ (i : Instr) (s : State), s.busy = true → exec i s = .next { s with seq := true }

/-- R250 line 3: while ERR is not 0 every command but NOP, CLRERR and SRST is refused. -/
def Obligations.ErrorRefusesAllButControlCommands : Prop :=
  ∀ (i : Instr) (s : State), s.busy = false → s.err ≠ 0 → i ≠ .nop → i ≠ .clrerr → i ≠ .srst →
    exec i s = .next { s with seq := true }

/-- R11: from every state and for every word, the byte-level FSM, left to run, reaches the outcome of the
command-level meaning, the same events and the same end state. -/
def Obligations.ByteLevelRunsReachTheCommandLevelOutcome : Prop :=
  ∀ (s : State) (w : Word), ∃ k : Nat,
    Host.Core.run Sys2Proof.core (k + 1) { s with port := [.post w] } =
      Host.Core.run Sys2Proof.core 1 { s with port := [.write 0x0000 .four w] }

/-- R26 with the tables of R27 to R29: left to itself the block takes exactly one transport event in each step, the one
its FSM state names: a TX state sends the byte its row gives to the active channels, an RX state is one `Sample(8)`, AUX
is CMP's `Sample(N)` or WAITLVL's `Level`; in IDLE it takes none. AUX with another command in OPR, which no run reaches
and no rule speaks of (log entry 12), is left out. -/
def Obligations.RunningBlockTakesOneEventAStep : Prop :=
  ∀ (s t : State), s.rst = false → (s.port = [] ∨ ∃ rest, s.port = .quiet :: rest) → step s = .next t →
    match s.fsm with
    | .idle => t.trace = s.trace
    | .txStart => t.trace = s.trace ++ [.send s.active (startMarker s.txctl.kind)]
    | .txLenHi => t.trace = s.trace ++ [.send s.active (hiByte s.lenr)]
    | .txLenLo => t.trace = s.trace ++ [.send s.active (loByte s.lenr)]
    | .txAck => t.trace = s.trace ++ [.send s.active s.txctl.ackVal]
    | .txPayload =>
      ∃ v, s.mem.read (Buf.tx.addr s.pos.toNat) = some v ∧ t.trace = s.trace ++ [.send s.active v]
    | .txCsum => t.trace = s.trace ++ [.send s.active (0 - s.csum)]
    | .txEnd => t.trace = s.trace ++ [.send s.active (endMarker s.txctl.endBit)]
    | .rxStart | .rxLenHi | .rxLenLo | .rxAck | .rxPayload | .rxCsum | .rxEnd =>
      t.trace = s.trace ++ [.sample 8 (s.sampleAt 8 0)]
    | .aux =>
      (wordOp s.opr = 0x20 →
        t.trace = s.trace ++ [.sample (wordN s.opr).toNat (s.sampleAt (wordN s.opr).toNat 0)]) ∧
      (wordOp s.opr = 0x21 → t.trace = s.trace ++ [.level (s.levelAt 0)])

/-- R29, command start at the byte level: an accepted transport command is latched, BUSY is set, the budgets of its
first attempt are loaded and the FSM is at its first state, before any event. -/
def Obligations.PostedTransportCommandStarts : Prop :=
  ∀ (s : State) (w : Word) (i : Instr) (rest : List PortEvent),
    s.rst = false → s.port = .post w :: rest → s.ready → decode w = .ok i → isTransport i = true →
    s.legal i = true →
    step s = .next
      { s with
        port := rest
        replies := s.replies ++ [⟨true, 0⟩]
        opr := w
        busy := true
        rrem := if retried i then s.budget - 1 else s.rrem
        trem := (match i with | .waitlvl _ _ => s.timeout | _ => s.trem)
        fsm := (match i with
          | .txframe | .xcap | .xcmp _ => Fsm.txStart
          | .rxcap | .rxcmp _ => .rxStart
          | _ => .aux) }

/-! ## Checksum generator -/

/-- R131. -/
def Obligations.CsclrClearsTheSum : Prop :=
  encode .csclr = 0x00000010 ∧
  ∀ s : State, s.ready → exec .csclr s = .next { s with csum := 0x00 }

/-- R132. -/
def Obligations.CsaddAddsItsByte : Prop :=
  ∀ a : Byte, encode (.csadd a) = 0x00000011 + (a.setWidth 32 <<< 16) ∧
  ∀ s : State, s.ready → exec (.csadd a) s = .next { s with csum := s.csum + a }

/-- R133. -/
def Obligations.CsgetFormsTheChecksumByte : Prop :=
  encode .csget = 0x00000012 ∧
  ∀ s : State, s.ready →
    exec .csget s = .next { s with resValue := 0 - s.csum, resMask := 0, allf := false }

/-- R134. -/
def Obligations.CschkTestsTheSum : Prop :=
  encode .cschk = 0x00000013 ∧
  ∀ s : State, s.ready →
    exec .cschk s =
      .next { s with resValue := if s.csum = 0x00 then 0x01 else 0x00, resMask := 0, allf := false }

/-- R130 through the commands: a run of CSADD leaves CSUM increased by the sum of the bytes, the same for every order of
them, and one byte exactly brings the sum to 0, the two's complement CSGET forms. -/
def Obligations.CsaddRunsSumAnyOrderToOneChecksum : Prop :=
  ∀ (bs cs : List Byte) (s : State), s.ready → bs.Perm cs →
    bs.foldl (fun (o : Host.Outcome State Fault Refusal) b => match o with
        | .next t => exec (.csadd b) t
        | .fault f => .fault f
        | .refused r => .refused r) (.next s) = .next { s with csum := s.csum + byteSum cs } ∧
    ∀ c : Byte, s.csum + byteSum (bs ++ [c]) = 0x00 ↔ c = 0 - (s.csum + byteSum cs)

/-! ## Control commands -/

/-- R251. -/
def Obligations.NopDoesNothing : Prop :=
  encode .nop = 0x00000000 ∧ (∃ r, decode 0x00000100 = .error r) ∧
  ∀ s : State, (s.busy = false → exec .nop s = .next s) ∧ (s.busy = true → exec .nop s = .next { s with seq := true })

/-- R252. -/
def Obligations.ClrerrClearsTheErrorRecord : Prop :=
  encode .clrerr = 0x00000001 ∧
  ∀ s : State,
    (s.busy = false →
      exec .clrerr s = .next { s with err := 0, seq := false, errPos := 0, errMask := 0, errByte := 0 }) ∧
    (s.busy = true → exec .clrerr s = .next { s with seq := true })

/-- R253, R321: SRST, accepted whatever ERR is, sets every register and flag to 0 and keeps the buffers; the inputs and
records of the model that are no state of the block stay. -/
def Obligations.SrstResetsRegistersKeepsBuffers : Prop :=
  encode .srst = 0x00000002 ∧
  ∀ s : State,
    (s.busy = true → exec .srst s = .next { s with seq := true }) ∧
    (s.busy = false → exec .srst s = .next
      { csum := 0, rsum := 0, rpos := 0, fmask := 0, pos := 0, lenr := 0, first := 0, firstv := false, ackc := 0,
        opr := 0, fsm := .idle, busy := false, seq := false, allf := false, err := 0, active := 0,
        txctl := ⟨false, false, false, 0⟩, txlen := 0, rxctl := ⟨false, false, false, false, 0⟩, rxlen := 0,
        budget := 0, timeout := 0, resMask := 0, resValue := 0, errPos := 0, errMask := 0, errByte := 0, rrem := 0,
        trem := 0, mem := s.mem, rst := s.rst, params := s.params, port := s.port, replies := s.replies,
        trace := s.trace, samples := s.samples, levels := s.levels, draws := s.draws })

/-! ## Comparator -/

/-- R150: bit c of the divergence mask is set exactly when some bit below the bit count that is not ignored differs
between what channel c sent and what was expected. -/
def Obligations.DivergeComparesTheSelectedBits : Prop :=
  ∀ (o : Lanes) (e ign : Byte) (n : Nat), 1 ≤ n → n ≤ 8 → ∀ c : Fin 4,
    ((diverge o e ign n).getLsbD c.val = true ↔
      ∃ i, i < n ∧ ign.getLsbD i = false ∧
        ((match c with | 0 => o.o0 | 1 => o.o1 | 2 => o.o2 | 3 => o.o3).getLsbD i ≠ e.getLsbD i))

/-- R152 with the loop of R230: CMP makes one attempt with R = 0; with R = 1 it makes attempts, each one `Sample(N)`,
until a mask is 0 or BUDGET attempts are made. It leaves the last mask, and CompareMismatch if that is not 0. -/
def Obligations.CmpComparesUntilMatchOrBudget : Prop :=
  ∀ (s : State) (r : Bool) (n : BitVec 4) (a b : Byte),
    s.ready → s.active ≠ 0 → 1 ≤ n.toNat → n.toNat ≤ 8 → (r = true → s.budget ≠ 0) →
    ∃ k : Nat, 1 ≤ k ∧ k ≤ (if r then s.budget.toNat else 1) ∧
      (let mask := fun j => s.active &&& diverge (s.sampleAt n.toNat j) a b n.toNat
       let m := mask (k - 1)
       (∀ j, j + 1 < k → mask j ≠ 0) ∧
       (m = 0 ∨ k = (if r then s.budget.toNat else 1)) ∧
       exec (.cmp r n a b) s = .next
         { s.afterSamples n.toNat k with
           opr := encode (.cmp r n a b)
           fsm := .idle
           busy := false
           rrem := if r then s.budget - BitVec.ofNat 32 k else s.rrem
           resMask := m
           resValue := 0x00
           allf := decide (m ≠ 0 ∧ m = s.active)
           err := if m = 0 then 0 else 4
           errPos := if m = 0 then s.errPos else 0
           errMask := if m = 0 then s.errMask else m
           errByte := if m = 0 then s.errByte else 0x00 })

/-- R104: bits N .. 7 of A and of B do not matter to CMP, and the word with them set is well formed. -/
def Obligations.CmpIgnoresBitsAboveTheCount : Prop :=
  ∀ (s t : State) (r : Bool) (n : BitVec 4) (a b a' b' : Byte), 1 ≤ n.toNat → n.toNat ≤ 8 →
    (∀ i, i < n.toNat → a.getLsbD i = a'.getLsbD i ∧ b.getLsbD i = b'.getLsbD i) →
    decode (encode (.cmp r n a' b')) = .ok (.cmp r n a' b') ∧
    (s.ready → s.cmpLegal r n = true → exec (.cmp r n a b) s = .next t →
      exec (.cmp r n a' b') s = .next { t with opr := encode (.cmp r n a' b') })

/-- R153, one attempt: WAITLVL polls until a poll's mask is 0 or TIMEOUT polls are made, without latching; it leaves the
last poll's mask, TREM at what is left, and TimeoutError if the mask is not 0. -/
def Obligations.WaitlvlPollsUntilLevelOrTimeout : Prop :=
  ∀ (s : State) (l : Bool), s.ready → s.active ≠ 0 → s.timeout ≠ 0 →
    ∃ k : Nat, 1 ≤ k ∧ k ≤ s.timeout.toNat ∧
      (let mask := fun j => s.active &&& (s.levelAt j ^^^ (if l then 0xF else 0x0))
       let m := mask (k - 1)
       (∀ j, j + 1 < k → mask j ≠ 0) ∧
       (m = 0 ∨ k = s.timeout.toNat) ∧
       exec (.waitlvl false l) s = .next
         { s.afterLevels k with
           opr := encode (.waitlvl false l)
           fsm := .idle
           busy := false
           trem := s.timeout - BitVec.ofNat 32 k
           resMask := m
           resValue := 0x00
           allf := decide (m ≠ 0 ∧ m = s.active)
           err := if m = 0 then 0 else 3
           errPos := if m = 0 then s.errPos else 0
           errMask := if m = 0 then s.errMask else m
           errByte := if m = 0 then s.errByte else 0x00 })

/-- R154 and R231: CMP and WAITLVL end as IllegalCommand, before any event and with nothing but the error registers
changed, when no channel is active, WAITLVL also when TIMEOUT = 0, either also when R = 1 and BUDGET = 0. -/
def Obligations.ComparatorCommandsRefuseBadParameters : Prop :=
  ∀ (s : State) (r l : Bool) (n : BitVec 4) (a b : Byte), s.ready → s.fsm = .idle →
    (s.active = 0 ∨ (r = true ∧ s.budget = 0) →
      exec (.cmp r n a b) s = .next { s with err := 7, errPos := 0, errMask := 0, errByte := 0x20 }) ∧
    (s.active = 0 ∨ s.timeout = 0 ∨ (r = true ∧ s.budget = 0) →
      exec (.waitlvl r l) s = .next { s with err := 7, errPos := 0, errMask := 0, errByte := 0x21 })

/-! ## Retry -/

/-- R233: a retried command with budget N >= 1 makes k attempts, 1 <= k <= N, fewer than N only if the last one's mask is
0; RREM is left at N - k, RESULT.MASK is the last attempt's mask, and if that is not 0 the command ends in the command's
kind of error with that mask. -/
def Obligations.RetryMakesAtMostBudgetAttempts : Prop :=
  ∀ (i : Instr) (attempt : State → Flow) (s t : State),
    attemptOf i = some attempt → retried i = true → s.ready → s.legal i = true → exec i s = .next t →
    ∃ (k : Nat) (u : State), 1 ≤ k ∧ k ≤ s.budget.toNat ∧
      Attempts attempt k { s with opr := encode i, busy := true, rrem := s.budget } u ∧
      (u.resMask = 0 ∨ k = s.budget.toNat) ∧
      t.rrem.toNat = s.budget.toNat - k ∧
      t.resMask = u.resMask ∧
      t.trace = u.trace ∧
      (u.resMask = 0 → t.err = 0) ∧
      (u.resMask ≠ 0 →
        t.err = (match i with | .waitlvl _ _ => 3 | _ => 4) ∧ t.errMask = t.resMask)

/-- R234: WAITLVL, retried or not, completes whatever the transport answers: at most BUDGET attempts of at most TIMEOUT
polls, TREM reloaded at each attempt, and TimeoutError exactly when the last mask is not 0. -/
def Obligations.WaitlvlBudgetsNest : Prop :=
  ∀ (s : State) (r l : Bool), s.ready → s.active ≠ 0 → s.timeout ≠ 0 → (r = true → s.budget ≠ 0) →
    ∃ (t : State) (polls : List Mask), exec (.waitlvl r l) s = .next t ∧ t.busy = false ∧ t.fsm = .idle ∧
      t.trace = s.trace ++ polls.map .level ∧
      polls.length ≤ (if r then s.budget.toNat else 1) * s.timeout.toNat ∧
      t.trem.toNat < s.timeout.toNat ∧
      polls.getLast? ≠ none ∧
      (∀ lv, polls.getLast? = some lv → t.resMask = s.active &&& (lv ^^^ (if l then 0xF else 0x0))) ∧
      t.err = (if t.resMask = 0 then 0 else 3) ∧ t.mem = s.mem

/-- RXCMP and XCMP, retried or not, complete whatever the transport answers, in every state in which their tests pass and
the buffer bytes they read have been written; CompareMismatch exactly when the last mask is not 0. -/
def Obligations.CompareCommandsComplete : Prop :=
  ∀ (s : State) (exp ign : List Byte) (r : Bool), s.ready → s.params.wf →
    exp.length = s.rxlen.toNat → s.holds .rx exp →
    ign.length = s.rxlen.toNat → s.holds .ign ign →
    (s.rxcmpLegal r = true →
      ∃ t, exec (.rxcmp r) s = .next t ∧ t.busy = false ∧ t.fsm = .idle ∧ t.resMask = t.fmask ∧
        t.err = (if t.resMask = 0 then 0 else 4) ∧ t.mem = s.mem) ∧
    (∀ req : List Byte, req.length = s.txlen.toNat → s.holds .tx req → s.xcmpLegal r = true →
      ∃ t, exec (.xcmp r) s = .next t ∧ t.busy = false ∧ t.fsm = .idle ∧ t.resMask = t.fmask ∧
        t.err = (if t.resMask = 0 then 0 else 4) ∧ t.mem = s.mem)

/-! ## Frame transmit -/

/-- R170: TXFRAME sends exactly the frame of R90 that TXCTL, TXLEN and TXBUF describe, to the active channels, and leaves
CSUM at the sum of the covered bytes and VALUE at the checksum byte. -/
def Obligations.TxframeSendsTheFrame : Prop :=
  encode .txframe = 0x00000030 ∧ (∃ r, decode 0x00000130 = .error r) ∧
  ∀ (s : State) (payload : List Byte),
    s.ready → s.active ≠ 0 → s.params.wf → s.txlen.toNat ≤ s.params.pageMax →
    payload.length = s.txlen.toNat → s.holds .tx payload →
    (s.txFrame payload).bytes.length = (s.txFrame payload).len.toNat + 5 ∧
    exec .txframe s = .next
      { s with
        opr := 0x00000030
        fsm := .idle
        busy := false
        csum := byteSum (s.txFrame payload).covered
        pos := s.txlen
        lenr := (s.txFrame payload).len
        resMask := 0
        resValue := (s.txFrame payload).checksum
        allf := false
        trace := s.trace ++ (s.txFrame payload).bytes.map (.send s.active) }

/-- R171 and R192: when TXLEN or RXLEN is above PAGE_MAX, no channel is active, a capture's ACTIVE is not one-hot, a
capture would pass BUF_SIZE, a compare has CONT = 1, or R = 1 and BUDGET = 0, the frame commands that say so end as
IllegalCommand, before any event and with nothing but the error registers changed. -/
def Obligations.FrameCommandsRefuseBadParameters : Prop :=
  ∀ (s : State) (r : Bool), s.ready → s.fsm = .idle →
    (let ill := fun (op : Byte) => Host.Outcome.next (φ := Fault) (ρ := Refusal)
        { s with err := 7, errPos := 0, errMask := 0, errByte := op }
     let noChannel := s.active = 0
     let txLong := s.params.pageMax < s.txlen.toNat
     let rxLong := s.params.pageMax < s.rxlen.toNat
     let notOne := s.active ≠ 1 ∧ s.active ≠ 2 ∧ s.active ≠ 4 ∧ s.active ≠ 8
     let noRoom := s.params.bufSize < (if s.rxctl.cont then s.rpos.toNat else 0) + s.rxlen.toNat
     let noBudget := r = true ∧ s.budget = 0
     (noChannel ∨ txLong → exec .txframe s = ill 0x30) ∧
     (noChannel ∨ rxLong ∨ notOne ∨ noRoom → exec .rxcap s = ill 0x31) ∧
     (noChannel ∨ rxLong ∨ s.rxctl.cont = true ∨ noBudget → exec (.rxcmp r) s = ill 0x32) ∧
     (noChannel ∨ rxLong ∨ txLong ∨ notOne ∨ noRoom → exec .xcap s = ill 0x33) ∧
     (noChannel ∨ rxLong ∨ txLong ∨ s.rxctl.cont = true ∨ noBudget → exec (.xcmp r) s = ill 0x34))

/-- R69: TXFRAME stops with the fault of the model at the first payload byte that nothing has written. -/
def Obligations.TxframeStopsAtAnUnwrittenByte : Prop :=
  ∀ (s : State) (written : List Byte),
    s.ready → s.txframeLegal = true → s.params.wf → written.length < s.txlen.toNat → s.holds .tx written →
    s.mem.read (Buf.tx.addr written.length) = none →
    exec .txframe s = .fault (.unwrittenByte .tx written.length)

/-! ## Frame receive -/

/-- R193, R194: a capture whose byte `k` (0 start marker, 1 LenHi, 2 LenLo) is the first that differs from the expected
one takes k + 1 samples, stores nothing and ends as FrameDecodeError at `k` with the byte seen. -/
def Obligations.RxcapStopsAtAStructuralMismatch : Prop :=
  ∀ (s : State) (k : Nat), s.ready → s.rxcapLegal = true → k < 3 →
    (let len := s.rxlen + (if s.rxctl.ackEn then 1 else 0)
     let header := [(if s.rxctl.kind then 0x81 else 0x01 : Byte), len.extractLsb' 8 8, len.extractLsb' 0 8]
     let seen := s.captureAhead (k + 1)
     seen.take k = header.take k → seen[k]? ≠ header[k]? →
     exec .rxcap s = .next
       { s.afterSamples 8 (k + 1) with
         opr := encode .rxcap
         fsm := .idle
         busy := false
         csum := byteSum ((header.take k).drop 1)
         lenr := len
         pos := 0
         ackc := 0x00
         rpos := if s.rxctl.cont then s.rpos else 0
         rsum := if s.rxctl.cont then s.rsum else 0x00
         resMask := 0
         resValue := 0x00
         allf := false
         err := 1
         errPos := BitVec.ofNat 16 k
         errMask := 0
         errByte := seen.getD k 0 })

/-- R193, R195: a capture whose first three bytes are the expected ones samples the whole frame: it keeps the ack byte,
stores the payload in RXBUF from the running position on, and ends as FrameDecodeError if the end marker is wrong, else as
ChecksumError if the sum of the received bytes is not 0, else without error. -/
def Obligations.RxcapCapturesTheFrame : Prop :=
  ∀ (s : State) (ack payload : List Byte) (cs e : Byte), s.ready → s.rxcapLegal = true → s.params.wf →
    ack.length = s.rxctl.ackEn.toNat → payload.length = s.rxlen.toNat →
    (let len := s.rxlen + (if s.rxctl.ackEn then 1 else 0)
     let base := if s.rxctl.cont then s.rpos else 0
     let header := [(if s.rxctl.kind then 0x81 else 0x01 : Byte), len.extractLsb' 8 8, len.extractLsb' 0 8]
     let sum := byteSum (header.drop 1 ++ ack ++ payload ++ [cs])
     let marker : Byte := if s.rxctl.endBit then 0x17 else 0x03
     s.captureAhead (len.toNat + 5) = header ++ ack ++ payload ++ [cs, e] →
     exec .rxcap s = .next
       { s.afterSamples 8 (len.toNat + 5) with
         opr := encode .rxcap
         fsm := .idle
         busy := false
         csum := sum
         lenr := len
         pos := s.rxlen
         ackc := ack.headD 0x00
         rpos := base + s.rxlen
         rsum := (if s.rxctl.cont then s.rsum else 0x00) + byteSum payload
         mem := storeBytes (0x2000 + base.toNat) payload s.mem
         resMask := 0
         resValue := ack.headD 0x00
         allf := false
         err := if e ≠ marker then 1 else if sum ≠ 0 then 2 else 0
         errPos := if e ≠ marker then 4 + len else if sum ≠ 0 then 3 + len else s.errPos
         errMask := if e ≠ marker ∨ sum ≠ 0 then 0 else s.errMask
         errByte := if e ≠ marker then e else if sum ≠ 0 then sum else s.errByte })

/-- R135: the bytes TXFRAME sends, captured by an RXCAP that expects their KIND, ACKEN, END and length, end without an
error, with CSUM = 0x00 and the payload in RXBUF. -/
def Obligations.CapturedTransmissionHasAValidChecksum : Prop :=
  ∀ (s t r : State) (payload : List Byte) (sent : List Byte),
    s.ready → s.txframeLegal = true → s.params.wf → payload.length = s.txlen.toNat → s.holds .tx payload →
    exec .txframe s = .next t → t.trace = s.trace ++ sent.map (.send s.active) →
    r.ready → r.rxcapLegal = true → r.params.wf → r.rxlen = s.txlen → r.rxctl.kind = s.txctl.kind →
    r.rxctl.ackEn = s.txctl.ackEn → r.rxctl.endBit = s.txctl.endBit → r.captureAhead sent.length = sent →
    ∃ u, exec .rxcap r = .next u ∧ u.err = 0 ∧ u.csum = 0x00 ∧
      ∀ i (h : i < payload.length), u.mem.read (Buf.rx.addr (r.captureBase + i)) = some payload[i]

/-- R136: a frame with any one byte replaced by another value does not end a capture without error: a changed marker or
length byte ends it as FrameDecodeError, a changed ack, payload or checksum byte as ChecksumError. -/
def Obligations.OneChangedByteIsAlwaysDetected : Prop :=
  ∀ (r : State) (f : Frame) (j : Nat) (v : Byte),
    r.ready → r.rxcapLegal = true → r.params.wf → f.payload.length = r.rxlen.toNat → f.kind = r.rxctl.kind →
    f.ack.isSome = r.rxctl.ackEn → f.endBit = r.rxctl.endBit →
    (h : j < f.bytes.length) → v ≠ f.bytes[j] →
    r.captureAhead f.bytes.length = f.bytes.set j v →
    ∃ u, exec .rxcap r = .next u ∧
      u.err = (if j ≤ 2 ∨ j + 1 = f.bytes.length then 1 else 2)

/-- R197, R198: RXCMP compares every byte position of the expected frame on all active channels, the payload under its
ignore masks: the fault mask is the OR of the masks of all positions, FIRST the first position with one, and a mask that
is not 0 ends the command as CompareMismatch. -/
def Obligations.RxcmpComparesTheWholeFrame : Prop :=
  ∀ (s : State) (payload ign : List Byte), s.ready → s.rxcmpLegal false = true → s.params.wf →
    payload.length = s.rxlen.toNat → s.holds .rx payload →
    ign.length = s.rxlen.toNat → s.holds .ign ign →
    (let f := s.rxFrame payload
     let n := f.bytes.length
     let masks := hitMasks s.active (s.samplesAhead 8 n) f.bytes (f.ignores ign)
     let m := orMasks masks
     n = f.len.toNat + 5 ∧ (f.ignores ign).length = n ∧
     exec (.rxcmp false) s = .next
       { s.afterSamples 8 n with
         opr := 0x00000032
         fsm := .idle
         busy := false
         csum := byteSum f.covered
         lenr := f.len
         pos := s.rxlen
         fmask := m
         firstv := decide (m ≠ 0)
         first := firstHit masks
         resMask := m
         resValue := f.checksum
         allf := decide (m ≠ 0 ∧ m = s.active)
         err := if m = 0 then 0 else 4
         errPos := if m = 0 then s.errPos else firstHit masks
         errMask := if m = 0 then s.errMask else m
         errByte := if m = 0 then s.errByte else 0x00 })

/-- R201: XCAP is TXFRAME followed by RXCAP, as one command: its end state is that of an RXCAP run after the TXFRAME, but
for OPR. -/
def Obligations.XcapIsTxframeThenRxcap : Prop :=
  encode .xcap = 0x00000033 ∧ (∃ r, decode 0x00000133 = .error r) ∧
  ∀ (s : State) (req : List Byte), s.ready → s.xcapLegal = true → s.params.wf →
    req.length = s.txlen.toNat → s.holds .tx req →
    ∃ t u, exec .txframe s = .next t ∧ exec .rxcap t = .next u ∧
      exec .xcap s = .next { u with opr := 0x00000033 }

/-- R202, one attempt: XCMP is TXFRAME followed by RXCMP, as one command, but for OPR. -/
def Obligations.XcmpIsTxframeThenRxcmp : Prop :=
  ∀ (s : State) (req exp ign : List Byte), s.ready → s.xcmpLegal false = true → s.params.wf →
    req.length = s.txlen.toNat → s.holds .tx req →
    exp.length = s.rxlen.toNat → s.holds .rx exp →
    ign.length = s.rxlen.toNat → s.holds .ign ign →
    ∃ t u, exec .txframe s = .next t ∧ exec (.rxcmp false) t = .next u ∧
      exec (.xcmp false) s = .next { u with opr := 0x00000034 }

/-! ## Errors -/

/-- R280: error entry stops the command, leaves the block idle, and records kind, position, mask and byte only where no
error is recorded yet. -/
def Obligations.ErrorEntryKeepsTheFirstError : Prop :=
  ∀ (s : State) (k : ErrKind) (p : Half) (m : Mask) (b : Byte),
    (s.err = 0 → s.raiseError k p m b =
      { s with fsm := .idle, busy := false, err := k.code, errPos := p, errMask := m, errByte := b }) ∧
    (s.err ≠ 0 → s.raiseError k p m b = { s with fsm := .idle, busy := false })

/-- R270 to R276: an accepted command ends without an error or with one of the kinds its row names; none ends as
HardwareAbort or SequenceError. -/
def Obligations.CommandsEndOnlyInTheirOwnErrors : Prop :=
  ∀ (i : Instr) (s t : State), s.ready → exec i s = .next t →
    t.err ∈ (match i with
      | .nop | .clrerr | .srst | .csclr | .csadd _ | .csget | .cschk => [0]
      | .cmp _ _ _ _ | .rxcmp _ | .xcmp _ => [0, 4, 7]
      | .waitlvl _ _ => [0, 3, 7]
      | .txframe => [0, 7]
      | .rxcap | .xcap => [0, 1, 2, 7] : List (BitVec 4))

/-! ## Invariants -/

/-- The reset state meets the control invariant. -/
def Obligations.ResetMeetsControlInvariant : Prop := State.reset.ControlInv

/-- Every step, of the host, of a command or of the byte-level FSM, keeps: BUSY is 1 exactly when FSM is not IDLE; ERR is
0 or a code the block writes; ERRINFO is 0 while ERR is; no command runs while ERR is set; `rst` holds the block in its
reset state. -/
def Obligations.StepKeepsControlInvariant : Prop :=
  ∀ s t : State, s.ControlInv → step s = .next t → t.ControlInv

/-- The reset state meets the buffer invariant. -/
def Obligations.ResetMeetsBufferInvariant : Prop := State.reset.BufferInv

/-- Every step keeps the memory in its canonical form and inside the three buffer windows, and RPOS at most BUF_SIZE
(R23, R68). -/
def Obligations.StepKeepsBufferInvariant : Prop :=
  ∀ s t : State, s.ControlInv → s.BufferInv → step s = .next t → t.BufferInv

/-! ## Reset -/

/-- R321: what the machine holds after a hardware reset and after SRST: every register and flag 0, STATUS reading 0; the
block then does nothing until the host writes CMD; SRST leaves the buffers as they are. -/
def Obligations.ResetStateHoldsTheResetValues : Prop :=
  let cleared := fun s : State =>
    s.fsm = .idle ∧ s.busy = false ∧ s.seq = false ∧ s.allf = false ∧ s.err = 0 ∧ s.active = 0 ∧
    s.txctl.pack = 0 ∧ s.rxctl.pack = 0 ∧ s.txlen = 0 ∧ s.rxlen = 0 ∧ s.budget = 0 ∧ s.timeout = 0 ∧
    s.resultReg = 0 ∧ s.csum = 0 ∧ s.rsum = 0 ∧ s.rpos = 0 ∧ s.errinfoReg = 0 ∧ s.rrem = 0 ∧ s.trem = 0 ∧
    s.fmask = 0 ∧ s.pos = 0 ∧ s.lenr = 0 ∧ s.first = 0 ∧ s.firstv = false ∧ s.ackc = 0 ∧ s.opr = 0 ∧ s.statusReg = 0
  cleared State.reset ∧ step State.reset = .next State.reset ∧
  ∀ s : State, s.busy = false → ∃ t, exec .srst s = .next t ∧ cleared t ∧ t.mem = s.mem

/-- R320, R322: the reset input, asserted at any time, also while a command runs, sets every register and flag to its
reset value, loses the buffers' contents and emits no event; while it is asserted every host access is a bus error and
the block makes no step; released, the block goes on from there. -/
def Obligations.RstResetsAndHoldsTheBlock : Prop :=
  (∀ (s : State) (rest : List PortEvent), s.port = .rst true :: rest →
    step s = .next
      { State.reset with
        rst := true, params := s.params, port := rest, replies := s.replies, trace := s.trace, samples := s.samples,
        levels := s.levels, draws := s.draws }) ∧
  (∀ (s : State) (rest : List PortEvent) (a : Half) (sz : AccessSize) (d : Word), s.rst = true →
    (s.port = .read a sz :: rest ∨ s.port = .write a sz d :: rest ∨ s.port = .post d :: rest) →
    step s = .next { s with port := rest, replies := s.replies ++ [⟨false, 0⟩] }) ∧
  (∀ s : State, s.rst = true → s.port = [] → step s = .next s) ∧
  (∀ (s : State) (rest : List PortEvent), s.rst = true → s.port = .quiet :: rest →
    step s = .next { s with port := rest }) ∧
  (∀ (s : State) (rest : List PortEvent), s.port = .rst false :: rest →
    step s = .next { s with port := rest, rst := false })

/-! ## Host port -/

/-- R63: an access to an unmapped address, of the wrong size, or misaligned, and a write to a read-only register, is a bus
error: `ok = false`, data 0, and nothing in the block changes, not even SEQ, whatever BUSY is. -/
def Obligations.BusErrorsChangeNothing : Prop :=
  ∀ (s : State) (rest : List PortEvent) (a : Half) (sz : AccessSize) (d : Word),
    (let inBuffer := fun (base : Nat) => base ≤ a.toNat ∧ a.toNat < base + s.params.bufSize
     let mapped := match sz with
       | .four => a.toNat % 4 = 0 ∧ a.toNat ≤ 0x38
       | .one => inBuffer 0x1000 ∨ inBuffer 0x2000 ∨ inBuffer 0x3000
     let readOnly := sz = .four ∧ (a.toNat = 0x04 ∨ 0x24 ≤ a.toNat)
     (s.port = .read a sz :: rest ∧ ¬ mapped) ∨ (s.port = .write a sz d :: rest ∧ (¬ mapped ∨ readOnly)) →
     step s = .next { s with port := rest, replies := s.replies ++ [⟨false, 0⟩] })

/-- R66, R250 line 1: while BUSY = 1 a read of STATUS is answered; any other access that is not a bus error, a command
among them, is refused: `ok = true`, data 0, SEQ set, nothing else changed. -/
def Obligations.BusyRefusesAllAccessesButStatus : Prop :=
  ∀ (s : State) (rest : List PortEvent), s.busy = true → s.rst = false →
    (s.port = .read 0x0004 .four :: rest →
      step s = .next { s with port := rest, replies := s.replies ++ [⟨true, s.statusReg⟩] }) ∧
    (∀ a : Half, a.toNat % 4 = 0 → a.toNat ≤ 0x38 → a ≠ 0x0004 → s.port = .read a .four :: rest →
      step s = .next { s with port := rest, seq := true, replies := s.replies ++ [⟨true, 0⟩] }) ∧
    (∀ (a : Half) (d : Word), a.toNat % 4 = 0 → a.toNat ≤ 0x20 → a ≠ 0x0004 → s.port = .write a .four d :: rest →
      step s = .next { s with port := rest, seq := true, replies := s.replies ++ [⟨true, 0⟩] }) ∧
    (∀ d : Word, s.port = .post d :: rest →
      step s = .next { s with port := rest, seq := true, replies := s.replies ++ [⟨true, 0⟩] }) ∧
    (∀ a : Half, inWindow s.params a.toNat = true → s.port = .read a .one :: rest →
      step s = .next { s with port := rest, seq := true, replies := s.replies ++ [⟨true, 0⟩] }) ∧
    (∀ (a : Half) (d : Word), inWindow s.params a.toNat = true → s.port = .write a .one d :: rest →
      step s = .next { s with port := rest, seq := true, replies := s.replies ++ [⟨true, 0⟩] })

/-- R31 to R45: what a read of each register returns while the block is idle, bit by bit as the layouts say; a read changes
nothing in the block. -/
def Obligations.RegisterReadsReturnTheirFields : Prop :=
  ∀ (s : State) (rest : List PortEvent) (a : Half) (v : Nat), s.busy = false → s.rst = false →
    s.port = .read a .four :: rest →
    (a, v) ∈
      [((0x0000 : Half), 0),
       (0x0004, s.allf.toNat * 4 + s.seq.toNat * 2 + s.err.toNat * 16 + s.fsm.code.toNat * 256),
       (0x0008, s.active.toNat),
       (0x000C, s.txctl.kind.toNat + s.txctl.ackEn.toNat * 2 + s.txctl.endBit.toNat * 4 + s.txctl.ackVal.toNat * 256),
       (0x0010, s.txlen.toNat),
       (0x0014, s.rxctl.kind.toNat + s.rxctl.ackEn.toNat * 2 + s.rxctl.endBit.toNat * 4 + s.rxctl.cont.toNat * 8
          + s.rxctl.ackVal.toNat * 256),
       (0x0018, s.rxlen.toNat),
       (0x001C, s.budget.toNat),
       (0x0020, s.timeout.toNat),
       (0x0024, s.resMask.toNat + s.resValue.toNat * 256),
       (0x0028, s.csum.toNat + s.rsum.toNat * 256),
       (0x002C, s.rpos.toNat),
       (0x0030, s.errPos.toNat + s.errMask.toNat * 65536 + s.errByte.toNat * 16777216),
       (0x0034, s.rrem.toNat),
       (0x0038, s.trem.toNat)] →
    step s = .next { s with port := rest, replies := s.replies ++ [⟨true, BitVec.ofNat 32 v⟩] }

/-- R34 to R39, R46: a write of a writable register followed by a read of it returns the stored fields, every other bit 0;
nothing but that register changes. -/
def Obligations.RegisterWritesReadBackTheirFields : Prop :=
  ∀ (s : State) (rest : List PortEvent) (a : Half) (d mask : Word), s.busy = false → s.rst = false →
    (a, mask) ∈
      [((0x0008 : Half), (0x0000000F : Word)), (0x000C, 0x0000FF07), (0x0010, 0x0000FFFF), (0x0014, 0x0000FF0F),
       (0x0018, 0x0000FFFF), (0x001C, 0xFFFFFFFF), (0x0020, 0xFFFFFFFF)] →
    s.port = .write a .four d :: .read a .four :: rest →
    ∃ t, Host.Core.run Sys2Proof.core 2 s = .next t ∧
      t.replies = s.replies ++ [⟨true, 0⟩, ⟨true, d &&& mask⟩] ∧
      t.port = rest ∧
      { t with
        active := s.active, txctl := s.txctl, txlen := s.txlen, rxctl := s.rxctl, rxlen := s.rxlen,
        budget := s.budget, timeout := s.timeout, replies := s.replies, port := s.port } = s ∧
      ∀ b : Half, b ≠ a → (∃ r, regAt b = some r) →
        ∃ r, regAt b = some r ∧ t.readReg r = s.readReg r

/-- R64, R66: a host read changes nothing in the block, but that one refused because BUSY = 1 sets SEQ; it is answered
once. -/
def Obligations.HostReadsChangeNothing : Prop :=
  ∀ (s : State) (rest : List PortEvent) (a : Half) (sz : AccessSize), s.port = .read a sz :: rest →
    ∃ (t : State) (r : Reply), step s = .next t ∧ t.replies = s.replies ++ [r] ∧ t.port = rest ∧
      { t with port := s.port, replies := s.replies, seq := s.seq, draws := s.draws } = s ∧
      (t.seq = s.seq ∨ (s.busy = true ∧ t.seq = true))

/-- R61, R64: a byte the host writes into a buffer window reads back, and no other byte of memory and nothing else in the
block changes. -/
def Obligations.BufferWritesReadBack : Prop :=
  ∀ (s : State) (rest : List PortEvent) (a : Half) (d : Word), s.busy = false → s.rst = false →
    inWindow s.params a.toNat = true → s.port = .write a .one d :: .read a .one :: rest →
    ∃ t, Host.Core.run Sys2Proof.core 2 s = .next t ∧
      t.replies = s.replies ++ [⟨true, 0⟩, ⟨true, (d.extractLsb' 0 8).setWidth 32⟩] ∧
      t.mem.read a.toNat = some (d.extractLsb' 0 8) ∧
      (∀ b : Nat, b ≠ a.toNat → t.mem.read b = s.mem.read b) ∧
      { t with mem := s.mem, replies := s.replies, port := s.port } = s

/-! ## The whole machine -/

/-- R34, R39, and the state lists of the commands: no command but SRST changes ACTIVE, a descriptor or a budget, the
host's own state or a parameter; none but a capture and SRST changes RPOS, RSUM, ACKC or a buffer; none but a retried one
changes RREM, none but WAITLVL TREM; CMP and WAITLVL leave the whole datapath alone, and the seven commands that complete
at once leave every register but CSUM, RESULT, ALLF and the error record; none but SRST and CLRERR clears SEQ. -/
def Obligations.CommandsKeepWhatIsNotTheirs : Prop :=
  ∀ (i : Instr) (s t : State), exec i s = .next t → i ≠ .srst →
    t.active = s.active ∧ t.txctl = s.txctl ∧ t.txlen = s.txlen ∧ t.rxctl = s.rxctl ∧ t.rxlen = s.rxlen ∧
    t.budget = s.budget ∧ t.timeout = s.timeout ∧ t.params = s.params ∧ t.port = s.port ∧ t.replies = s.replies ∧
    t.rst = s.rst ∧
    (i ≠ .rxcap → i ≠ .xcap → t.rpos = s.rpos ∧ t.rsum = s.rsum ∧ t.ackc = s.ackc ∧ t.mem = s.mem) ∧
    (retried i = false → t.rrem = s.rrem) ∧
    ((∀ r l, i ≠ .waitlvl r l) → t.trem = s.trem ∧ t.levels = s.levels) ∧
    ((match i with
        | .cmp _ _ _ _ | .waitlvl _ _ => True
        | _ => isTransport i = false) →
      t.pos = s.pos ∧ t.lenr = s.lenr ∧ t.fmask = s.fmask ∧ t.first = s.first ∧ t.firstv = s.firstv ∧
        (i = .csclr ∨ (∃ a, i = .csadd a) ∨ t.csum = s.csum)) ∧
    (isTransport i = false →
      t.opr = s.opr ∧ t.trace = s.trace ∧ t.samples = s.samples ∧ t.draws = s.draws) ∧
    (i ≠ .clrerr → s.seq = true → t.seq = true)

/-- R68, the frame of memory: RXCAP and XCAP store to RXBUF from the running position on, RXLEN bytes, and leave every
other byte of memory as it was. -/
def Obligations.CapturesStoreOnlyTheirPayload : Prop :=
  ∀ (i : Instr) (s t : State), i = .rxcap ∨ i = .xcap → s.params.wf → exec i s = .next t →
    ∀ a : Nat, ¬ (Buf.rx.addr s.captureBase ≤ a ∧ a < Buf.rx.addr s.captureBase + s.rxlen.toNat) →
      t.mem.read a = s.mem.read a

/-- R341, and R69 where a byte is missing: every command ends. It ends in a next state after a bounded number of
transport events, none if it is refused or illegal, exactly its frame's for TXFRAME, the trace only grown; or, accepted,
it stops with the fault of the model (log entry 6) at a buffer byte that nothing has written. -/
def Obligations.CommandEventsAreBounded : Prop :=
  ∀ (i : Instr) (s : State),
    (∃ (t : State) (events : List Event), exec i s = .next t ∧ t.trace = s.trace ++ events ∧
      events.length ≤ s.eventBound i ∧
      (¬ s.ready ∨ s.legal i = false → events = []) ∧
      (i = .txframe → s.ready → s.legal i = true → events.length = s.eventBound i)) ∨
    (s.ready ∧ s.legal i = true ∧ ∃ b off, exec i s = .fault (.unwrittenByte b off) ∧
      s.mem.read (Buf.addr b off) = none)

/-- R8, R151, R198 (f): what a channel outside ACTIVE sends is never read. Of two states that differ only in the answers
of inactive channels, every command makes the same events, one by one: the same sends, samples of the same bit count with
the same values on the active channels, levels equal under ACTIVE; it takes equally many answers from each list, and all
else it leaves is the same. Where it stops in the one, it stops with the same fault in the other. -/
def Obligations.InactiveChannelsAreNeverRead : Prop :=
  ∀ (i : Instr) (s : State) (os : List Lanes) (lvs : List Mask),
    List.Forall₂ (Lanes.agree s.active) s.samples os →
    List.Forall₂ (fun lv lv' => s.active &&& lv = s.active &&& lv') s.levels lvs →
    (∀ t, exec i s = .next t →
      ∃ (t' : State) (es es' : List Event) (k m : Nat), exec i { s with samples := os, levels := lvs } = .next t' ∧
        t.trace = s.trace ++ es ∧ t'.trace = s.trace ++ es' ∧ List.Forall₂ (Event.agree s.active) es es' ∧
        t.samples = s.samples.drop k ∧ t'.samples = os.drop k ∧
        t.levels = s.levels.drop m ∧ t'.levels = lvs.drop m ∧
        { t' with samples := t.samples, levels := t.levels, trace := t.trace } = t) ∧
    (∀ f, exec i s = .fault f → exec i { s with samples := os, levels := lvs } = .fault f)

/-- R69, R197: RXCMP and XCMP, too, stop with the fault of the model where they need a byte that nothing has written, and
no command stops for any other reason: a command that is not refused and reads only written bytes goes on to a next
state. -/
def Obligations.CommandsStopOnlyAtUnwrittenBytes : Prop :=
  ∀ (i : Instr) (s : State),
    (∃ t, exec i s = .next t) ∨
    (∃ b off, exec i s = .fault (.unwrittenByte b off) ∧ s.mem.read (Buf.addr b off) = none ∧
      (match i with
        | .txframe | .xcap => b = .tx ∧ off < s.txlen.toNat
        | .rxcmp _ => (b = .rx ∨ b = .ign) ∧ off < s.rxlen.toNat
        | .xcmp _ => (b = .tx ∧ off < s.txlen.toNat) ∨ ((b = .rx ∨ b = .ign) ∧ off < s.rxlen.toNat)
        | _ => False))

/-- R94: the Len field is the payload length plus 1 if the frame carries an ack byte, never wrapped: a frame command that
would need a longer one than 16 bits hold ends as IllegalCommand, whatever PAGE_MAX is; one that its tests let pass
leaves the field in LENR, and one that transmits sends it high byte first, after the start marker. -/
def Obligations.LenFieldNeverWraps : Prop :=
  ∀ (i : Instr) (s : State), s.ready →
    (let txLen := s.txlen.toNat + s.txctl.ackEn.toNat
     let rxLen := s.rxlen.toNat + s.rxctl.ackEn.toNat
     let sends := i = .txframe ∨ i = .xcap ∨ ∃ r, i = .xcmp r
     let receives := i = .rxcap ∨ i = .xcap ∨ (∃ r, i = .rxcmp r) ∨ ∃ r, i = .xcmp r
     (s.fsm = .idle → (sends ∧ 0xFFFF < txLen) ∨ (receives ∧ 0xFFFF < rxLen) →
       exec i s = .next { s with err := 7, errPos := 0, errMask := 0, errByte := wordOp (encode i) }) ∧
     (∀ t, s.legal i = true → exec i s = .next t →
       (i = .txframe → t.lenr.toNat = txLen) ∧
       (receives → t.lenr.toNat = rxLen) ∧
       (sends → ∃ rest, t.trace = s.trace ++
         [.send s.active (if s.txctl.kind then 0x81 else 0x01), .send s.active (BitVec.ofNat 8 (txLen / 256)),
           .send s.active (BitVec.ofNat 8 (txLen % 256))] ++ rest)))
end

