-- ==== Sys2Proof/Laws/Memory.lean ====
section
/-! SUPPORT. The laws of the sparse memory: a read after a write, and the canonical form. -/

namespace Sys2Proof.Machine

theorem Memory.read_write_same (m : Memory) (a : Nat) (v : Byte) : (m.write a v).read a = some v := by
  induction m with
  | nil => simp [Memory.write, Memory.read]
  | cons c rest ih =>
    obtain ⟨b, u⟩ := c
    simp only [Memory.write]
    split
    · simp [Memory.read]
    · split
      · simp [Memory.read]
      · simp [Memory.read, *]

theorem Memory.read_write_other (m : Memory) (a b : Nat) (v : Byte) (h : b ≠ a) :
    (m.write a v).read b = m.read b := by
  induction m with
  | nil => simp [Memory.write, Memory.read, h]
  | cons c rest ih =>
    obtain ⟨d, u⟩ := c
    simp only [Memory.write]
    split
    · simp [Memory.read, h]
    · split
      · rename_i h2; subst h2; simp [Memory.read, h]
      · simp [Memory.read, ih]

theorem Memory.risingFrom_write (m : Memory) (lo a : Nat) (v : Byte) (hm : Memory.risingFrom lo m = true)
    (ha : lo < a) : Memory.risingFrom lo (m.write a v) = true := by
  induction m generalizing lo with
  | nil => simp [Memory.write, Memory.risingFrom, ha]
  | cons c rest ih =>
    obtain ⟨b, u⟩ := c
    simp only [Memory.risingFrom, Bool.and_eq_true, decide_eq_true_eq] at hm
    simp only [Memory.write]
    split
    · simp [Memory.risingFrom, hm.2, *]
    · split
      · rename_i h2; subst h2; simp [Memory.risingFrom, hm.2, *]
      · rename_i h1 h2
        simp [Memory.risingFrom, hm.1, ih b hm.2 (by omega)]

/-- Every write keeps the canonical form. -/
theorem Memory.wf_write (m : Memory) (a : Nat) (v : Byte) (hm : m.wf = true) : (m.write a v).wf = true := by
  cases m with
  | nil => rfl
  | cons c rest =>
    obtain ⟨b, u⟩ := c
    simp only [Memory.wf] at hm
    simp only [Memory.write]
    split
    · simp [Memory.wf, Memory.risingFrom, *]
    · split
      · rename_i h2; subst h2; simpa [Memory.wf] using hm
      · simp only [Memory.wf]
        exact Memory.risingFrom_write rest b a v hm (by omega)

theorem State.reset_mem_wf : State.reset.mem.wf = true := rfl

theorem storeBytes_wf (vs : List Byte) (a : Nat) (m : Memory) (hm : m.wf = true) : (storeBytes a vs m).wf = true := by
  induction vs generalizing a m with
  | nil => exact hm
  | cons v rest ih => exact ih (a + 1) (m.write a v) (Memory.wf_write m a v hm)

/-- A stored run leaves every other address alone. -/
theorem storeBytes_read_other (vs : List Byte) (a b : Nat) (m : Memory) (h : b < a ∨ a + vs.length ≤ b) :
    (storeBytes a vs m).read b = m.read b := by
  induction vs generalizing a m with
  | nil => rfl
  | cons v rest ih =>
    simp only [List.length_cons] at h
    rw [storeBytes, ih (a + 1) _ (by omega), Memory.read_write_other m a b v (by omega)]

/-- A stored run reads back. -/
theorem storeBytes_read (vs : List Byte) (a i : Nat) (m : Memory) (h : i < vs.length) :
    (storeBytes a vs m).read (a + i) = some vs[i] := by
  induction vs generalizing a m i with
  | nil => simp at h
  | cons v rest ih =>
    cases i with
    | zero => rw [storeBytes, storeBytes_read_other rest (a + 1) (a + 0) _ (by omega)]; exact Memory.read_write_same m a v
    | succ j =>
      have := ih (a + 1) j (m.write a v) (by simpa using h)
      rw [storeBytes, show a + (j + 1) = a + 1 + j by omega, this]; rfl

theorem storeBytes_append (us vs : List Byte) (a : Nat) (m : Memory) :
    storeBytes a (us ++ vs) m = storeBytes (a + us.length) vs (storeBytes a us m) := by
  induction us generalizing a m with
  | nil => rfl
  | cons u rest ih =>
    simp only [List.cons_append, storeBytes, ih, List.length_cons]
    congr 1; omega

/-! ### The addresses listed -/

/-- The addresses a memory lists after a write are the old ones and the written one. -/
theorem Memory.mem_write (m : Memory) (a : Nat) (v : Byte) (c : Host.Cell) (h : c ∈ m.write a v) :
    c = (a, v) ∨ c ∈ m := by
  induction m with
  | nil => simpa [Memory.write] using h
  | cons d rest ih =>
    obtain ⟨b, u⟩ := d
    simp only [Memory.write] at h
    split at h
    · simpa using h
    · split at h
      · rcases List.mem_cons.mp h with h | h
        · exact .inl h
        · exact .inr (List.mem_cons_of_mem _ h)
      · rcases List.mem_cons.mp h with h | h
        · exact .inr (by simp [h])
        · rcases ih h with h | h
          · exact .inl h
          · exact .inr (List.mem_cons_of_mem _ h)

end Sys2Proof.Machine
end

