-- ==== Sys2Proof/Laws/State.lean ====
section
/-! SUPPORT. One lemma per field per named update of the state, each true by unfolding the update once. -/

namespace Sys2Proof.Machine

variable (s : State)

/-! ### send -/

@[simp] theorem State.send_csum (v : Byte) : (s.send v).csum = s.csum := rfl
@[simp] theorem State.send_rsum (v : Byte) : (s.send v).rsum = s.rsum := rfl
@[simp] theorem State.send_rpos (v : Byte) : (s.send v).rpos = s.rpos := rfl
@[simp] theorem State.send_fmask (v : Byte) : (s.send v).fmask = s.fmask := rfl
@[simp] theorem State.send_pos (v : Byte) : (s.send v).pos = s.pos := rfl
@[simp] theorem State.send_lenr (v : Byte) : (s.send v).lenr = s.lenr := rfl
@[simp] theorem State.send_first (v : Byte) : (s.send v).first = s.first := rfl
@[simp] theorem State.send_firstv (v : Byte) : (s.send v).firstv = s.firstv := rfl
@[simp] theorem State.send_ackc (v : Byte) : (s.send v).ackc = s.ackc := rfl
@[simp] theorem State.send_opr (v : Byte) : (s.send v).opr = s.opr := rfl
@[simp] theorem State.send_fsm (v : Byte) : (s.send v).fsm = s.fsm := rfl
@[simp] theorem State.send_busy (v : Byte) : (s.send v).busy = s.busy := rfl
@[simp] theorem State.send_seq (v : Byte) : (s.send v).seq = s.seq := rfl
@[simp] theorem State.send_allf (v : Byte) : (s.send v).allf = s.allf := rfl
@[simp] theorem State.send_err (v : Byte) : (s.send v).err = s.err := rfl
@[simp] theorem State.send_active (v : Byte) : (s.send v).active = s.active := rfl
@[simp] theorem State.send_txctl (v : Byte) : (s.send v).txctl = s.txctl := rfl
@[simp] theorem State.send_txlen (v : Byte) : (s.send v).txlen = s.txlen := rfl
@[simp] theorem State.send_rxctl (v : Byte) : (s.send v).rxctl = s.rxctl := rfl
@[simp] theorem State.send_rxlen (v : Byte) : (s.send v).rxlen = s.rxlen := rfl
@[simp] theorem State.send_budget (v : Byte) : (s.send v).budget = s.budget := rfl
@[simp] theorem State.send_timeout (v : Byte) : (s.send v).timeout = s.timeout := rfl
@[simp] theorem State.send_resMask (v : Byte) : (s.send v).resMask = s.resMask := rfl
@[simp] theorem State.send_resValue (v : Byte) : (s.send v).resValue = s.resValue := rfl
@[simp] theorem State.send_errPos (v : Byte) : (s.send v).errPos = s.errPos := rfl
@[simp] theorem State.send_errMask (v : Byte) : (s.send v).errMask = s.errMask := rfl
@[simp] theorem State.send_errByte (v : Byte) : (s.send v).errByte = s.errByte := rfl
@[simp] theorem State.send_rrem (v : Byte) : (s.send v).rrem = s.rrem := rfl
@[simp] theorem State.send_trem (v : Byte) : (s.send v).trem = s.trem := rfl
@[simp] theorem State.send_mem (v : Byte) : (s.send v).mem = s.mem := rfl
@[simp] theorem State.send_rst (v : Byte) : (s.send v).rst = s.rst := rfl
@[simp] theorem State.send_params (v : Byte) : (s.send v).params = s.params := rfl
@[simp] theorem State.send_port (v : Byte) : (s.send v).port = s.port := rfl
@[simp] theorem State.send_replies (v : Byte) : (s.send v).replies = s.replies := rfl
@[simp] theorem State.send_trace (v : Byte) : (s.send v).trace = s.trace ++ [.send s.active v] := rfl
@[simp] theorem State.send_samples (v : Byte) : (s.send v).samples = s.samples := rfl
@[simp] theorem State.send_levels (v : Byte) : (s.send v).levels = s.levels := rfl
@[simp] theorem State.send_draws (v : Byte) : (s.send v).draws = s.draws := rfl

/-! ### sendCovered -/

@[simp] theorem State.sendCovered_csum (v : Byte) : (s.sendCovered v).csum = s.csum + v := rfl
@[simp] theorem State.sendCovered_rsum (v : Byte) : (s.sendCovered v).rsum = s.rsum := rfl
@[simp] theorem State.sendCovered_rpos (v : Byte) : (s.sendCovered v).rpos = s.rpos := rfl
@[simp] theorem State.sendCovered_fmask (v : Byte) : (s.sendCovered v).fmask = s.fmask := rfl
@[simp] theorem State.sendCovered_pos (v : Byte) : (s.sendCovered v).pos = s.pos := rfl
@[simp] theorem State.sendCovered_lenr (v : Byte) : (s.sendCovered v).lenr = s.lenr := rfl
@[simp] theorem State.sendCovered_first (v : Byte) : (s.sendCovered v).first = s.first := rfl
@[simp] theorem State.sendCovered_firstv (v : Byte) : (s.sendCovered v).firstv = s.firstv := rfl
@[simp] theorem State.sendCovered_ackc (v : Byte) : (s.sendCovered v).ackc = s.ackc := rfl
@[simp] theorem State.sendCovered_opr (v : Byte) : (s.sendCovered v).opr = s.opr := rfl
@[simp] theorem State.sendCovered_fsm (v : Byte) : (s.sendCovered v).fsm = s.fsm := rfl
@[simp] theorem State.sendCovered_busy (v : Byte) : (s.sendCovered v).busy = s.busy := rfl
@[simp] theorem State.sendCovered_seq (v : Byte) : (s.sendCovered v).seq = s.seq := rfl
@[simp] theorem State.sendCovered_allf (v : Byte) : (s.sendCovered v).allf = s.allf := rfl
@[simp] theorem State.sendCovered_err (v : Byte) : (s.sendCovered v).err = s.err := rfl
@[simp] theorem State.sendCovered_active (v : Byte) : (s.sendCovered v).active = s.active := rfl
@[simp] theorem State.sendCovered_txctl (v : Byte) : (s.sendCovered v).txctl = s.txctl := rfl
@[simp] theorem State.sendCovered_txlen (v : Byte) : (s.sendCovered v).txlen = s.txlen := rfl
@[simp] theorem State.sendCovered_rxctl (v : Byte) : (s.sendCovered v).rxctl = s.rxctl := rfl
@[simp] theorem State.sendCovered_rxlen (v : Byte) : (s.sendCovered v).rxlen = s.rxlen := rfl
@[simp] theorem State.sendCovered_budget (v : Byte) : (s.sendCovered v).budget = s.budget := rfl
@[simp] theorem State.sendCovered_timeout (v : Byte) : (s.sendCovered v).timeout = s.timeout := rfl
@[simp] theorem State.sendCovered_resMask (v : Byte) : (s.sendCovered v).resMask = s.resMask := rfl
@[simp] theorem State.sendCovered_resValue (v : Byte) : (s.sendCovered v).resValue = s.resValue := rfl
@[simp] theorem State.sendCovered_errPos (v : Byte) : (s.sendCovered v).errPos = s.errPos := rfl
@[simp] theorem State.sendCovered_errMask (v : Byte) : (s.sendCovered v).errMask = s.errMask := rfl
@[simp] theorem State.sendCovered_errByte (v : Byte) : (s.sendCovered v).errByte = s.errByte := rfl
@[simp] theorem State.sendCovered_rrem (v : Byte) : (s.sendCovered v).rrem = s.rrem := rfl
@[simp] theorem State.sendCovered_trem (v : Byte) : (s.sendCovered v).trem = s.trem := rfl
@[simp] theorem State.sendCovered_mem (v : Byte) : (s.sendCovered v).mem = s.mem := rfl
@[simp] theorem State.sendCovered_rst (v : Byte) : (s.sendCovered v).rst = s.rst := rfl
@[simp] theorem State.sendCovered_params (v : Byte) : (s.sendCovered v).params = s.params := rfl
@[simp] theorem State.sendCovered_port (v : Byte) : (s.sendCovered v).port = s.port := rfl
@[simp] theorem State.sendCovered_replies (v : Byte) : (s.sendCovered v).replies = s.replies := rfl
@[simp] theorem State.sendCovered_trace (v : Byte) : (s.sendCovered v).trace = s.trace ++ [.send s.active v] := rfl
@[simp] theorem State.sendCovered_samples (v : Byte) : (s.sendCovered v).samples = s.samples := rfl
@[simp] theorem State.sendCovered_levels (v : Byte) : (s.sendCovered v).levels = s.levels := rfl
@[simp] theorem State.sendCovered_draws (v : Byte) : (s.sendCovered v).draws = s.draws := rfl

/-! ### afterSample -/

@[simp] theorem State.afterSample_csum (n : Nat) : (s.afterSample n).csum = s.csum := rfl
@[simp] theorem State.afterSample_rsum (n : Nat) : (s.afterSample n).rsum = s.rsum := rfl
@[simp] theorem State.afterSample_rpos (n : Nat) : (s.afterSample n).rpos = s.rpos := rfl
@[simp] theorem State.afterSample_fmask (n : Nat) : (s.afterSample n).fmask = s.fmask := rfl
@[simp] theorem State.afterSample_pos (n : Nat) : (s.afterSample n).pos = s.pos := rfl
@[simp] theorem State.afterSample_lenr (n : Nat) : (s.afterSample n).lenr = s.lenr := rfl
@[simp] theorem State.afterSample_first (n : Nat) : (s.afterSample n).first = s.first := rfl
@[simp] theorem State.afterSample_firstv (n : Nat) : (s.afterSample n).firstv = s.firstv := rfl
@[simp] theorem State.afterSample_ackc (n : Nat) : (s.afterSample n).ackc = s.ackc := rfl
@[simp] theorem State.afterSample_opr (n : Nat) : (s.afterSample n).opr = s.opr := rfl
@[simp] theorem State.afterSample_fsm (n : Nat) : (s.afterSample n).fsm = s.fsm := rfl
@[simp] theorem State.afterSample_busy (n : Nat) : (s.afterSample n).busy = s.busy := rfl
@[simp] theorem State.afterSample_seq (n : Nat) : (s.afterSample n).seq = s.seq := rfl
@[simp] theorem State.afterSample_allf (n : Nat) : (s.afterSample n).allf = s.allf := rfl
@[simp] theorem State.afterSample_err (n : Nat) : (s.afterSample n).err = s.err := rfl
@[simp] theorem State.afterSample_active (n : Nat) : (s.afterSample n).active = s.active := rfl
@[simp] theorem State.afterSample_txctl (n : Nat) : (s.afterSample n).txctl = s.txctl := rfl
@[simp] theorem State.afterSample_txlen (n : Nat) : (s.afterSample n).txlen = s.txlen := rfl
@[simp] theorem State.afterSample_rxctl (n : Nat) : (s.afterSample n).rxctl = s.rxctl := rfl
@[simp] theorem State.afterSample_rxlen (n : Nat) : (s.afterSample n).rxlen = s.rxlen := rfl
@[simp] theorem State.afterSample_budget (n : Nat) : (s.afterSample n).budget = s.budget := rfl
@[simp] theorem State.afterSample_timeout (n : Nat) : (s.afterSample n).timeout = s.timeout := rfl
@[simp] theorem State.afterSample_resMask (n : Nat) : (s.afterSample n).resMask = s.resMask := rfl
@[simp] theorem State.afterSample_resValue (n : Nat) : (s.afterSample n).resValue = s.resValue := rfl
@[simp] theorem State.afterSample_errPos (n : Nat) : (s.afterSample n).errPos = s.errPos := rfl
@[simp] theorem State.afterSample_errMask (n : Nat) : (s.afterSample n).errMask = s.errMask := rfl
@[simp] theorem State.afterSample_errByte (n : Nat) : (s.afterSample n).errByte = s.errByte := rfl
@[simp] theorem State.afterSample_rrem (n : Nat) : (s.afterSample n).rrem = s.rrem := rfl
@[simp] theorem State.afterSample_trem (n : Nat) : (s.afterSample n).trem = s.trem := rfl
@[simp] theorem State.afterSample_mem (n : Nat) : (s.afterSample n).mem = s.mem := rfl
@[simp] theorem State.afterSample_rst (n : Nat) : (s.afterSample n).rst = s.rst := rfl
@[simp] theorem State.afterSample_params (n : Nat) : (s.afterSample n).params = s.params := rfl
@[simp] theorem State.afterSample_port (n : Nat) : (s.afterSample n).port = s.port := rfl
@[simp] theorem State.afterSample_replies (n : Nat) : (s.afterSample n).replies = s.replies := rfl
@[simp] theorem State.afterSample_trace (n : Nat) : (s.afterSample n).trace = s.trace ++ [.sample n (s.sampleValue n)] := rfl
@[simp] theorem State.afterSample_samples (n : Nat) : (s.afterSample n).samples = s.samples.tail := rfl
@[simp] theorem State.afterSample_levels (n : Nat) : (s.afterSample n).levels = s.levels := rfl
@[simp] theorem State.afterSample_draws (n : Nat) : (s.afterSample n).draws = if s.samples.isEmpty then s.draws + 1 else s.draws := rfl

/-! ### afterLevel -/

@[simp] theorem State.afterLevel_csum : (s.afterLevel).csum = s.csum := rfl
@[simp] theorem State.afterLevel_rsum : (s.afterLevel).rsum = s.rsum := rfl
@[simp] theorem State.afterLevel_rpos : (s.afterLevel).rpos = s.rpos := rfl
@[simp] theorem State.afterLevel_fmask : (s.afterLevel).fmask = s.fmask := rfl
@[simp] theorem State.afterLevel_pos : (s.afterLevel).pos = s.pos := rfl
@[simp] theorem State.afterLevel_lenr : (s.afterLevel).lenr = s.lenr := rfl
@[simp] theorem State.afterLevel_first : (s.afterLevel).first = s.first := rfl
@[simp] theorem State.afterLevel_firstv : (s.afterLevel).firstv = s.firstv := rfl
@[simp] theorem State.afterLevel_ackc : (s.afterLevel).ackc = s.ackc := rfl
@[simp] theorem State.afterLevel_opr : (s.afterLevel).opr = s.opr := rfl
@[simp] theorem State.afterLevel_fsm : (s.afterLevel).fsm = s.fsm := rfl
@[simp] theorem State.afterLevel_busy : (s.afterLevel).busy = s.busy := rfl
@[simp] theorem State.afterLevel_seq : (s.afterLevel).seq = s.seq := rfl
@[simp] theorem State.afterLevel_allf : (s.afterLevel).allf = s.allf := rfl
@[simp] theorem State.afterLevel_err : (s.afterLevel).err = s.err := rfl
@[simp] theorem State.afterLevel_active : (s.afterLevel).active = s.active := rfl
@[simp] theorem State.afterLevel_txctl : (s.afterLevel).txctl = s.txctl := rfl
@[simp] theorem State.afterLevel_txlen : (s.afterLevel).txlen = s.txlen := rfl
@[simp] theorem State.afterLevel_rxctl : (s.afterLevel).rxctl = s.rxctl := rfl
@[simp] theorem State.afterLevel_rxlen : (s.afterLevel).rxlen = s.rxlen := rfl
@[simp] theorem State.afterLevel_budget : (s.afterLevel).budget = s.budget := rfl
@[simp] theorem State.afterLevel_timeout : (s.afterLevel).timeout = s.timeout := rfl
@[simp] theorem State.afterLevel_resMask : (s.afterLevel).resMask = s.resMask := rfl
@[simp] theorem State.afterLevel_resValue : (s.afterLevel).resValue = s.resValue := rfl
@[simp] theorem State.afterLevel_errPos : (s.afterLevel).errPos = s.errPos := rfl
@[simp] theorem State.afterLevel_errMask : (s.afterLevel).errMask = s.errMask := rfl
@[simp] theorem State.afterLevel_errByte : (s.afterLevel).errByte = s.errByte := rfl
@[simp] theorem State.afterLevel_rrem : (s.afterLevel).rrem = s.rrem := rfl
@[simp] theorem State.afterLevel_trem : (s.afterLevel).trem = s.trem := rfl
@[simp] theorem State.afterLevel_mem : (s.afterLevel).mem = s.mem := rfl
@[simp] theorem State.afterLevel_rst : (s.afterLevel).rst = s.rst := rfl
@[simp] theorem State.afterLevel_params : (s.afterLevel).params = s.params := rfl
@[simp] theorem State.afterLevel_port : (s.afterLevel).port = s.port := rfl
@[simp] theorem State.afterLevel_replies : (s.afterLevel).replies = s.replies := rfl
@[simp] theorem State.afterLevel_trace : (s.afterLevel).trace = s.trace ++ [.level s.levelValue] := rfl
@[simp] theorem State.afterLevel_samples : (s.afterLevel).samples = s.samples := rfl
@[simp] theorem State.afterLevel_levels : (s.afterLevel).levels = s.levels.tail := rfl
@[simp] theorem State.afterLevel_draws : (s.afterLevel).draws = if s.levels.isEmpty then s.draws + 1 else s.draws := rfl

/-! ### writeResult -/

@[simp] theorem State.writeResult_csum (m : Mask) (v : Byte) : (s.writeResult m v).csum = s.csum := rfl
@[simp] theorem State.writeResult_rsum (m : Mask) (v : Byte) : (s.writeResult m v).rsum = s.rsum := rfl
@[simp] theorem State.writeResult_rpos (m : Mask) (v : Byte) : (s.writeResult m v).rpos = s.rpos := rfl
@[simp] theorem State.writeResult_fmask (m : Mask) (v : Byte) : (s.writeResult m v).fmask = s.fmask := rfl
@[simp] theorem State.writeResult_pos (m : Mask) (v : Byte) : (s.writeResult m v).pos = s.pos := rfl
@[simp] theorem State.writeResult_lenr (m : Mask) (v : Byte) : (s.writeResult m v).lenr = s.lenr := rfl
@[simp] theorem State.writeResult_first (m : Mask) (v : Byte) : (s.writeResult m v).first = s.first := rfl
@[simp] theorem State.writeResult_firstv (m : Mask) (v : Byte) : (s.writeResult m v).firstv = s.firstv := rfl
@[simp] theorem State.writeResult_ackc (m : Mask) (v : Byte) : (s.writeResult m v).ackc = s.ackc := rfl
@[simp] theorem State.writeResult_opr (m : Mask) (v : Byte) : (s.writeResult m v).opr = s.opr := rfl
@[simp] theorem State.writeResult_fsm (m : Mask) (v : Byte) : (s.writeResult m v).fsm = s.fsm := rfl
@[simp] theorem State.writeResult_busy (m : Mask) (v : Byte) : (s.writeResult m v).busy = s.busy := rfl
@[simp] theorem State.writeResult_seq (m : Mask) (v : Byte) : (s.writeResult m v).seq = s.seq := rfl
@[simp] theorem State.writeResult_allf (m : Mask) (v : Byte) : (s.writeResult m v).allf = allFailed m s.active := rfl
@[simp] theorem State.writeResult_err (m : Mask) (v : Byte) : (s.writeResult m v).err = s.err := rfl
@[simp] theorem State.writeResult_active (m : Mask) (v : Byte) : (s.writeResult m v).active = s.active := rfl
@[simp] theorem State.writeResult_txctl (m : Mask) (v : Byte) : (s.writeResult m v).txctl = s.txctl := rfl
@[simp] theorem State.writeResult_txlen (m : Mask) (v : Byte) : (s.writeResult m v).txlen = s.txlen := rfl
@[simp] theorem State.writeResult_rxctl (m : Mask) (v : Byte) : (s.writeResult m v).rxctl = s.rxctl := rfl
@[simp] theorem State.writeResult_rxlen (m : Mask) (v : Byte) : (s.writeResult m v).rxlen = s.rxlen := rfl
@[simp] theorem State.writeResult_budget (m : Mask) (v : Byte) : (s.writeResult m v).budget = s.budget := rfl
@[simp] theorem State.writeResult_timeout (m : Mask) (v : Byte) : (s.writeResult m v).timeout = s.timeout := rfl
@[simp] theorem State.writeResult_resMask (m : Mask) (v : Byte) : (s.writeResult m v).resMask = m := rfl
@[simp] theorem State.writeResult_resValue (m : Mask) (v : Byte) : (s.writeResult m v).resValue = v := rfl
@[simp] theorem State.writeResult_errPos (m : Mask) (v : Byte) : (s.writeResult m v).errPos = s.errPos := rfl
@[simp] theorem State.writeResult_errMask (m : Mask) (v : Byte) : (s.writeResult m v).errMask = s.errMask := rfl
@[simp] theorem State.writeResult_errByte (m : Mask) (v : Byte) : (s.writeResult m v).errByte = s.errByte := rfl
@[simp] theorem State.writeResult_rrem (m : Mask) (v : Byte) : (s.writeResult m v).rrem = s.rrem := rfl
@[simp] theorem State.writeResult_trem (m : Mask) (v : Byte) : (s.writeResult m v).trem = s.trem := rfl
@[simp] theorem State.writeResult_mem (m : Mask) (v : Byte) : (s.writeResult m v).mem = s.mem := rfl
@[simp] theorem State.writeResult_rst (m : Mask) (v : Byte) : (s.writeResult m v).rst = s.rst := rfl
@[simp] theorem State.writeResult_params (m : Mask) (v : Byte) : (s.writeResult m v).params = s.params := rfl
@[simp] theorem State.writeResult_port (m : Mask) (v : Byte) : (s.writeResult m v).port = s.port := rfl
@[simp] theorem State.writeResult_replies (m : Mask) (v : Byte) : (s.writeResult m v).replies = s.replies := rfl
@[simp] theorem State.writeResult_trace (m : Mask) (v : Byte) : (s.writeResult m v).trace = s.trace := rfl
@[simp] theorem State.writeResult_samples (m : Mask) (v : Byte) : (s.writeResult m v).samples = s.samples := rfl
@[simp] theorem State.writeResult_levels (m : Mask) (v : Byte) : (s.writeResult m v).levels = s.levels := rfl
@[simp] theorem State.writeResult_draws (m : Mask) (v : Byte) : (s.writeResult m v).draws = s.draws := rfl

/-! ### raiseError -/

@[simp] theorem State.raiseError_csum (k : ErrKind) (p : Half) (m : Mask) (b : Byte) : (s.raiseError k p m b).csum = s.csum := rfl
@[simp] theorem State.raiseError_rsum (k : ErrKind) (p : Half) (m : Mask) (b : Byte) : (s.raiseError k p m b).rsum = s.rsum := rfl
@[simp] theorem State.raiseError_rpos (k : ErrKind) (p : Half) (m : Mask) (b : Byte) : (s.raiseError k p m b).rpos = s.rpos := rfl
@[simp] theorem State.raiseError_fmask (k : ErrKind) (p : Half) (m : Mask) (b : Byte) : (s.raiseError k p m b).fmask = s.fmask := rfl
@[simp] theorem State.raiseError_pos (k : ErrKind) (p : Half) (m : Mask) (b : Byte) : (s.raiseError k p m b).pos = s.pos := rfl
@[simp] theorem State.raiseError_lenr (k : ErrKind) (p : Half) (m : Mask) (b : Byte) : (s.raiseError k p m b).lenr = s.lenr := rfl
@[simp] theorem State.raiseError_first (k : ErrKind) (p : Half) (m : Mask) (b : Byte) : (s.raiseError k p m b).first = s.first := rfl
@[simp] theorem State.raiseError_firstv (k : ErrKind) (p : Half) (m : Mask) (b : Byte) : (s.raiseError k p m b).firstv = s.firstv := rfl
@[simp] theorem State.raiseError_ackc (k : ErrKind) (p : Half) (m : Mask) (b : Byte) : (s.raiseError k p m b).ackc = s.ackc := rfl
@[simp] theorem State.raiseError_opr (k : ErrKind) (p : Half) (m : Mask) (b : Byte) : (s.raiseError k p m b).opr = s.opr := rfl
@[simp] theorem State.raiseError_fsm (k : ErrKind) (p : Half) (m : Mask) (b : Byte) : (s.raiseError k p m b).fsm = .idle := rfl
@[simp] theorem State.raiseError_busy (k : ErrKind) (p : Half) (m : Mask) (b : Byte) : (s.raiseError k p m b).busy = false := rfl
@[simp] theorem State.raiseError_seq (k : ErrKind) (p : Half) (m : Mask) (b : Byte) : (s.raiseError k p m b).seq = s.seq := rfl
@[simp] theorem State.raiseError_allf (k : ErrKind) (p : Half) (m : Mask) (b : Byte) : (s.raiseError k p m b).allf = s.allf := rfl
@[simp] theorem State.raiseError_err (k : ErrKind) (p : Half) (m : Mask) (b : Byte) : (s.raiseError k p m b).err = if s.err = 0 then k.code else s.err := rfl
@[simp] theorem State.raiseError_active (k : ErrKind) (p : Half) (m : Mask) (b : Byte) : (s.raiseError k p m b).active = s.active := rfl
@[simp] theorem State.raiseError_txctl (k : ErrKind) (p : Half) (m : Mask) (b : Byte) : (s.raiseError k p m b).txctl = s.txctl := rfl
@[simp] theorem State.raiseError_txlen (k : ErrKind) (p : Half) (m : Mask) (b : Byte) : (s.raiseError k p m b).txlen = s.txlen := rfl
@[simp] theorem State.raiseError_rxctl (k : ErrKind) (p : Half) (m : Mask) (b : Byte) : (s.raiseError k p m b).rxctl = s.rxctl := rfl
@[simp] theorem State.raiseError_rxlen (k : ErrKind) (p : Half) (m : Mask) (b : Byte) : (s.raiseError k p m b).rxlen = s.rxlen := rfl
@[simp] theorem State.raiseError_budget (k : ErrKind) (p : Half) (m : Mask) (b : Byte) : (s.raiseError k p m b).budget = s.budget := rfl
@[simp] theorem State.raiseError_timeout (k : ErrKind) (p : Half) (m : Mask) (b : Byte) : (s.raiseError k p m b).timeout = s.timeout := rfl
@[simp] theorem State.raiseError_resMask (k : ErrKind) (p : Half) (m : Mask) (b : Byte) : (s.raiseError k p m b).resMask = s.resMask := rfl
@[simp] theorem State.raiseError_resValue (k : ErrKind) (p : Half) (m : Mask) (b : Byte) : (s.raiseError k p m b).resValue = s.resValue := rfl
@[simp] theorem State.raiseError_errPos (k : ErrKind) (p : Half) (m : Mask) (b : Byte) : (s.raiseError k p m b).errPos = if s.err = 0 then p else s.errPos := rfl
@[simp] theorem State.raiseError_errMask (k : ErrKind) (p : Half) (m : Mask) (b : Byte) : (s.raiseError k p m b).errMask = if s.err = 0 then m else s.errMask := rfl
@[simp] theorem State.raiseError_errByte (k : ErrKind) (p : Half) (m : Mask) (b : Byte) : (s.raiseError k p m b).errByte = if s.err = 0 then b else s.errByte := rfl
@[simp] theorem State.raiseError_rrem (k : ErrKind) (p : Half) (m : Mask) (b : Byte) : (s.raiseError k p m b).rrem = s.rrem := rfl
@[simp] theorem State.raiseError_trem (k : ErrKind) (p : Half) (m : Mask) (b : Byte) : (s.raiseError k p m b).trem = s.trem := rfl
@[simp] theorem State.raiseError_mem (k : ErrKind) (p : Half) (m : Mask) (b : Byte) : (s.raiseError k p m b).mem = s.mem := rfl
@[simp] theorem State.raiseError_rst (k : ErrKind) (p : Half) (m : Mask) (b : Byte) : (s.raiseError k p m b).rst = s.rst := rfl
@[simp] theorem State.raiseError_params (k : ErrKind) (p : Half) (m : Mask) (b : Byte) : (s.raiseError k p m b).params = s.params := rfl
@[simp] theorem State.raiseError_port (k : ErrKind) (p : Half) (m : Mask) (b : Byte) : (s.raiseError k p m b).port = s.port := rfl
@[simp] theorem State.raiseError_replies (k : ErrKind) (p : Half) (m : Mask) (b : Byte) : (s.raiseError k p m b).replies = s.replies := rfl
@[simp] theorem State.raiseError_trace (k : ErrKind) (p : Half) (m : Mask) (b : Byte) : (s.raiseError k p m b).trace = s.trace := rfl
@[simp] theorem State.raiseError_samples (k : ErrKind) (p : Half) (m : Mask) (b : Byte) : (s.raiseError k p m b).samples = s.samples := rfl
@[simp] theorem State.raiseError_levels (k : ErrKind) (p : Half) (m : Mask) (b : Byte) : (s.raiseError k p m b).levels = s.levels := rfl
@[simp] theorem State.raiseError_draws (k : ErrKind) (p : Half) (m : Mask) (b : Byte) : (s.raiseError k p m b).draws = s.draws := rfl

/-! ### clearError -/

@[simp] theorem State.clearError_csum : (s.clearError).csum = s.csum := rfl
@[simp] theorem State.clearError_rsum : (s.clearError).rsum = s.rsum := rfl
@[simp] theorem State.clearError_rpos : (s.clearError).rpos = s.rpos := rfl
@[simp] theorem State.clearError_fmask : (s.clearError).fmask = s.fmask := rfl
@[simp] theorem State.clearError_pos : (s.clearError).pos = s.pos := rfl
@[simp] theorem State.clearError_lenr : (s.clearError).lenr = s.lenr := rfl
@[simp] theorem State.clearError_first : (s.clearError).first = s.first := rfl
@[simp] theorem State.clearError_firstv : (s.clearError).firstv = s.firstv := rfl
@[simp] theorem State.clearError_ackc : (s.clearError).ackc = s.ackc := rfl
@[simp] theorem State.clearError_opr : (s.clearError).opr = s.opr := rfl
@[simp] theorem State.clearError_fsm : (s.clearError).fsm = s.fsm := rfl
@[simp] theorem State.clearError_busy : (s.clearError).busy = s.busy := rfl
@[simp] theorem State.clearError_seq : (s.clearError).seq = false := rfl
@[simp] theorem State.clearError_allf : (s.clearError).allf = s.allf := rfl
@[simp] theorem State.clearError_err : (s.clearError).err = 0 := rfl
@[simp] theorem State.clearError_active : (s.clearError).active = s.active := rfl
@[simp] theorem State.clearError_txctl : (s.clearError).txctl = s.txctl := rfl
@[simp] theorem State.clearError_txlen : (s.clearError).txlen = s.txlen := rfl
@[simp] theorem State.clearError_rxctl : (s.clearError).rxctl = s.rxctl := rfl
@[simp] theorem State.clearError_rxlen : (s.clearError).rxlen = s.rxlen := rfl
@[simp] theorem State.clearError_budget : (s.clearError).budget = s.budget := rfl
@[simp] theorem State.clearError_timeout : (s.clearError).timeout = s.timeout := rfl
@[simp] theorem State.clearError_resMask : (s.clearError).resMask = s.resMask := rfl
@[simp] theorem State.clearError_resValue : (s.clearError).resValue = s.resValue := rfl
@[simp] theorem State.clearError_errPos : (s.clearError).errPos = 0 := rfl
@[simp] theorem State.clearError_errMask : (s.clearError).errMask = 0 := rfl
@[simp] theorem State.clearError_errByte : (s.clearError).errByte = 0 := rfl
@[simp] theorem State.clearError_rrem : (s.clearError).rrem = s.rrem := rfl
@[simp] theorem State.clearError_trem : (s.clearError).trem = s.trem := rfl
@[simp] theorem State.clearError_mem : (s.clearError).mem = s.mem := rfl
@[simp] theorem State.clearError_rst : (s.clearError).rst = s.rst := rfl
@[simp] theorem State.clearError_params : (s.clearError).params = s.params := rfl
@[simp] theorem State.clearError_port : (s.clearError).port = s.port := rfl
@[simp] theorem State.clearError_replies : (s.clearError).replies = s.replies := rfl
@[simp] theorem State.clearError_trace : (s.clearError).trace = s.trace := rfl
@[simp] theorem State.clearError_samples : (s.clearError).samples = s.samples := rfl
@[simp] theorem State.clearError_levels : (s.clearError).levels = s.levels := rfl
@[simp] theorem State.clearError_draws : (s.clearError).draws = s.draws := rfl

/-! ### refuse -/

@[simp] theorem State.refuse_csum : (s.refuse).csum = s.csum := rfl
@[simp] theorem State.refuse_rsum : (s.refuse).rsum = s.rsum := rfl
@[simp] theorem State.refuse_rpos : (s.refuse).rpos = s.rpos := rfl
@[simp] theorem State.refuse_fmask : (s.refuse).fmask = s.fmask := rfl
@[simp] theorem State.refuse_pos : (s.refuse).pos = s.pos := rfl
@[simp] theorem State.refuse_lenr : (s.refuse).lenr = s.lenr := rfl
@[simp] theorem State.refuse_first : (s.refuse).first = s.first := rfl
@[simp] theorem State.refuse_firstv : (s.refuse).firstv = s.firstv := rfl
@[simp] theorem State.refuse_ackc : (s.refuse).ackc = s.ackc := rfl
@[simp] theorem State.refuse_opr : (s.refuse).opr = s.opr := rfl
@[simp] theorem State.refuse_fsm : (s.refuse).fsm = s.fsm := rfl
@[simp] theorem State.refuse_busy : (s.refuse).busy = s.busy := rfl
@[simp] theorem State.refuse_seq : (s.refuse).seq = true := rfl
@[simp] theorem State.refuse_allf : (s.refuse).allf = s.allf := rfl
@[simp] theorem State.refuse_err : (s.refuse).err = s.err := rfl
@[simp] theorem State.refuse_active : (s.refuse).active = s.active := rfl
@[simp] theorem State.refuse_txctl : (s.refuse).txctl = s.txctl := rfl
@[simp] theorem State.refuse_txlen : (s.refuse).txlen = s.txlen := rfl
@[simp] theorem State.refuse_rxctl : (s.refuse).rxctl = s.rxctl := rfl
@[simp] theorem State.refuse_rxlen : (s.refuse).rxlen = s.rxlen := rfl
@[simp] theorem State.refuse_budget : (s.refuse).budget = s.budget := rfl
@[simp] theorem State.refuse_timeout : (s.refuse).timeout = s.timeout := rfl
@[simp] theorem State.refuse_resMask : (s.refuse).resMask = s.resMask := rfl
@[simp] theorem State.refuse_resValue : (s.refuse).resValue = s.resValue := rfl
@[simp] theorem State.refuse_errPos : (s.refuse).errPos = s.errPos := rfl
@[simp] theorem State.refuse_errMask : (s.refuse).errMask = s.errMask := rfl
@[simp] theorem State.refuse_errByte : (s.refuse).errByte = s.errByte := rfl
@[simp] theorem State.refuse_rrem : (s.refuse).rrem = s.rrem := rfl
@[simp] theorem State.refuse_trem : (s.refuse).trem = s.trem := rfl
@[simp] theorem State.refuse_mem : (s.refuse).mem = s.mem := rfl
@[simp] theorem State.refuse_rst : (s.refuse).rst = s.rst := rfl
@[simp] theorem State.refuse_params : (s.refuse).params = s.params := rfl
@[simp] theorem State.refuse_port : (s.refuse).port = s.port := rfl
@[simp] theorem State.refuse_replies : (s.refuse).replies = s.replies := rfl
@[simp] theorem State.refuse_trace : (s.refuse).trace = s.trace := rfl
@[simp] theorem State.refuse_samples : (s.refuse).samples = s.samples := rfl
@[simp] theorem State.refuse_levels : (s.refuse).levels = s.levels := rfl
@[simp] theorem State.refuse_draws : (s.refuse).draws = s.draws := rfl

/-! ### resetRegisters -/

@[simp] theorem State.resetRegisters_csum : (s.resetRegisters).csum = State.reset.csum := rfl
@[simp] theorem State.resetRegisters_rsum : (s.resetRegisters).rsum = State.reset.rsum := rfl
@[simp] theorem State.resetRegisters_rpos : (s.resetRegisters).rpos = State.reset.rpos := rfl
@[simp] theorem State.resetRegisters_fmask : (s.resetRegisters).fmask = State.reset.fmask := rfl
@[simp] theorem State.resetRegisters_pos : (s.resetRegisters).pos = State.reset.pos := rfl
@[simp] theorem State.resetRegisters_lenr : (s.resetRegisters).lenr = State.reset.lenr := rfl
@[simp] theorem State.resetRegisters_first : (s.resetRegisters).first = State.reset.first := rfl
@[simp] theorem State.resetRegisters_firstv : (s.resetRegisters).firstv = State.reset.firstv := rfl
@[simp] theorem State.resetRegisters_ackc : (s.resetRegisters).ackc = State.reset.ackc := rfl
@[simp] theorem State.resetRegisters_opr : (s.resetRegisters).opr = State.reset.opr := rfl
@[simp] theorem State.resetRegisters_fsm : (s.resetRegisters).fsm = State.reset.fsm := rfl
@[simp] theorem State.resetRegisters_busy : (s.resetRegisters).busy = State.reset.busy := rfl
@[simp] theorem State.resetRegisters_seq : (s.resetRegisters).seq = State.reset.seq := rfl
@[simp] theorem State.resetRegisters_allf : (s.resetRegisters).allf = State.reset.allf := rfl
@[simp] theorem State.resetRegisters_err : (s.resetRegisters).err = State.reset.err := rfl
@[simp] theorem State.resetRegisters_active : (s.resetRegisters).active = State.reset.active := rfl
@[simp] theorem State.resetRegisters_txctl : (s.resetRegisters).txctl = State.reset.txctl := rfl
@[simp] theorem State.resetRegisters_txlen : (s.resetRegisters).txlen = State.reset.txlen := rfl
@[simp] theorem State.resetRegisters_rxctl : (s.resetRegisters).rxctl = State.reset.rxctl := rfl
@[simp] theorem State.resetRegisters_rxlen : (s.resetRegisters).rxlen = State.reset.rxlen := rfl
@[simp] theorem State.resetRegisters_budget : (s.resetRegisters).budget = State.reset.budget := rfl
@[simp] theorem State.resetRegisters_timeout : (s.resetRegisters).timeout = State.reset.timeout := rfl
@[simp] theorem State.resetRegisters_resMask : (s.resetRegisters).resMask = State.reset.resMask := rfl
@[simp] theorem State.resetRegisters_resValue : (s.resetRegisters).resValue = State.reset.resValue := rfl
@[simp] theorem State.resetRegisters_errPos : (s.resetRegisters).errPos = State.reset.errPos := rfl
@[simp] theorem State.resetRegisters_errMask : (s.resetRegisters).errMask = State.reset.errMask := rfl
@[simp] theorem State.resetRegisters_errByte : (s.resetRegisters).errByte = State.reset.errByte := rfl
@[simp] theorem State.resetRegisters_rrem : (s.resetRegisters).rrem = State.reset.rrem := rfl
@[simp] theorem State.resetRegisters_trem : (s.resetRegisters).trem = State.reset.trem := rfl
@[simp] theorem State.resetRegisters_mem : (s.resetRegisters).mem = s.mem := rfl
@[simp] theorem State.resetRegisters_rst : (s.resetRegisters).rst = s.rst := rfl
@[simp] theorem State.resetRegisters_params : (s.resetRegisters).params = s.params := rfl
@[simp] theorem State.resetRegisters_port : (s.resetRegisters).port = s.port := rfl
@[simp] theorem State.resetRegisters_replies : (s.resetRegisters).replies = s.replies := rfl
@[simp] theorem State.resetRegisters_trace : (s.resetRegisters).trace = s.trace := rfl
@[simp] theorem State.resetRegisters_samples : (s.resetRegisters).samples = s.samples := rfl
@[simp] theorem State.resetRegisters_levels : (s.resetRegisters).levels = s.levels := rfl
@[simp] theorem State.resetRegisters_draws : (s.resetRegisters).draws = s.draws := rfl

/-! ### beginCommand -/

@[simp] theorem State.beginCommand_csum (w : Word) : (s.beginCommand w).csum = s.csum := rfl
@[simp] theorem State.beginCommand_rsum (w : Word) : (s.beginCommand w).rsum = s.rsum := rfl
@[simp] theorem State.beginCommand_rpos (w : Word) : (s.beginCommand w).rpos = s.rpos := rfl
@[simp] theorem State.beginCommand_fmask (w : Word) : (s.beginCommand w).fmask = s.fmask := rfl
@[simp] theorem State.beginCommand_pos (w : Word) : (s.beginCommand w).pos = s.pos := rfl
@[simp] theorem State.beginCommand_lenr (w : Word) : (s.beginCommand w).lenr = s.lenr := rfl
@[simp] theorem State.beginCommand_first (w : Word) : (s.beginCommand w).first = s.first := rfl
@[simp] theorem State.beginCommand_firstv (w : Word) : (s.beginCommand w).firstv = s.firstv := rfl
@[simp] theorem State.beginCommand_ackc (w : Word) : (s.beginCommand w).ackc = s.ackc := rfl
@[simp] theorem State.beginCommand_opr (w : Word) : (s.beginCommand w).opr = w := rfl
@[simp] theorem State.beginCommand_fsm (w : Word) : (s.beginCommand w).fsm = s.fsm := rfl
@[simp] theorem State.beginCommand_busy (w : Word) : (s.beginCommand w).busy = true := rfl
@[simp] theorem State.beginCommand_seq (w : Word) : (s.beginCommand w).seq = s.seq := rfl
@[simp] theorem State.beginCommand_allf (w : Word) : (s.beginCommand w).allf = s.allf := rfl
@[simp] theorem State.beginCommand_err (w : Word) : (s.beginCommand w).err = s.err := rfl
@[simp] theorem State.beginCommand_active (w : Word) : (s.beginCommand w).active = s.active := rfl
@[simp] theorem State.beginCommand_txctl (w : Word) : (s.beginCommand w).txctl = s.txctl := rfl
@[simp] theorem State.beginCommand_txlen (w : Word) : (s.beginCommand w).txlen = s.txlen := rfl
@[simp] theorem State.beginCommand_rxctl (w : Word) : (s.beginCommand w).rxctl = s.rxctl := rfl
@[simp] theorem State.beginCommand_rxlen (w : Word) : (s.beginCommand w).rxlen = s.rxlen := rfl
@[simp] theorem State.beginCommand_budget (w : Word) : (s.beginCommand w).budget = s.budget := rfl
@[simp] theorem State.beginCommand_timeout (w : Word) : (s.beginCommand w).timeout = s.timeout := rfl
@[simp] theorem State.beginCommand_resMask (w : Word) : (s.beginCommand w).resMask = s.resMask := rfl
@[simp] theorem State.beginCommand_resValue (w : Word) : (s.beginCommand w).resValue = s.resValue := rfl
@[simp] theorem State.beginCommand_errPos (w : Word) : (s.beginCommand w).errPos = s.errPos := rfl
@[simp] theorem State.beginCommand_errMask (w : Word) : (s.beginCommand w).errMask = s.errMask := rfl
@[simp] theorem State.beginCommand_errByte (w : Word) : (s.beginCommand w).errByte = s.errByte := rfl
@[simp] theorem State.beginCommand_rrem (w : Word) : (s.beginCommand w).rrem = s.rrem := rfl
@[simp] theorem State.beginCommand_trem (w : Word) : (s.beginCommand w).trem = s.trem := rfl
@[simp] theorem State.beginCommand_mem (w : Word) : (s.beginCommand w).mem = s.mem := rfl
@[simp] theorem State.beginCommand_rst (w : Word) : (s.beginCommand w).rst = s.rst := rfl
@[simp] theorem State.beginCommand_params (w : Word) : (s.beginCommand w).params = s.params := rfl
@[simp] theorem State.beginCommand_port (w : Word) : (s.beginCommand w).port = s.port := rfl
@[simp] theorem State.beginCommand_replies (w : Word) : (s.beginCommand w).replies = s.replies := rfl
@[simp] theorem State.beginCommand_trace (w : Word) : (s.beginCommand w).trace = s.trace := rfl
@[simp] theorem State.beginCommand_samples (w : Word) : (s.beginCommand w).samples = s.samples := rfl
@[simp] theorem State.beginCommand_levels (w : Word) : (s.beginCommand w).levels = s.levels := rfl
@[simp] theorem State.beginCommand_draws (w : Word) : (s.beginCommand w).draws = s.draws := rfl

/-! ### endCommand -/

@[simp] theorem State.endCommand_csum : (s.endCommand).csum = s.csum := rfl
@[simp] theorem State.endCommand_rsum : (s.endCommand).rsum = s.rsum := rfl
@[simp] theorem State.endCommand_rpos : (s.endCommand).rpos = s.rpos := rfl
@[simp] theorem State.endCommand_fmask : (s.endCommand).fmask = s.fmask := rfl
@[simp] theorem State.endCommand_pos : (s.endCommand).pos = s.pos := rfl
@[simp] theorem State.endCommand_lenr : (s.endCommand).lenr = s.lenr := rfl
@[simp] theorem State.endCommand_first : (s.endCommand).first = s.first := rfl
@[simp] theorem State.endCommand_firstv : (s.endCommand).firstv = s.firstv := rfl
@[simp] theorem State.endCommand_ackc : (s.endCommand).ackc = s.ackc := rfl
@[simp] theorem State.endCommand_opr : (s.endCommand).opr = s.opr := rfl
@[simp] theorem State.endCommand_fsm : (s.endCommand).fsm = .idle := rfl
@[simp] theorem State.endCommand_busy : (s.endCommand).busy = false := rfl
@[simp] theorem State.endCommand_seq : (s.endCommand).seq = s.seq := rfl
@[simp] theorem State.endCommand_allf : (s.endCommand).allf = s.allf := rfl
@[simp] theorem State.endCommand_err : (s.endCommand).err = s.err := rfl
@[simp] theorem State.endCommand_active : (s.endCommand).active = s.active := rfl
@[simp] theorem State.endCommand_txctl : (s.endCommand).txctl = s.txctl := rfl
@[simp] theorem State.endCommand_txlen : (s.endCommand).txlen = s.txlen := rfl
@[simp] theorem State.endCommand_rxctl : (s.endCommand).rxctl = s.rxctl := rfl
@[simp] theorem State.endCommand_rxlen : (s.endCommand).rxlen = s.rxlen := rfl
@[simp] theorem State.endCommand_budget : (s.endCommand).budget = s.budget := rfl
@[simp] theorem State.endCommand_timeout : (s.endCommand).timeout = s.timeout := rfl
@[simp] theorem State.endCommand_resMask : (s.endCommand).resMask = s.resMask := rfl
@[simp] theorem State.endCommand_resValue : (s.endCommand).resValue = s.resValue := rfl
@[simp] theorem State.endCommand_errPos : (s.endCommand).errPos = s.errPos := rfl
@[simp] theorem State.endCommand_errMask : (s.endCommand).errMask = s.errMask := rfl
@[simp] theorem State.endCommand_errByte : (s.endCommand).errByte = s.errByte := rfl
@[simp] theorem State.endCommand_rrem : (s.endCommand).rrem = s.rrem := rfl
@[simp] theorem State.endCommand_trem : (s.endCommand).trem = s.trem := rfl
@[simp] theorem State.endCommand_mem : (s.endCommand).mem = s.mem := rfl
@[simp] theorem State.endCommand_rst : (s.endCommand).rst = s.rst := rfl
@[simp] theorem State.endCommand_params : (s.endCommand).params = s.params := rfl
@[simp] theorem State.endCommand_port : (s.endCommand).port = s.port := rfl
@[simp] theorem State.endCommand_replies : (s.endCommand).replies = s.replies := rfl
@[simp] theorem State.endCommand_trace : (s.endCommand).trace = s.trace := rfl
@[simp] theorem State.endCommand_samples : (s.endCommand).samples = s.samples := rfl
@[simp] theorem State.endCommand_levels : (s.endCommand).levels = s.levels := rfl
@[simp] theorem State.endCommand_draws : (s.endCommand).draws = s.draws := rfl

/-! ### answer -/

@[simp] theorem State.answer_csum (ok : Bool) (d : Word) : (s.answer ok d).csum = s.csum := rfl
@[simp] theorem State.answer_rsum (ok : Bool) (d : Word) : (s.answer ok d).rsum = s.rsum := rfl
@[simp] theorem State.answer_rpos (ok : Bool) (d : Word) : (s.answer ok d).rpos = s.rpos := rfl
@[simp] theorem State.answer_fmask (ok : Bool) (d : Word) : (s.answer ok d).fmask = s.fmask := rfl
@[simp] theorem State.answer_pos (ok : Bool) (d : Word) : (s.answer ok d).pos = s.pos := rfl
@[simp] theorem State.answer_lenr (ok : Bool) (d : Word) : (s.answer ok d).lenr = s.lenr := rfl
@[simp] theorem State.answer_first (ok : Bool) (d : Word) : (s.answer ok d).first = s.first := rfl
@[simp] theorem State.answer_firstv (ok : Bool) (d : Word) : (s.answer ok d).firstv = s.firstv := rfl
@[simp] theorem State.answer_ackc (ok : Bool) (d : Word) : (s.answer ok d).ackc = s.ackc := rfl
@[simp] theorem State.answer_opr (ok : Bool) (d : Word) : (s.answer ok d).opr = s.opr := rfl
@[simp] theorem State.answer_fsm (ok : Bool) (d : Word) : (s.answer ok d).fsm = s.fsm := rfl
@[simp] theorem State.answer_busy (ok : Bool) (d : Word) : (s.answer ok d).busy = s.busy := rfl
@[simp] theorem State.answer_seq (ok : Bool) (d : Word) : (s.answer ok d).seq = s.seq := rfl
@[simp] theorem State.answer_allf (ok : Bool) (d : Word) : (s.answer ok d).allf = s.allf := rfl
@[simp] theorem State.answer_err (ok : Bool) (d : Word) : (s.answer ok d).err = s.err := rfl
@[simp] theorem State.answer_active (ok : Bool) (d : Word) : (s.answer ok d).active = s.active := rfl
@[simp] theorem State.answer_txctl (ok : Bool) (d : Word) : (s.answer ok d).txctl = s.txctl := rfl
@[simp] theorem State.answer_txlen (ok : Bool) (d : Word) : (s.answer ok d).txlen = s.txlen := rfl
@[simp] theorem State.answer_rxctl (ok : Bool) (d : Word) : (s.answer ok d).rxctl = s.rxctl := rfl
@[simp] theorem State.answer_rxlen (ok : Bool) (d : Word) : (s.answer ok d).rxlen = s.rxlen := rfl
@[simp] theorem State.answer_budget (ok : Bool) (d : Word) : (s.answer ok d).budget = s.budget := rfl
@[simp] theorem State.answer_timeout (ok : Bool) (d : Word) : (s.answer ok d).timeout = s.timeout := rfl
@[simp] theorem State.answer_resMask (ok : Bool) (d : Word) : (s.answer ok d).resMask = s.resMask := rfl
@[simp] theorem State.answer_resValue (ok : Bool) (d : Word) : (s.answer ok d).resValue = s.resValue := rfl
@[simp] theorem State.answer_errPos (ok : Bool) (d : Word) : (s.answer ok d).errPos = s.errPos := rfl
@[simp] theorem State.answer_errMask (ok : Bool) (d : Word) : (s.answer ok d).errMask = s.errMask := rfl
@[simp] theorem State.answer_errByte (ok : Bool) (d : Word) : (s.answer ok d).errByte = s.errByte := rfl
@[simp] theorem State.answer_rrem (ok : Bool) (d : Word) : (s.answer ok d).rrem = s.rrem := rfl
@[simp] theorem State.answer_trem (ok : Bool) (d : Word) : (s.answer ok d).trem = s.trem := rfl
@[simp] theorem State.answer_mem (ok : Bool) (d : Word) : (s.answer ok d).mem = s.mem := rfl
@[simp] theorem State.answer_rst (ok : Bool) (d : Word) : (s.answer ok d).rst = s.rst := rfl
@[simp] theorem State.answer_params (ok : Bool) (d : Word) : (s.answer ok d).params = s.params := rfl
@[simp] theorem State.answer_port (ok : Bool) (d : Word) : (s.answer ok d).port = s.port := rfl
@[simp] theorem State.answer_replies (ok : Bool) (d : Word) : (s.answer ok d).replies = s.replies ++ [⟨ok, d⟩] := rfl
@[simp] theorem State.answer_trace (ok : Bool) (d : Word) : (s.answer ok d).trace = s.trace := rfl
@[simp] theorem State.answer_samples (ok : Bool) (d : Word) : (s.answer ok d).samples = s.samples := rfl
@[simp] theorem State.answer_levels (ok : Bool) (d : Word) : (s.answer ok d).levels = s.levels := rfl
@[simp] theorem State.answer_draws (ok : Bool) (d : Word) : (s.answer ok d).draws = s.draws := rfl

/-! ### txBegin -/

@[simp] theorem State.txBegin_csum : (s.txBegin).csum = 0x00 := rfl
@[simp] theorem State.txBegin_rsum : (s.txBegin).rsum = s.rsum := rfl
@[simp] theorem State.txBegin_rpos : (s.txBegin).rpos = s.rpos := rfl
@[simp] theorem State.txBegin_fmask : (s.txBegin).fmask = s.fmask := rfl
@[simp] theorem State.txBegin_pos : (s.txBegin).pos = 0 := rfl
@[simp] theorem State.txBegin_lenr : (s.txBegin).lenr = s.txLenField := rfl
@[simp] theorem State.txBegin_first : (s.txBegin).first = s.first := rfl
@[simp] theorem State.txBegin_firstv : (s.txBegin).firstv = s.firstv := rfl
@[simp] theorem State.txBegin_ackc : (s.txBegin).ackc = s.ackc := rfl
@[simp] theorem State.txBegin_opr : (s.txBegin).opr = s.opr := rfl
@[simp] theorem State.txBegin_fsm : (s.txBegin).fsm = s.fsm := rfl
@[simp] theorem State.txBegin_busy : (s.txBegin).busy = s.busy := rfl
@[simp] theorem State.txBegin_seq : (s.txBegin).seq = s.seq := rfl
@[simp] theorem State.txBegin_allf : (s.txBegin).allf = s.allf := rfl
@[simp] theorem State.txBegin_err : (s.txBegin).err = s.err := rfl
@[simp] theorem State.txBegin_active : (s.txBegin).active = s.active := rfl
@[simp] theorem State.txBegin_txctl : (s.txBegin).txctl = s.txctl := rfl
@[simp] theorem State.txBegin_txlen : (s.txBegin).txlen = s.txlen := rfl
@[simp] theorem State.txBegin_rxctl : (s.txBegin).rxctl = s.rxctl := rfl
@[simp] theorem State.txBegin_rxlen : (s.txBegin).rxlen = s.rxlen := rfl
@[simp] theorem State.txBegin_budget : (s.txBegin).budget = s.budget := rfl
@[simp] theorem State.txBegin_timeout : (s.txBegin).timeout = s.timeout := rfl
@[simp] theorem State.txBegin_resMask : (s.txBegin).resMask = s.resMask := rfl
@[simp] theorem State.txBegin_resValue : (s.txBegin).resValue = s.resValue := rfl
@[simp] theorem State.txBegin_errPos : (s.txBegin).errPos = s.errPos := rfl
@[simp] theorem State.txBegin_errMask : (s.txBegin).errMask = s.errMask := rfl
@[simp] theorem State.txBegin_errByte : (s.txBegin).errByte = s.errByte := rfl
@[simp] theorem State.txBegin_rrem : (s.txBegin).rrem = s.rrem := rfl
@[simp] theorem State.txBegin_trem : (s.txBegin).trem = s.trem := rfl
@[simp] theorem State.txBegin_mem : (s.txBegin).mem = s.mem := rfl
@[simp] theorem State.txBegin_rst : (s.txBegin).rst = s.rst := rfl
@[simp] theorem State.txBegin_params : (s.txBegin).params = s.params := rfl
@[simp] theorem State.txBegin_port : (s.txBegin).port = s.port := rfl
@[simp] theorem State.txBegin_replies : (s.txBegin).replies = s.replies := rfl
@[simp] theorem State.txBegin_trace : (s.txBegin).trace = s.trace := rfl
@[simp] theorem State.txBegin_samples : (s.txBegin).samples = s.samples := rfl
@[simp] theorem State.txBegin_levels : (s.txBegin).levels = s.levels := rfl
@[simp] theorem State.txBegin_draws : (s.txBegin).draws = s.draws := rfl

/-! ### capBegin -/

@[simp] theorem State.capBegin_csum : (s.capBegin).csum = 0x00 := rfl
@[simp] theorem State.capBegin_rsum : (s.capBegin).rsum = if s.rxctl.cont then s.rsum else 0x00 := rfl
@[simp] theorem State.capBegin_rpos : (s.capBegin).rpos = if s.rxctl.cont then s.rpos else 0 := rfl
@[simp] theorem State.capBegin_fmask : (s.capBegin).fmask = s.fmask := rfl
@[simp] theorem State.capBegin_pos : (s.capBegin).pos = 0 := rfl
@[simp] theorem State.capBegin_lenr : (s.capBegin).lenr = s.rxLenField := rfl
@[simp] theorem State.capBegin_first : (s.capBegin).first = s.first := rfl
@[simp] theorem State.capBegin_firstv : (s.capBegin).firstv = s.firstv := rfl
@[simp] theorem State.capBegin_ackc : (s.capBegin).ackc = 0x00 := rfl
@[simp] theorem State.capBegin_opr : (s.capBegin).opr = s.opr := rfl
@[simp] theorem State.capBegin_fsm : (s.capBegin).fsm = s.fsm := rfl
@[simp] theorem State.capBegin_busy : (s.capBegin).busy = s.busy := rfl
@[simp] theorem State.capBegin_seq : (s.capBegin).seq = s.seq := rfl
@[simp] theorem State.capBegin_allf : (s.capBegin).allf = s.allf := rfl
@[simp] theorem State.capBegin_err : (s.capBegin).err = s.err := rfl
@[simp] theorem State.capBegin_active : (s.capBegin).active = s.active := rfl
@[simp] theorem State.capBegin_txctl : (s.capBegin).txctl = s.txctl := rfl
@[simp] theorem State.capBegin_txlen : (s.capBegin).txlen = s.txlen := rfl
@[simp] theorem State.capBegin_rxctl : (s.capBegin).rxctl = s.rxctl := rfl
@[simp] theorem State.capBegin_rxlen : (s.capBegin).rxlen = s.rxlen := rfl
@[simp] theorem State.capBegin_budget : (s.capBegin).budget = s.budget := rfl
@[simp] theorem State.capBegin_timeout : (s.capBegin).timeout = s.timeout := rfl
@[simp] theorem State.capBegin_resMask : (s.capBegin).resMask = s.resMask := rfl
@[simp] theorem State.capBegin_resValue : (s.capBegin).resValue = s.resValue := rfl
@[simp] theorem State.capBegin_errPos : (s.capBegin).errPos = s.errPos := rfl
@[simp] theorem State.capBegin_errMask : (s.capBegin).errMask = s.errMask := rfl
@[simp] theorem State.capBegin_errByte : (s.capBegin).errByte = s.errByte := rfl
@[simp] theorem State.capBegin_rrem : (s.capBegin).rrem = s.rrem := rfl
@[simp] theorem State.capBegin_trem : (s.capBegin).trem = s.trem := rfl
@[simp] theorem State.capBegin_mem : (s.capBegin).mem = s.mem := rfl
@[simp] theorem State.capBegin_rst : (s.capBegin).rst = s.rst := rfl
@[simp] theorem State.capBegin_params : (s.capBegin).params = s.params := rfl
@[simp] theorem State.capBegin_port : (s.capBegin).port = s.port := rfl
@[simp] theorem State.capBegin_replies : (s.capBegin).replies = s.replies := rfl
@[simp] theorem State.capBegin_trace : (s.capBegin).trace = s.trace := rfl
@[simp] theorem State.capBegin_samples : (s.capBegin).samples = s.samples := rfl
@[simp] theorem State.capBegin_levels : (s.capBegin).levels = s.levels := rfl
@[simp] theorem State.capBegin_draws : (s.capBegin).draws = s.draws := rfl

/-! ### capPayloadByte -/

@[simp] theorem State.capPayloadByte_csum : (s.capPayloadByte).csum = s.csum + s.captureValue := rfl
@[simp] theorem State.capPayloadByte_rsum : (s.capPayloadByte).rsum = s.rsum + s.captureValue := rfl
@[simp] theorem State.capPayloadByte_rpos : (s.capPayloadByte).rpos = s.rpos + 1 := rfl
@[simp] theorem State.capPayloadByte_fmask : (s.capPayloadByte).fmask = s.fmask := rfl
@[simp] theorem State.capPayloadByte_pos : (s.capPayloadByte).pos = s.pos + 1 := rfl
@[simp] theorem State.capPayloadByte_lenr : (s.capPayloadByte).lenr = s.lenr := rfl
@[simp] theorem State.capPayloadByte_first : (s.capPayloadByte).first = s.first := rfl
@[simp] theorem State.capPayloadByte_firstv : (s.capPayloadByte).firstv = s.firstv := rfl
@[simp] theorem State.capPayloadByte_ackc : (s.capPayloadByte).ackc = s.ackc := rfl
@[simp] theorem State.capPayloadByte_opr : (s.capPayloadByte).opr = s.opr := rfl
@[simp] theorem State.capPayloadByte_fsm : (s.capPayloadByte).fsm = s.fsm := rfl
@[simp] theorem State.capPayloadByte_busy : (s.capPayloadByte).busy = s.busy := rfl
@[simp] theorem State.capPayloadByte_seq : (s.capPayloadByte).seq = s.seq := rfl
@[simp] theorem State.capPayloadByte_allf : (s.capPayloadByte).allf = s.allf := rfl
@[simp] theorem State.capPayloadByte_err : (s.capPayloadByte).err = s.err := rfl
@[simp] theorem State.capPayloadByte_active : (s.capPayloadByte).active = s.active := rfl
@[simp] theorem State.capPayloadByte_txctl : (s.capPayloadByte).txctl = s.txctl := rfl
@[simp] theorem State.capPayloadByte_txlen : (s.capPayloadByte).txlen = s.txlen := rfl
@[simp] theorem State.capPayloadByte_rxctl : (s.capPayloadByte).rxctl = s.rxctl := rfl
@[simp] theorem State.capPayloadByte_rxlen : (s.capPayloadByte).rxlen = s.rxlen := rfl
@[simp] theorem State.capPayloadByte_budget : (s.capPayloadByte).budget = s.budget := rfl
@[simp] theorem State.capPayloadByte_timeout : (s.capPayloadByte).timeout = s.timeout := rfl
@[simp] theorem State.capPayloadByte_resMask : (s.capPayloadByte).resMask = s.resMask := rfl
@[simp] theorem State.capPayloadByte_resValue : (s.capPayloadByte).resValue = s.resValue := rfl
@[simp] theorem State.capPayloadByte_errPos : (s.capPayloadByte).errPos = s.errPos := rfl
@[simp] theorem State.capPayloadByte_errMask : (s.capPayloadByte).errMask = s.errMask := rfl
@[simp] theorem State.capPayloadByte_errByte : (s.capPayloadByte).errByte = s.errByte := rfl
@[simp] theorem State.capPayloadByte_rrem : (s.capPayloadByte).rrem = s.rrem := rfl
@[simp] theorem State.capPayloadByte_trem : (s.capPayloadByte).trem = s.trem := rfl
@[simp] theorem State.capPayloadByte_mem : (s.capPayloadByte).mem = s.mem.write (Buf.rx.addr s.rpos.toNat) s.captureValue := rfl
@[simp] theorem State.capPayloadByte_rst : (s.capPayloadByte).rst = s.rst := rfl
@[simp] theorem State.capPayloadByte_params : (s.capPayloadByte).params = s.params := rfl
@[simp] theorem State.capPayloadByte_port : (s.capPayloadByte).port = s.port := rfl
@[simp] theorem State.capPayloadByte_replies : (s.capPayloadByte).replies = s.replies := rfl
@[simp] theorem State.capPayloadByte_trace : (s.capPayloadByte).trace = s.trace ++ [.sample 8 (s.sampleValue 8)] := rfl
@[simp] theorem State.capPayloadByte_samples : (s.capPayloadByte).samples = s.samples.tail := rfl
@[simp] theorem State.capPayloadByte_levels : (s.capPayloadByte).levels = s.levels := rfl
@[simp] theorem State.capPayloadByte_draws : (s.capPayloadByte).draws = if s.samples.isEmpty then s.draws + 1 else s.draws := rfl

/-! ### rxcmpBegin -/

@[simp] theorem State.rxcmpBegin_csum : (s.rxcmpBegin).csum = 0x00 := rfl
@[simp] theorem State.rxcmpBegin_rsum : (s.rxcmpBegin).rsum = s.rsum := rfl
@[simp] theorem State.rxcmpBegin_rpos : (s.rxcmpBegin).rpos = s.rpos := rfl
@[simp] theorem State.rxcmpBegin_fmask : (s.rxcmpBegin).fmask = 0x0 := rfl
@[simp] theorem State.rxcmpBegin_pos : (s.rxcmpBegin).pos = 0 := rfl
@[simp] theorem State.rxcmpBegin_lenr : (s.rxcmpBegin).lenr = s.rxLenField := rfl
@[simp] theorem State.rxcmpBegin_first : (s.rxcmpBegin).first = 0 := rfl
@[simp] theorem State.rxcmpBegin_firstv : (s.rxcmpBegin).firstv = false := rfl
@[simp] theorem State.rxcmpBegin_ackc : (s.rxcmpBegin).ackc = s.ackc := rfl
@[simp] theorem State.rxcmpBegin_opr : (s.rxcmpBegin).opr = s.opr := rfl
@[simp] theorem State.rxcmpBegin_fsm : (s.rxcmpBegin).fsm = s.fsm := rfl
@[simp] theorem State.rxcmpBegin_busy : (s.rxcmpBegin).busy = s.busy := rfl
@[simp] theorem State.rxcmpBegin_seq : (s.rxcmpBegin).seq = s.seq := rfl
@[simp] theorem State.rxcmpBegin_allf : (s.rxcmpBegin).allf = s.allf := rfl
@[simp] theorem State.rxcmpBegin_err : (s.rxcmpBegin).err = s.err := rfl
@[simp] theorem State.rxcmpBegin_active : (s.rxcmpBegin).active = s.active := rfl
@[simp] theorem State.rxcmpBegin_txctl : (s.rxcmpBegin).txctl = s.txctl := rfl
@[simp] theorem State.rxcmpBegin_txlen : (s.rxcmpBegin).txlen = s.txlen := rfl
@[simp] theorem State.rxcmpBegin_rxctl : (s.rxcmpBegin).rxctl = s.rxctl := rfl
@[simp] theorem State.rxcmpBegin_rxlen : (s.rxcmpBegin).rxlen = s.rxlen := rfl
@[simp] theorem State.rxcmpBegin_budget : (s.rxcmpBegin).budget = s.budget := rfl
@[simp] theorem State.rxcmpBegin_timeout : (s.rxcmpBegin).timeout = s.timeout := rfl
@[simp] theorem State.rxcmpBegin_resMask : (s.rxcmpBegin).resMask = s.resMask := rfl
@[simp] theorem State.rxcmpBegin_resValue : (s.rxcmpBegin).resValue = s.resValue := rfl
@[simp] theorem State.rxcmpBegin_errPos : (s.rxcmpBegin).errPos = s.errPos := rfl
@[simp] theorem State.rxcmpBegin_errMask : (s.rxcmpBegin).errMask = s.errMask := rfl
@[simp] theorem State.rxcmpBegin_errByte : (s.rxcmpBegin).errByte = s.errByte := rfl
@[simp] theorem State.rxcmpBegin_rrem : (s.rxcmpBegin).rrem = s.rrem := rfl
@[simp] theorem State.rxcmpBegin_trem : (s.rxcmpBegin).trem = s.trem := rfl
@[simp] theorem State.rxcmpBegin_mem : (s.rxcmpBegin).mem = s.mem := rfl
@[simp] theorem State.rxcmpBegin_rst : (s.rxcmpBegin).rst = s.rst := rfl
@[simp] theorem State.rxcmpBegin_params : (s.rxcmpBegin).params = s.params := rfl
@[simp] theorem State.rxcmpBegin_port : (s.rxcmpBegin).port = s.port := rfl
@[simp] theorem State.rxcmpBegin_replies : (s.rxcmpBegin).replies = s.replies := rfl
@[simp] theorem State.rxcmpBegin_trace : (s.rxcmpBegin).trace = s.trace := rfl
@[simp] theorem State.rxcmpBegin_samples : (s.rxcmpBegin).samples = s.samples := rfl
@[simp] theorem State.rxcmpBegin_levels : (s.rxcmpBegin).levels = s.levels := rfl
@[simp] theorem State.rxcmpBegin_draws : (s.rxcmpBegin).draws = s.draws := rfl

/-! ### hit -/

@[simp] theorem State.hit_csum (e g : Byte) (i : Half) : (s.hit e g i).csum = s.csum := rfl
@[simp] theorem State.hit_rsum (e g : Byte) (i : Half) : (s.hit e g i).rsum = s.rsum := rfl
@[simp] theorem State.hit_rpos (e g : Byte) (i : Half) : (s.hit e g i).rpos = s.rpos := rfl
@[simp] theorem State.hit_fmask (e g : Byte) (i : Half) : (s.hit e g i).fmask = s.fmask ||| s.hitMask e g := rfl
@[simp] theorem State.hit_pos (e g : Byte) (i : Half) : (s.hit e g i).pos = s.pos := rfl
@[simp] theorem State.hit_lenr (e g : Byte) (i : Half) : (s.hit e g i).lenr = s.lenr := rfl
@[simp] theorem State.hit_first (e g : Byte) (i : Half) : (s.hit e g i).first = if s.hitMask e g ≠ 0 ∧ s.firstv = false then i else s.first := rfl
@[simp] theorem State.hit_firstv (e g : Byte) (i : Half) : (s.hit e g i).firstv = (s.firstv || s.hitMask e g != 0) := rfl
@[simp] theorem State.hit_ackc (e g : Byte) (i : Half) : (s.hit e g i).ackc = s.ackc := rfl
@[simp] theorem State.hit_opr (e g : Byte) (i : Half) : (s.hit e g i).opr = s.opr := rfl
@[simp] theorem State.hit_fsm (e g : Byte) (i : Half) : (s.hit e g i).fsm = s.fsm := rfl
@[simp] theorem State.hit_busy (e g : Byte) (i : Half) : (s.hit e g i).busy = s.busy := rfl
@[simp] theorem State.hit_seq (e g : Byte) (i : Half) : (s.hit e g i).seq = s.seq := rfl
@[simp] theorem State.hit_allf (e g : Byte) (i : Half) : (s.hit e g i).allf = s.allf := rfl
@[simp] theorem State.hit_err (e g : Byte) (i : Half) : (s.hit e g i).err = s.err := rfl
@[simp] theorem State.hit_active (e g : Byte) (i : Half) : (s.hit e g i).active = s.active := rfl
@[simp] theorem State.hit_txctl (e g : Byte) (i : Half) : (s.hit e g i).txctl = s.txctl := rfl
@[simp] theorem State.hit_txlen (e g : Byte) (i : Half) : (s.hit e g i).txlen = s.txlen := rfl
@[simp] theorem State.hit_rxctl (e g : Byte) (i : Half) : (s.hit e g i).rxctl = s.rxctl := rfl
@[simp] theorem State.hit_rxlen (e g : Byte) (i : Half) : (s.hit e g i).rxlen = s.rxlen := rfl
@[simp] theorem State.hit_budget (e g : Byte) (i : Half) : (s.hit e g i).budget = s.budget := rfl
@[simp] theorem State.hit_timeout (e g : Byte) (i : Half) : (s.hit e g i).timeout = s.timeout := rfl
@[simp] theorem State.hit_resMask (e g : Byte) (i : Half) : (s.hit e g i).resMask = s.resMask := rfl
@[simp] theorem State.hit_resValue (e g : Byte) (i : Half) : (s.hit e g i).resValue = s.resValue := rfl
@[simp] theorem State.hit_errPos (e g : Byte) (i : Half) : (s.hit e g i).errPos = s.errPos := rfl
@[simp] theorem State.hit_errMask (e g : Byte) (i : Half) : (s.hit e g i).errMask = s.errMask := rfl
@[simp] theorem State.hit_errByte (e g : Byte) (i : Half) : (s.hit e g i).errByte = s.errByte := rfl
@[simp] theorem State.hit_rrem (e g : Byte) (i : Half) : (s.hit e g i).rrem = s.rrem := rfl
@[simp] theorem State.hit_trem (e g : Byte) (i : Half) : (s.hit e g i).trem = s.trem := rfl
@[simp] theorem State.hit_mem (e g : Byte) (i : Half) : (s.hit e g i).mem = s.mem := rfl
@[simp] theorem State.hit_rst (e g : Byte) (i : Half) : (s.hit e g i).rst = s.rst := rfl
@[simp] theorem State.hit_params (e g : Byte) (i : Half) : (s.hit e g i).params = s.params := rfl
@[simp] theorem State.hit_port (e g : Byte) (i : Half) : (s.hit e g i).port = s.port := rfl
@[simp] theorem State.hit_replies (e g : Byte) (i : Half) : (s.hit e g i).replies = s.replies := rfl
@[simp] theorem State.hit_trace (e g : Byte) (i : Half) : (s.hit e g i).trace = s.trace ++ [.sample 8 (s.sampleValue 8)] := rfl
@[simp] theorem State.hit_samples (e g : Byte) (i : Half) : (s.hit e g i).samples = s.samples.tail := rfl
@[simp] theorem State.hit_levels (e g : Byte) (i : Half) : (s.hit e g i).levels = s.levels := rfl
@[simp] theorem State.hit_draws (e g : Byte) (i : Half) : (s.hit e g i).draws = if s.samples.isEmpty then s.draws + 1 else s.draws := rfl

/-! ### hitCovered -/

@[simp] theorem State.hitCovered_csum (e g : Byte) (i : Half) : (s.hitCovered e g i).csum = s.csum + e := rfl
@[simp] theorem State.hitCovered_rsum (e g : Byte) (i : Half) : (s.hitCovered e g i).rsum = s.rsum := rfl
@[simp] theorem State.hitCovered_rpos (e g : Byte) (i : Half) : (s.hitCovered e g i).rpos = s.rpos := rfl
@[simp] theorem State.hitCovered_fmask (e g : Byte) (i : Half) : (s.hitCovered e g i).fmask = s.fmask ||| s.hitMask e g := rfl
@[simp] theorem State.hitCovered_pos (e g : Byte) (i : Half) : (s.hitCovered e g i).pos = s.pos := rfl
@[simp] theorem State.hitCovered_lenr (e g : Byte) (i : Half) : (s.hitCovered e g i).lenr = s.lenr := rfl
@[simp] theorem State.hitCovered_first (e g : Byte) (i : Half) : (s.hitCovered e g i).first = if s.hitMask e g ≠ 0 ∧ s.firstv = false then i else s.first := rfl
@[simp] theorem State.hitCovered_firstv (e g : Byte) (i : Half) : (s.hitCovered e g i).firstv = (s.firstv || s.hitMask e g != 0) := rfl
@[simp] theorem State.hitCovered_ackc (e g : Byte) (i : Half) : (s.hitCovered e g i).ackc = s.ackc := rfl
@[simp] theorem State.hitCovered_opr (e g : Byte) (i : Half) : (s.hitCovered e g i).opr = s.opr := rfl
@[simp] theorem State.hitCovered_fsm (e g : Byte) (i : Half) : (s.hitCovered e g i).fsm = s.fsm := rfl
@[simp] theorem State.hitCovered_busy (e g : Byte) (i : Half) : (s.hitCovered e g i).busy = s.busy := rfl
@[simp] theorem State.hitCovered_seq (e g : Byte) (i : Half) : (s.hitCovered e g i).seq = s.seq := rfl
@[simp] theorem State.hitCovered_allf (e g : Byte) (i : Half) : (s.hitCovered e g i).allf = s.allf := rfl
@[simp] theorem State.hitCovered_err (e g : Byte) (i : Half) : (s.hitCovered e g i).err = s.err := rfl
@[simp] theorem State.hitCovered_active (e g : Byte) (i : Half) : (s.hitCovered e g i).active = s.active := rfl
@[simp] theorem State.hitCovered_txctl (e g : Byte) (i : Half) : (s.hitCovered e g i).txctl = s.txctl := rfl
@[simp] theorem State.hitCovered_txlen (e g : Byte) (i : Half) : (s.hitCovered e g i).txlen = s.txlen := rfl
@[simp] theorem State.hitCovered_rxctl (e g : Byte) (i : Half) : (s.hitCovered e g i).rxctl = s.rxctl := rfl
@[simp] theorem State.hitCovered_rxlen (e g : Byte) (i : Half) : (s.hitCovered e g i).rxlen = s.rxlen := rfl
@[simp] theorem State.hitCovered_budget (e g : Byte) (i : Half) : (s.hitCovered e g i).budget = s.budget := rfl
@[simp] theorem State.hitCovered_timeout (e g : Byte) (i : Half) : (s.hitCovered e g i).timeout = s.timeout := rfl
@[simp] theorem State.hitCovered_resMask (e g : Byte) (i : Half) : (s.hitCovered e g i).resMask = s.resMask := rfl
@[simp] theorem State.hitCovered_resValue (e g : Byte) (i : Half) : (s.hitCovered e g i).resValue = s.resValue := rfl
@[simp] theorem State.hitCovered_errPos (e g : Byte) (i : Half) : (s.hitCovered e g i).errPos = s.errPos := rfl
@[simp] theorem State.hitCovered_errMask (e g : Byte) (i : Half) : (s.hitCovered e g i).errMask = s.errMask := rfl
@[simp] theorem State.hitCovered_errByte (e g : Byte) (i : Half) : (s.hitCovered e g i).errByte = s.errByte := rfl
@[simp] theorem State.hitCovered_rrem (e g : Byte) (i : Half) : (s.hitCovered e g i).rrem = s.rrem := rfl
@[simp] theorem State.hitCovered_trem (e g : Byte) (i : Half) : (s.hitCovered e g i).trem = s.trem := rfl
@[simp] theorem State.hitCovered_mem (e g : Byte) (i : Half) : (s.hitCovered e g i).mem = s.mem := rfl
@[simp] theorem State.hitCovered_rst (e g : Byte) (i : Half) : (s.hitCovered e g i).rst = s.rst := rfl
@[simp] theorem State.hitCovered_params (e g : Byte) (i : Half) : (s.hitCovered e g i).params = s.params := rfl
@[simp] theorem State.hitCovered_port (e g : Byte) (i : Half) : (s.hitCovered e g i).port = s.port := rfl
@[simp] theorem State.hitCovered_replies (e g : Byte) (i : Half) : (s.hitCovered e g i).replies = s.replies := rfl
@[simp] theorem State.hitCovered_trace (e g : Byte) (i : Half) : (s.hitCovered e g i).trace = s.trace ++ [.sample 8 (s.sampleValue 8)] := rfl
@[simp] theorem State.hitCovered_samples (e g : Byte) (i : Half) : (s.hitCovered e g i).samples = s.samples.tail := rfl
@[simp] theorem State.hitCovered_levels (e g : Byte) (i : Half) : (s.hitCovered e g i).levels = s.levels := rfl
@[simp] theorem State.hitCovered_draws (e g : Byte) (i : Half) : (s.hitCovered e g i).draws = if s.samples.isEmpty then s.draws + 1 else s.draws := rfl

/-! ### attemptStart -/

@[simp] theorem State.attemptStart_csum : (s.attemptStart).csum = s.csum := rfl
@[simp] theorem State.attemptStart_rsum : (s.attemptStart).rsum = s.rsum := rfl
@[simp] theorem State.attemptStart_rpos : (s.attemptStart).rpos = s.rpos := rfl
@[simp] theorem State.attemptStart_fmask : (s.attemptStart).fmask = s.fmask := rfl
@[simp] theorem State.attemptStart_pos : (s.attemptStart).pos = s.pos := rfl
@[simp] theorem State.attemptStart_lenr : (s.attemptStart).lenr = s.lenr := rfl
@[simp] theorem State.attemptStart_first : (s.attemptStart).first = s.first := rfl
@[simp] theorem State.attemptStart_firstv : (s.attemptStart).firstv = s.firstv := rfl
@[simp] theorem State.attemptStart_ackc : (s.attemptStart).ackc = s.ackc := rfl
@[simp] theorem State.attemptStart_opr : (s.attemptStart).opr = s.opr := rfl
@[simp] theorem State.attemptStart_fsm : (s.attemptStart).fsm = s.attemptFsm := rfl
@[simp] theorem State.attemptStart_busy : (s.attemptStart).busy = s.busy := rfl
@[simp] theorem State.attemptStart_seq : (s.attemptStart).seq = s.seq := rfl
@[simp] theorem State.attemptStart_allf : (s.attemptStart).allf = s.allf := rfl
@[simp] theorem State.attemptStart_err : (s.attemptStart).err = s.err := rfl
@[simp] theorem State.attemptStart_active : (s.attemptStart).active = s.active := rfl
@[simp] theorem State.attemptStart_txctl : (s.attemptStart).txctl = s.txctl := rfl
@[simp] theorem State.attemptStart_txlen : (s.attemptStart).txlen = s.txlen := rfl
@[simp] theorem State.attemptStart_rxctl : (s.attemptStart).rxctl = s.rxctl := rfl
@[simp] theorem State.attemptStart_rxlen : (s.attemptStart).rxlen = s.rxlen := rfl
@[simp] theorem State.attemptStart_budget : (s.attemptStart).budget = s.budget := rfl
@[simp] theorem State.attemptStart_timeout : (s.attemptStart).timeout = s.timeout := rfl
@[simp] theorem State.attemptStart_resMask : (s.attemptStart).resMask = s.resMask := rfl
@[simp] theorem State.attemptStart_resValue : (s.attemptStart).resValue = s.resValue := rfl
@[simp] theorem State.attemptStart_errPos : (s.attemptStart).errPos = s.errPos := rfl
@[simp] theorem State.attemptStart_errMask : (s.attemptStart).errMask = s.errMask := rfl
@[simp] theorem State.attemptStart_errByte : (s.attemptStart).errByte = s.errByte := rfl
@[simp] theorem State.attemptStart_rrem : (s.attemptStart).rrem = if s.oprR then s.rrem - 1 else s.rrem := rfl
@[simp] theorem State.attemptStart_trem : (s.attemptStart).trem = if s.oprIs 0x21 then s.timeout else s.trem := rfl
@[simp] theorem State.attemptStart_mem : (s.attemptStart).mem = s.mem := rfl
@[simp] theorem State.attemptStart_rst : (s.attemptStart).rst = s.rst := rfl
@[simp] theorem State.attemptStart_params : (s.attemptStart).params = s.params := rfl
@[simp] theorem State.attemptStart_port : (s.attemptStart).port = s.port := rfl
@[simp] theorem State.attemptStart_replies : (s.attemptStart).replies = s.replies := rfl
@[simp] theorem State.attemptStart_trace : (s.attemptStart).trace = s.trace := rfl
@[simp] theorem State.attemptStart_samples : (s.attemptStart).samples = s.samples := rfl
@[simp] theorem State.attemptStart_levels : (s.attemptStart).levels = s.levels := rfl
@[simp] theorem State.attemptStart_draws : (s.attemptStart).draws = s.draws := rfl

/-! ### capAck -/

@[simp] theorem State.capAck_csum : (s.capAck).csum = s.csum + s.captureValue := rfl
@[simp] theorem State.capAck_rsum : (s.capAck).rsum = s.rsum := rfl
@[simp] theorem State.capAck_rpos : (s.capAck).rpos = s.rpos := rfl
@[simp] theorem State.capAck_fmask : (s.capAck).fmask = s.fmask := rfl
@[simp] theorem State.capAck_pos : (s.capAck).pos = s.pos := rfl
@[simp] theorem State.capAck_lenr : (s.capAck).lenr = s.lenr := rfl
@[simp] theorem State.capAck_first : (s.capAck).first = s.first := rfl
@[simp] theorem State.capAck_firstv : (s.capAck).firstv = s.firstv := rfl
@[simp] theorem State.capAck_ackc : (s.capAck).ackc = s.captureValue := rfl
@[simp] theorem State.capAck_opr : (s.capAck).opr = s.opr := rfl
@[simp] theorem State.capAck_fsm : (s.capAck).fsm = s.fsm := rfl
@[simp] theorem State.capAck_busy : (s.capAck).busy = s.busy := rfl
@[simp] theorem State.capAck_seq : (s.capAck).seq = s.seq := rfl
@[simp] theorem State.capAck_allf : (s.capAck).allf = s.allf := rfl
@[simp] theorem State.capAck_err : (s.capAck).err = s.err := rfl
@[simp] theorem State.capAck_active : (s.capAck).active = s.active := rfl
@[simp] theorem State.capAck_txctl : (s.capAck).txctl = s.txctl := rfl
@[simp] theorem State.capAck_txlen : (s.capAck).txlen = s.txlen := rfl
@[simp] theorem State.capAck_rxctl : (s.capAck).rxctl = s.rxctl := rfl
@[simp] theorem State.capAck_rxlen : (s.capAck).rxlen = s.rxlen := rfl
@[simp] theorem State.capAck_budget : (s.capAck).budget = s.budget := rfl
@[simp] theorem State.capAck_timeout : (s.capAck).timeout = s.timeout := rfl
@[simp] theorem State.capAck_resMask : (s.capAck).resMask = s.resMask := rfl
@[simp] theorem State.capAck_resValue : (s.capAck).resValue = s.resValue := rfl
@[simp] theorem State.capAck_errPos : (s.capAck).errPos = s.errPos := rfl
@[simp] theorem State.capAck_errMask : (s.capAck).errMask = s.errMask := rfl
@[simp] theorem State.capAck_errByte : (s.capAck).errByte = s.errByte := rfl
@[simp] theorem State.capAck_rrem : (s.capAck).rrem = s.rrem := rfl
@[simp] theorem State.capAck_trem : (s.capAck).trem = s.trem := rfl
@[simp] theorem State.capAck_mem : (s.capAck).mem = s.mem := rfl
@[simp] theorem State.capAck_rst : (s.capAck).rst = s.rst := rfl
@[simp] theorem State.capAck_params : (s.capAck).params = s.params := rfl
@[simp] theorem State.capAck_port : (s.capAck).port = s.port := rfl
@[simp] theorem State.capAck_replies : (s.capAck).replies = s.replies := rfl
@[simp] theorem State.capAck_trace : (s.capAck).trace = s.trace ++ [.sample 8 (s.sampleValue 8)] := rfl
@[simp] theorem State.capAck_samples : (s.capAck).samples = s.samples.tail := rfl
@[simp] theorem State.capAck_levels : (s.capAck).levels = s.levels := rfl
@[simp] theorem State.capAck_draws : (s.capAck).draws = if s.samples.isEmpty then s.draws + 1 else s.draws := rfl

/-! ### capCsum -/

@[simp] theorem State.capCsum_csum : (s.capCsum).csum = s.csum + s.captureValue := rfl
@[simp] theorem State.capCsum_rsum : (s.capCsum).rsum = s.rsum := rfl
@[simp] theorem State.capCsum_rpos : (s.capCsum).rpos = s.rpos := rfl
@[simp] theorem State.capCsum_fmask : (s.capCsum).fmask = s.fmask := rfl
@[simp] theorem State.capCsum_pos : (s.capCsum).pos = s.pos := rfl
@[simp] theorem State.capCsum_lenr : (s.capCsum).lenr = s.lenr := rfl
@[simp] theorem State.capCsum_first : (s.capCsum).first = s.first := rfl
@[simp] theorem State.capCsum_firstv : (s.capCsum).firstv = s.firstv := rfl
@[simp] theorem State.capCsum_ackc : (s.capCsum).ackc = s.ackc := rfl
@[simp] theorem State.capCsum_opr : (s.capCsum).opr = s.opr := rfl
@[simp] theorem State.capCsum_fsm : (s.capCsum).fsm = s.fsm := rfl
@[simp] theorem State.capCsum_busy : (s.capCsum).busy = s.busy := rfl
@[simp] theorem State.capCsum_seq : (s.capCsum).seq = s.seq := rfl
@[simp] theorem State.capCsum_allf : (s.capCsum).allf = s.allf := rfl
@[simp] theorem State.capCsum_err : (s.capCsum).err = s.err := rfl
@[simp] theorem State.capCsum_active : (s.capCsum).active = s.active := rfl
@[simp] theorem State.capCsum_txctl : (s.capCsum).txctl = s.txctl := rfl
@[simp] theorem State.capCsum_txlen : (s.capCsum).txlen = s.txlen := rfl
@[simp] theorem State.capCsum_rxctl : (s.capCsum).rxctl = s.rxctl := rfl
@[simp] theorem State.capCsum_rxlen : (s.capCsum).rxlen = s.rxlen := rfl
@[simp] theorem State.capCsum_budget : (s.capCsum).budget = s.budget := rfl
@[simp] theorem State.capCsum_timeout : (s.capCsum).timeout = s.timeout := rfl
@[simp] theorem State.capCsum_resMask : (s.capCsum).resMask = s.resMask := rfl
@[simp] theorem State.capCsum_resValue : (s.capCsum).resValue = s.resValue := rfl
@[simp] theorem State.capCsum_errPos : (s.capCsum).errPos = s.errPos := rfl
@[simp] theorem State.capCsum_errMask : (s.capCsum).errMask = s.errMask := rfl
@[simp] theorem State.capCsum_errByte : (s.capCsum).errByte = s.errByte := rfl
@[simp] theorem State.capCsum_rrem : (s.capCsum).rrem = s.rrem := rfl
@[simp] theorem State.capCsum_trem : (s.capCsum).trem = s.trem := rfl
@[simp] theorem State.capCsum_mem : (s.capCsum).mem = s.mem := rfl
@[simp] theorem State.capCsum_rst : (s.capCsum).rst = s.rst := rfl
@[simp] theorem State.capCsum_params : (s.capCsum).params = s.params := rfl
@[simp] theorem State.capCsum_port : (s.capCsum).port = s.port := rfl
@[simp] theorem State.capCsum_replies : (s.capCsum).replies = s.replies := rfl
@[simp] theorem State.capCsum_trace : (s.capCsum).trace = s.trace ++ [.sample 8 (s.sampleValue 8)] := rfl
@[simp] theorem State.capCsum_samples : (s.capCsum).samples = s.samples.tail := rfl
@[simp] theorem State.capCsum_levels : (s.capCsum).levels = s.levels := rfl
@[simp] theorem State.capCsum_draws : (s.capCsum).draws = if s.samples.isEmpty then s.draws + 1 else s.draws := rfl

/-! ### afterPoll -/

@[simp] theorem State.afterPoll_csum : (s.afterPoll).csum = s.csum := rfl
@[simp] theorem State.afterPoll_rsum : (s.afterPoll).rsum = s.rsum := rfl
@[simp] theorem State.afterPoll_rpos : (s.afterPoll).rpos = s.rpos := rfl
@[simp] theorem State.afterPoll_fmask : (s.afterPoll).fmask = s.fmask := rfl
@[simp] theorem State.afterPoll_pos : (s.afterPoll).pos = s.pos := rfl
@[simp] theorem State.afterPoll_lenr : (s.afterPoll).lenr = s.lenr := rfl
@[simp] theorem State.afterPoll_first : (s.afterPoll).first = s.first := rfl
@[simp] theorem State.afterPoll_firstv : (s.afterPoll).firstv = s.firstv := rfl
@[simp] theorem State.afterPoll_ackc : (s.afterPoll).ackc = s.ackc := rfl
@[simp] theorem State.afterPoll_opr : (s.afterPoll).opr = s.opr := rfl
@[simp] theorem State.afterPoll_fsm : (s.afterPoll).fsm = s.fsm := rfl
@[simp] theorem State.afterPoll_busy : (s.afterPoll).busy = s.busy := rfl
@[simp] theorem State.afterPoll_seq : (s.afterPoll).seq = s.seq := rfl
@[simp] theorem State.afterPoll_allf : (s.afterPoll).allf = s.allf := rfl
@[simp] theorem State.afterPoll_err : (s.afterPoll).err = s.err := rfl
@[simp] theorem State.afterPoll_active : (s.afterPoll).active = s.active := rfl
@[simp] theorem State.afterPoll_txctl : (s.afterPoll).txctl = s.txctl := rfl
@[simp] theorem State.afterPoll_txlen : (s.afterPoll).txlen = s.txlen := rfl
@[simp] theorem State.afterPoll_rxctl : (s.afterPoll).rxctl = s.rxctl := rfl
@[simp] theorem State.afterPoll_rxlen : (s.afterPoll).rxlen = s.rxlen := rfl
@[simp] theorem State.afterPoll_budget : (s.afterPoll).budget = s.budget := rfl
@[simp] theorem State.afterPoll_timeout : (s.afterPoll).timeout = s.timeout := rfl
@[simp] theorem State.afterPoll_resMask : (s.afterPoll).resMask = s.resMask := rfl
@[simp] theorem State.afterPoll_resValue : (s.afterPoll).resValue = s.resValue := rfl
@[simp] theorem State.afterPoll_errPos : (s.afterPoll).errPos = s.errPos := rfl
@[simp] theorem State.afterPoll_errMask : (s.afterPoll).errMask = s.errMask := rfl
@[simp] theorem State.afterPoll_errByte : (s.afterPoll).errByte = s.errByte := rfl
@[simp] theorem State.afterPoll_rrem : (s.afterPoll).rrem = s.rrem := rfl
@[simp] theorem State.afterPoll_trem : (s.afterPoll).trem = s.trem - 1 := rfl
@[simp] theorem State.afterPoll_mem : (s.afterPoll).mem = s.mem := rfl
@[simp] theorem State.afterPoll_rst : (s.afterPoll).rst = s.rst := rfl
@[simp] theorem State.afterPoll_params : (s.afterPoll).params = s.params := rfl
@[simp] theorem State.afterPoll_port : (s.afterPoll).port = s.port := rfl
@[simp] theorem State.afterPoll_replies : (s.afterPoll).replies = s.replies := rfl
@[simp] theorem State.afterPoll_trace : (s.afterPoll).trace = s.trace ++ [.level s.levelValue] := rfl
@[simp] theorem State.afterPoll_samples : (s.afterPoll).samples = s.samples := rfl
@[simp] theorem State.afterPoll_levels : (s.afterPoll).levels = s.levels.tail := rfl
@[simp] theorem State.afterPoll_draws : (s.afterPoll).draws = if s.levels.isEmpty then s.draws + 1 else s.draws := rfl

/-! ### afterSamples -/

@[simp] theorem State.afterSamples_csum (n k : Nat) : (s.afterSamples n k).csum = s.csum := rfl
@[simp] theorem State.afterSamples_rsum (n k : Nat) : (s.afterSamples n k).rsum = s.rsum := rfl
@[simp] theorem State.afterSamples_rpos (n k : Nat) : (s.afterSamples n k).rpos = s.rpos := rfl
@[simp] theorem State.afterSamples_fmask (n k : Nat) : (s.afterSamples n k).fmask = s.fmask := rfl
@[simp] theorem State.afterSamples_pos (n k : Nat) : (s.afterSamples n k).pos = s.pos := rfl
@[simp] theorem State.afterSamples_lenr (n k : Nat) : (s.afterSamples n k).lenr = s.lenr := rfl
@[simp] theorem State.afterSamples_first (n k : Nat) : (s.afterSamples n k).first = s.first := rfl
@[simp] theorem State.afterSamples_firstv (n k : Nat) : (s.afterSamples n k).firstv = s.firstv := rfl
@[simp] theorem State.afterSamples_ackc (n k : Nat) : (s.afterSamples n k).ackc = s.ackc := rfl
@[simp] theorem State.afterSamples_opr (n k : Nat) : (s.afterSamples n k).opr = s.opr := rfl
@[simp] theorem State.afterSamples_fsm (n k : Nat) : (s.afterSamples n k).fsm = s.fsm := rfl
@[simp] theorem State.afterSamples_busy (n k : Nat) : (s.afterSamples n k).busy = s.busy := rfl
@[simp] theorem State.afterSamples_seq (n k : Nat) : (s.afterSamples n k).seq = s.seq := rfl
@[simp] theorem State.afterSamples_allf (n k : Nat) : (s.afterSamples n k).allf = s.allf := rfl
@[simp] theorem State.afterSamples_err (n k : Nat) : (s.afterSamples n k).err = s.err := rfl
@[simp] theorem State.afterSamples_active (n k : Nat) : (s.afterSamples n k).active = s.active := rfl
@[simp] theorem State.afterSamples_txctl (n k : Nat) : (s.afterSamples n k).txctl = s.txctl := rfl
@[simp] theorem State.afterSamples_txlen (n k : Nat) : (s.afterSamples n k).txlen = s.txlen := rfl
@[simp] theorem State.afterSamples_rxctl (n k : Nat) : (s.afterSamples n k).rxctl = s.rxctl := rfl
@[simp] theorem State.afterSamples_rxlen (n k : Nat) : (s.afterSamples n k).rxlen = s.rxlen := rfl
@[simp] theorem State.afterSamples_budget (n k : Nat) : (s.afterSamples n k).budget = s.budget := rfl
@[simp] theorem State.afterSamples_timeout (n k : Nat) : (s.afterSamples n k).timeout = s.timeout := rfl
@[simp] theorem State.afterSamples_resMask (n k : Nat) : (s.afterSamples n k).resMask = s.resMask := rfl
@[simp] theorem State.afterSamples_resValue (n k : Nat) : (s.afterSamples n k).resValue = s.resValue := rfl
@[simp] theorem State.afterSamples_errPos (n k : Nat) : (s.afterSamples n k).errPos = s.errPos := rfl
@[simp] theorem State.afterSamples_errMask (n k : Nat) : (s.afterSamples n k).errMask = s.errMask := rfl
@[simp] theorem State.afterSamples_errByte (n k : Nat) : (s.afterSamples n k).errByte = s.errByte := rfl
@[simp] theorem State.afterSamples_rrem (n k : Nat) : (s.afterSamples n k).rrem = s.rrem := rfl
@[simp] theorem State.afterSamples_trem (n k : Nat) : (s.afterSamples n k).trem = s.trem := rfl
@[simp] theorem State.afterSamples_mem (n k : Nat) : (s.afterSamples n k).mem = s.mem := rfl
@[simp] theorem State.afterSamples_rst (n k : Nat) : (s.afterSamples n k).rst = s.rst := rfl
@[simp] theorem State.afterSamples_params (n k : Nat) : (s.afterSamples n k).params = s.params := rfl
@[simp] theorem State.afterSamples_port (n k : Nat) : (s.afterSamples n k).port = s.port := rfl
@[simp] theorem State.afterSamples_replies (n k : Nat) : (s.afterSamples n k).replies = s.replies := rfl
@[simp] theorem State.afterSamples_trace (n k : Nat) : (s.afterSamples n k).trace = s.trace ++ (s.samplesAhead n k).map (.sample n) := rfl
@[simp] theorem State.afterSamples_samples (n k : Nat) : (s.afterSamples n k).samples = s.samples.drop k := rfl
@[simp] theorem State.afterSamples_levels (n k : Nat) : (s.afterSamples n k).levels = s.levels := rfl
@[simp] theorem State.afterSamples_draws (n k : Nat) : (s.afterSamples n k).draws = s.draws + (k - s.samples.length) := rfl

/-! ### afterLevels -/

@[simp] theorem State.afterLevels_csum (k : Nat) : (s.afterLevels k).csum = s.csum := rfl
@[simp] theorem State.afterLevels_rsum (k : Nat) : (s.afterLevels k).rsum = s.rsum := rfl
@[simp] theorem State.afterLevels_rpos (k : Nat) : (s.afterLevels k).rpos = s.rpos := rfl
@[simp] theorem State.afterLevels_fmask (k : Nat) : (s.afterLevels k).fmask = s.fmask := rfl
@[simp] theorem State.afterLevels_pos (k : Nat) : (s.afterLevels k).pos = s.pos := rfl
@[simp] theorem State.afterLevels_lenr (k : Nat) : (s.afterLevels k).lenr = s.lenr := rfl
@[simp] theorem State.afterLevels_first (k : Nat) : (s.afterLevels k).first = s.first := rfl
@[simp] theorem State.afterLevels_firstv (k : Nat) : (s.afterLevels k).firstv = s.firstv := rfl
@[simp] theorem State.afterLevels_ackc (k : Nat) : (s.afterLevels k).ackc = s.ackc := rfl
@[simp] theorem State.afterLevels_opr (k : Nat) : (s.afterLevels k).opr = s.opr := rfl
@[simp] theorem State.afterLevels_fsm (k : Nat) : (s.afterLevels k).fsm = s.fsm := rfl
@[simp] theorem State.afterLevels_busy (k : Nat) : (s.afterLevels k).busy = s.busy := rfl
@[simp] theorem State.afterLevels_seq (k : Nat) : (s.afterLevels k).seq = s.seq := rfl
@[simp] theorem State.afterLevels_allf (k : Nat) : (s.afterLevels k).allf = s.allf := rfl
@[simp] theorem State.afterLevels_err (k : Nat) : (s.afterLevels k).err = s.err := rfl
@[simp] theorem State.afterLevels_active (k : Nat) : (s.afterLevels k).active = s.active := rfl
@[simp] theorem State.afterLevels_txctl (k : Nat) : (s.afterLevels k).txctl = s.txctl := rfl
@[simp] theorem State.afterLevels_txlen (k : Nat) : (s.afterLevels k).txlen = s.txlen := rfl
@[simp] theorem State.afterLevels_rxctl (k : Nat) : (s.afterLevels k).rxctl = s.rxctl := rfl
@[simp] theorem State.afterLevels_rxlen (k : Nat) : (s.afterLevels k).rxlen = s.rxlen := rfl
@[simp] theorem State.afterLevels_budget (k : Nat) : (s.afterLevels k).budget = s.budget := rfl
@[simp] theorem State.afterLevels_timeout (k : Nat) : (s.afterLevels k).timeout = s.timeout := rfl
@[simp] theorem State.afterLevels_resMask (k : Nat) : (s.afterLevels k).resMask = s.resMask := rfl
@[simp] theorem State.afterLevels_resValue (k : Nat) : (s.afterLevels k).resValue = s.resValue := rfl
@[simp] theorem State.afterLevels_errPos (k : Nat) : (s.afterLevels k).errPos = s.errPos := rfl
@[simp] theorem State.afterLevels_errMask (k : Nat) : (s.afterLevels k).errMask = s.errMask := rfl
@[simp] theorem State.afterLevels_errByte (k : Nat) : (s.afterLevels k).errByte = s.errByte := rfl
@[simp] theorem State.afterLevels_rrem (k : Nat) : (s.afterLevels k).rrem = s.rrem := rfl
@[simp] theorem State.afterLevels_trem (k : Nat) : (s.afterLevels k).trem = s.trem := rfl
@[simp] theorem State.afterLevels_mem (k : Nat) : (s.afterLevels k).mem = s.mem := rfl
@[simp] theorem State.afterLevels_rst (k : Nat) : (s.afterLevels k).rst = s.rst := rfl
@[simp] theorem State.afterLevels_params (k : Nat) : (s.afterLevels k).params = s.params := rfl
@[simp] theorem State.afterLevels_port (k : Nat) : (s.afterLevels k).port = s.port := rfl
@[simp] theorem State.afterLevels_replies (k : Nat) : (s.afterLevels k).replies = s.replies := rfl
@[simp] theorem State.afterLevels_trace (k : Nat) : (s.afterLevels k).trace = s.trace ++ (List.range k).map fun j => .level (s.levelAt j) := rfl
@[simp] theorem State.afterLevels_samples (k : Nat) : (s.afterLevels k).samples = s.samples := rfl
@[simp] theorem State.afterLevels_levels (k : Nat) : (s.afterLevels k).levels = s.levels.drop k := rfl
@[simp] theorem State.afterLevels_draws (k : Nat) : (s.afterLevels k).draws = s.draws + (k - s.levels.length) := rfl

end Sys2Proof.Machine
end

