-- ==== Sys2Proof/Laws/Ops.lean ====
section
/-! SUPPORT. What the shared operations do, said once: acceptance, flows, events, the loops of the commands. -/

namespace Sys2Proof.Machine

/-! ### Flows -/

@[simp] theorem Flow.go_andThen (s : State) (k : State → Flow) : (Flow.go s).andThen k = k s := rfl

@[simp] theorem Flow.raised_andThen (s : State) (k : State → Flow) : (Flow.raised s).andThen k = .raised s := rfl

@[simp] theorem Flow.stop_andThen (f : Fault) (k : State → Flow) : (Flow.stop f).andThen k = .stop f := rfl

@[simp] theorem Flow.go_outcome (s : State) : (Flow.go s).outcome = .next s := rfl

@[simp] theorem Flow.raised_outcome (s : State) : (Flow.raised s).outcome = .next s := rfl

@[simp] theorem Flow.stop_outcome (f : Fault) : (Flow.stop f).outcome = .fault f := rfl

theorem Flow.andThen_assoc (x : Flow) (f g : State → Flow) :
    (x.andThen f).andThen g = x.andThen fun s => (f s).andThen g := by
  cases x <;> rfl

/-- A flow goes on past `andThen` only if both parts do. -/
theorem Flow.andThen_eq_go {x : Flow} {k : State → Flow} {t : State} (h : x.andThen k = .go t) :
    ∃ u, x = .go u ∧ k u = .go t := by
  cases x with
  | go u => exact ⟨u, rfl, h⟩
  | raised u => simp at h
  | stop f => simp at h

/-- An outcome is a next state only where the flow ran to its end or was ended by a `raise`. -/
theorem Flow.outcome_eq_next {x : Flow} {t : State} (h : x.outcome = .next t) : x = .go t ∨ x = .raised t := by
  cases x with
  | go u => exact .inl (by simpa using h)
  | raised u => exact .inr (by simpa using h)
  | stop f => simp at h

/-- No flow is refused: a command body never answers with a refusal. -/
theorem Flow.outcome_ne_refused (x : Flow) (r : Refusal) : x.outcome ≠ .refused r := by
  cases x <;> simp

/-! ### Acceptance (R250) -/

theorem State.accept_busy (s : State) (w : Word) (l : Bool) (run : State → Host.Outcome State Fault Refusal)
    (h : s.busy = true) : s.accept w l run = .next s.refuse := by
  simp [State.accept, h]

theorem State.accept_error (s : State) (w : Word) (l : Bool) (run : State → Host.Outcome State Fault Refusal)
    (h : s.err ≠ 0) : s.accept w l run = .next s.refuse := by
  simp only [State.accept, ne_eq, h, not_false_eq_true, if_true, ite_self]

theorem State.accept_run (s : State) (w : Word) (run : State → Host.Outcome State Fault Refusal) (h : s.ready) :
    s.accept w true run = run s := by
  simp [State.accept, h.1, h.2]

theorem State.accept_illegal (s : State) (w : Word) (run : State → Host.Outcome State Fault Refusal) (h : s.ready) :
    s.accept w false run = .next (s.raiseError .illegalCommand 0 0 (wordOp w)) := by
  simp [State.accept, h.1, h.2]

/-- What acceptance can answer: a refusal of the host's access, an IllegalCommand, or the command's run. -/
theorem State.accept_cases (s : State) (w : Word) (l : Bool) (run : State → Host.Outcome State Fault Refusal) :
    (s.accept w l run = .next s.refuse ∧ ¬ s.ready) ∨
    (s.accept w l run = .next (s.raiseError .illegalCommand 0 0 (wordOp w)) ∧ s.ready ∧ l = false) ∨
    (s.accept w l run = run s ∧ s.ready ∧ l = true) := by
  by_cases hb : s.busy = true
  · exact .inl ⟨s.accept_busy w l run hb, fun h => by simp [h.1] at hb⟩
  · by_cases he : s.err = 0
    · have hr : s.ready := ⟨by simpa using hb, he⟩
      cases l
      · exact .inr (.inl ⟨s.accept_illegal w run hr, hr, rfl⟩)
      · exact .inr (.inr ⟨s.accept_run w run hr, hr, rfl⟩)
    · exact .inl ⟨s.accept_error w l run he, fun h => he h.2⟩

/-! ### Error entry (R280) -/

/-- With no error recorded, error entry records this one. -/
theorem State.raiseError_of_clear (s : State) (k : ErrKind) (p : Half) (m : Mask) (b : Byte) (h : s.err = 0) :
    s.raiseError k p m b =
      { s with fsm := .idle, busy := false, err := k.code, errPos := p, errMask := m, errByte := b } := by
  simp [State.raiseError, h]

/-- With an error recorded, error entry only makes the block idle. -/
theorem State.raiseError_of_set (s : State) (k : ErrKind) (p : Half) (m : Mask) (b : Byte) (h : s.err ≠ 0) :
    s.raiseError k p m b = { s with fsm := .idle, busy := false } := by
  simp only [State.raiseError, h, if_false]

/-! ### Command end (R29) -/

/-- A command end with no error recorded before: the error is the last mask's, if that is not 0. -/
theorem State.finish_of_clear (s : State) (k : ErrKind) (p : Half) (h : s.err = 0) :
    s.finish k p =
      { s with
        fsm := .idle
        busy := false
        err := if s.resMask = 0 then 0 else k.code
        errPos := if s.resMask = 0 then s.errPos else p
        errMask := if s.resMask = 0 then s.errMask else s.resMask
        errByte := if s.resMask = 0 then s.errByte else 0x00 } := by
  unfold State.finish
  split
  · simp [State.endCommand, *]
  · rw [State.raiseError_of_clear s.endCommand _ _ _ _ h]
    simp [State.endCommand, *]

/-! ### Runs of sends (R8) -/

/-- The state after sending some covered bytes. -/
theorem State.foldl_sendCovered (vs : List Byte) (s : State) :
    vs.foldl State.sendCovered s =
      { s with trace := s.trace ++ vs.map (.send s.active), csum := s.csum + byteSum vs } := by
  induction vs generalizing s with
  | nil => simp [byteSum]
  | cons v rest ih => simp [ih, State.sendCovered, byteSum, BitVec.add_assoc]

/-- Sending `k` payload bytes that the buffer holds from offset POS on. -/
theorem sendPayload_go (vs : List Byte) (s : State) (hroom : s.pos.toNat + vs.length < 65536)
    (hold : ∀ i (h : i < vs.length), s.mem.read (Buf.tx.addr (s.pos.toNat + i)) = some vs[i]) :
    sendPayload vs.length s = .go
      { s with
        trace := s.trace ++ vs.map (.send s.active)
        csum := s.csum + byteSum vs
        pos := s.pos + BitVec.ofNat 16 vs.length } := by
  induction vs generalizing s with
  | nil => simp [sendPayload, byteSum]
  | cons v rest ih =>
    have h0 := hold 0 (by simp)
    simp only [Nat.add_zero, List.getElem_cons_zero] at h0
    simp only [List.length_cons] at hroom
    have hp : (s.pos + 1).toNat = s.pos.toNat + 1 := by
      rw [BitVec.toNat_add]; exact Nat.mod_eq_of_lt (by simp; omega)
    simp only [List.length_cons, sendPayload, State.bufAtPos, h0]
    rw [ih]
    · simp only [State.sendCovered, byteSum, List.map_cons, List.append_assoc, List.cons_append, List.nil_append,
        BitVec.add_assoc]
      rw [Nat.add_comm, BitVec.ofNat_add]
      rfl
    · simp only [hp]; omega
    · intro i hi
      have := hold (i + 1) (by simpa using hi)
      simp only [List.getElem_cons_succ] at this
      simp only [hp, State.sendCovered_mem]
      rw [← this]; congr 2; omega

/-- A payload byte that nothing has written stops the transmission there. -/
theorem sendPayload_stop (vs : List Byte) (k : Nat) (s : State) (hk : vs.length < k)
    (hroom : s.pos.toNat + k < 65536)
    (hold : ∀ i (h : i < vs.length), s.mem.read (Buf.tx.addr (s.pos.toNat + i)) = some vs[i])
    (hno : s.mem.read (Buf.tx.addr (s.pos.toNat + vs.length)) = none) :
    sendPayload k s = .stop (.unwrittenByte .tx (s.pos.toNat + vs.length)) := by
  induction vs generalizing s k with
  | nil =>
    obtain ⟨k, rfl⟩ : ∃ j, k = j + 1 := ⟨k - 1, by simp at hk; omega⟩
    simp only [List.length_nil, Nat.add_zero] at hno
    simp [sendPayload, State.bufAtPos, hno]
  | cons v rest ih =>
    obtain ⟨k, rfl⟩ : ∃ j, k = j + 1 := ⟨k - 1, by simp at hk; omega⟩
    have h0 := hold 0 (by simp)
    simp only [Nat.add_zero, List.getElem_cons_zero] at h0
    simp only [List.length_cons] at hroom hk hno
    have hp : (s.pos + 1).toNat = s.pos.toNat + 1 := by
      rw [BitVec.toNat_add]; exact Nat.mod_eq_of_lt (by simp; omega)
    simp only [sendPayload, State.bufAtPos, h0]
    rw [ih _ _ (by omega)]
    · simp only [hp, List.length_cons]; congr 2; omega
    · simp only [hp]; omega
    · intro i hi
      have := hold (i + 1) (by simpa using hi)
      simp only [List.getElem_cons_succ] at this
      simp only [hp, State.sendCovered_mem]
      rw [← this]; congr 2; omega
    · simp only [hp, State.sendCovered_mem]
      rw [← hno]; congr 2; omega

/-! ### Runs of samples (R8) -/

/-- The next sample is the one at index 0. -/
theorem State.sampleValue_eq (s : State) (n : Nat) : s.sampleValue n = s.sampleAt n 0 := by
  unfold State.sampleValue State.sampleAt
  cases s.samples <;> simp

/-- A sample moves the later ones up by one. -/
theorem State.afterSample_sampleAt (s : State) (n m j : Nat) :
    (s.afterSample n).sampleAt m j = s.sampleAt m (j + 1) := by
  simp only [State.sampleAt, State.afterSample_samples, State.afterSample_draws]
  cases h : s.samples with
  | nil => simp; congr 2; omega
  | cons o rest => simp

@[simp] theorem State.afterSamples_zero (s : State) (n : Nat) : s.afterSamples n 0 = s := by
  simp [State.afterSamples, State.samplesAhead]

/-- A run of samples is the first one and then the rest. -/
theorem State.afterSamples_succ (s : State) (n k : Nat) :
    s.afterSamples n (k + 1) = (s.afterSample n).afterSamples n k := by
  have hs : (s.afterSample n).samplesAhead n k = (List.range k).map fun j => s.sampleAt n (j + 1) := by
    simp [State.samplesAhead, State.afterSample_sampleAt]
  simp only [State.afterSamples, hs]
  simp only [State.afterSample, State.samplesAhead, List.range_succ_eq_map, List.map_cons, List.map_map,
    Function.comp_def, ← State.sampleValue_eq]
  cases h : s.samples with
  | nil => simp; omega
  | cons o rest => simp

@[simp] theorem State.samplesAhead_length (s : State) (n k : Nat) : (s.samplesAhead n k).length = k := by
  simp [State.samplesAhead]

/-- The samples ahead are the next one and then those ahead of it. -/
theorem State.samplesAhead_succ (s : State) (n k : Nat) :
    s.samplesAhead n (k + 1) = s.sampleValue n :: (s.afterSample n).samplesAhead n k := by
  simp only [State.samplesAhead, List.range_succ_eq_map, List.map_cons, List.map_map, Function.comp_def,
    State.sampleValue_eq]
  congr 2; funext j; exact (State.afterSample_sampleAt s n n j).symm

/-- The bytes a capture reads next are the next one and then those ahead of it. -/
theorem State.captureAhead_succ (s : State) (k : Nat) :
    s.captureAhead (k + 1) = s.captureValue :: (s.afterSample 8).captureAhead k := by
  simp [State.captureAhead, State.samplesAhead_succ, State.captureValue]

@[simp] theorem State.captureAhead_length (s : State) (k : Nat) : (s.captureAhead k).length = k := by
  simp [State.captureAhead]

/-- Sample values depend on the answers and the draw counter only. -/
theorem State.sampleAt_congr {s t : State} (h1 : s.samples = t.samples) (h2 : s.draws = t.draws) (n j : Nat) :
    s.sampleAt n j = t.sampleAt n j := by
  simp [State.sampleAt, h1, h2]

/-- The samples ahead depend on the answers and the draw counter only. -/
theorem State.samplesAhead_congr {s t : State} (h1 : s.samples = t.samples) (h2 : s.draws = t.draws) (n k : Nat) :
    s.samplesAhead n k = t.samplesAhead n k := by
  simp [State.samplesAhead, State.sampleAt, h1, h2]

/-- The bytes ahead depend on the answers, the draw counter and ACTIVE only. -/
theorem State.captureAhead_congr {s t : State} (h1 : s.samples = t.samples) (h2 : s.draws = t.draws)
    (h3 : s.active = t.active) (k : Nat) : s.captureAhead k = t.captureAhead k := by
  simp [State.captureAhead, State.samplesAhead_congr h1 h2, h3]

/-- Capturing `k` payload bytes (R193). -/
theorem capPayload_eq (k : Nat) (s : State) (hroom : s.rpos.toNat + k < 65536) :
    capPayload k s =
      { s.afterSamples 8 k with
        mem := storeBytes (Buf.rx.addr s.rpos.toNat) (s.captureAhead k) s.mem
        rpos := s.rpos + BitVec.ofNat 16 k
        rsum := s.rsum + byteSum (s.captureAhead k)
        csum := s.csum + byteSum (s.captureAhead k)
        pos := s.pos + BitVec.ofNat 16 k } := by
  induction k generalizing s with
  | zero => simp [capPayload, State.captureAhead, State.samplesAhead, storeBytes, byteSum]
  | succ k ih =>
    have hp : (s.rpos + 1).toNat = s.rpos.toNat + 1 := by
      rw [BitVec.toNat_add]; exact Nat.mod_eq_of_lt (by simp; omega)
    have hc : s.capPayloadByte.captureAhead k = (s.afterSample 8).captureAhead k :=
      State.captureAhead_congr rfl rfl rfl k
    have ha : s.capPayloadByte.afterSamples 8 k =
        { (s.afterSample 8).afterSamples 8 k with
          mem := s.capPayloadByte.mem
          rpos := s.capPayloadByte.rpos
          rsum := s.capPayloadByte.rsum
          csum := s.capPayloadByte.csum
          pos := s.capPayloadByte.pos } := by
      have hs : s.capPayloadByte.samplesAhead 8 k = (s.afterSample 8).samplesAhead 8 k :=
        State.samplesAhead_congr rfl rfl 8 k
      simp only [State.afterSamples, hs]
      rfl
    have h1 : (1 : Half) + BitVec.ofNat 16 k = BitVec.ofNat 16 (k + 1) := by
      rw [Nat.add_comm, BitVec.ofNat_add]; rfl
    rw [capPayload, ih _ (by rw [State.capPayloadByte_rpos, hp]; omega), hc, ha]
    simp only [State.capPayloadByte_rpos, State.capPayloadByte_rsum, State.capPayloadByte_csum,
      State.capPayloadByte_pos, State.capPayloadByte_mem, State.afterSamples_succ, State.captureAhead_succ, byteSum,
      storeBytes, BitVec.add_assoc, hp, Buf.addr, Nat.add_assoc, h1]

/-! ### The Len field (R94) -/

theorem lenFits_iff (plen : Half) (ackEn : Bool) : lenFits plen ackEn = true ↔ plen.toNat + ackEn.toNat ≤ 0xFFFF :=
  decide_eq_true_iff

/-- Where it fits, the Len field is the payload length plus the ack byte. -/
theorem toNat_add_bitHalf {plen : Half} {ackEn : Bool} (h : lenFits plen ackEn = true) :
    (plen + bitHalf ackEn).toNat = plen.toNat + ackEn.toNat := by
  have := (lenFits_iff plen ackEn).1 h
  cases ackEn <;> simp [bitHalf, BitVec.toNat_add] at this ⊢; omega

theorem State.txLenOk_iff (s : State) :
    s.txLenOk = true ↔ s.txlen.toNat ≤ s.params.pageMax ∧ s.txlen.toNat + s.txctl.ackEn.toNat ≤ 0xFFFF := by
  simp [State.txLenOk, lenFits_iff]

theorem State.rxLenOk_iff (s : State) :
    s.rxLenOk = true ↔ s.rxlen.toNat ≤ s.params.pageMax ∧ s.rxlen.toNat + s.rxctl.ackEn.toNat ≤ 0xFFFF := by
  simp [State.rxLenOk, lenFits_iff]

/-- With the parameters in their range only PAGE_MAX bounds a transmitted payload. -/
theorem State.txLenOk_of_wf {s : State} (h : s.params.wf) : s.txLenOk = decide (s.txlen.toNat ≤ s.params.pageMax) := by
  rw [Bool.eq_iff_iff, State.txLenOk_iff, decide_eq_true_iff]
  have := s.txctl.ackEn.toNat_le
  obtain ⟨_, _, _⟩ := h
  omega

/-- With the parameters in their range only PAGE_MAX bounds a received payload. -/
theorem State.rxLenOk_of_wf {s : State} (h : s.params.wf) : s.rxLenOk = decide (s.rxlen.toNat ≤ s.params.pageMax) := by
  rw [Bool.eq_iff_iff, State.rxLenOk_iff, decide_eq_true_iff]
  have := s.rxctl.ackEn.toNat_le
  obtain ⟨_, _, _⟩ := h
  omega

theorem State.txLenField_toNat {s : State} (h : s.txLenOk = true) :
    s.txLenField.toNat = s.txlen.toNat + s.txctl.ackEn.toNat :=
  toNat_add_bitHalf (Bool.and_eq_true_iff.1 h).2

theorem State.rxLenField_toNat {s : State} (h : s.rxLenOk = true) :
    s.rxLenField.toNat = s.rxlen.toNat + s.rxctl.ackEn.toNat :=
  toNat_add_bitHalf (Bool.and_eq_true_iff.1 h).2

/-! ### Agreement on the active channels -/

theorem Lanes.agree.refl (act : Mask) (o : Lanes) : Lanes.agree act o o :=
  ⟨fun _ => rfl, fun _ => rfl, fun _ => rfl, fun _ => rfl⟩

theorem Event.agree_refl (act : Mask) (e : Event) : Event.agree act e e := by
  cases e <;> simp [Event.agree, Lanes.agree.refl]

/-- The bit count cuts both answers alike. -/
theorem Lanes.agree.lanesLow {act : Mask} {o o' : Lanes} (h : Lanes.agree act o o') (n : Nat) :
    Lanes.agree act (Machine.lanesLow n o) (Machine.lanesLow n o') := by
  obtain ⟨h0, h1, h2, h3⟩ := h
  constructor <;> intro ha <;> simp [Machine.lanesLow, *]

end Sys2Proof.Machine
end

