-- ==== Sys2Proof/Laws/Loops.lean ====
section
/-! SUPPORT. What the loops of the commands come to: the polls of WAITLVL and the attempts of a retry, and what a
captured byte can do. -/

namespace Sys2Proof.Machine

/-! ### Runs of polls (R8, R153) -/

/-- The next level is the one at index 0. -/
theorem State.levelValue_eq (s : State) : s.levelValue = s.levelAt 0 := by
  unfold State.levelValue State.levelAt
  cases s.levels <;> simp

/-- A poll moves the later levels up by one. -/
theorem State.afterLevel_levelAt (s : State) (j : Nat) : s.afterLevel.levelAt j = s.levelAt (j + 1) := by
  simp only [State.levelAt, State.afterLevel_levels, State.afterLevel_draws]
  cases h : s.levels with
  | nil => simp; congr 1; omega
  | cons o rest => simp

/-- Level values depend on the answers and the draw counter only. -/
theorem State.levelAt_congr {s t : State} (h1 : s.levels = t.levels) (h2 : s.draws = t.draws) (j : Nat) :
    s.levelAt j = t.levelAt j := by
  simp [State.levelAt, h1, h2]

/-- A run of levels is the first one and then the rest. -/
theorem State.afterLevels_succ (s : State) (k : Nat) : s.afterLevels (k + 1) = s.afterLevel.afterLevels k := by
  have hs : (List.range k).map (fun j => Event.level (s.afterLevel.levelAt j)) =
      (List.range k).map fun j => Event.level (s.levelAt (j + 1)) := by
    simp [State.afterLevel_levelAt]
  simp only [State.afterLevels, hs, List.range_succ_eq_map, List.map_cons, List.map_map, Function.comp_def]
  simp only [State.afterLevel, ← State.levelValue_eq]
  cases h : s.levels with
  | nil => simp; omega
  | cons o rest => simp

/-- The mask of the `j`-th poll from here on (R153). -/
def State.pollMaskAt (s : State) (l : Bool) (j : Nat) : Mask := s.active &&& (s.levelAt j ^^^ rep4 l)

/-- What the polls of one attempt come to, TREM holding how many are left (R153). -/
theorem pollLoop_eq (l : Bool) (k : Nat) (s : State) (hs : s.trem.toNat = k) (hk : 1 ≤ k) :
    ∃ j, 1 ≤ j ∧ j ≤ k ∧ (∀ i, i + 1 < j → s.pollMaskAt l i ≠ 0) ∧ (s.pollMaskAt l (j - 1) = 0 ∨ j = k) ∧
      pollLoop l k s =
        ({ s.afterLevels j with trem := s.trem - BitVec.ofNat 32 j } : State).writeResult
          (s.pollMaskAt l (j - 1)) 0x00 := by
  induction k generalizing s with
  | zero => omega
  | succ k ih =>
    have hp : s.pollMask l = s.pollMaskAt l 0 := by simp [State.pollMask, State.pollMaskAt, s.levelValue_eq]
    have ht : (s.trem - 1).toNat = k := by
      rw [BitVec.toNat_sub_of_le (by simp [BitVec.le_def]; omega), hs]; rfl
    have h1 : s.afterLevels 1 = s.afterLevel := by
      rw [State.afterLevels_succ]; simp [State.afterLevels, State.afterLevel]
    rw [pollLoop]
    split
    · rename_i h
      refine ⟨1, le_refl _, by omega, fun i hi => by omega, ?_, ?_⟩
      · rcases h with h | h
        · exact .inl (hp ▸ h)
        · refine .inr ?_
          have : s.trem - 1 = 0 := h
          rw [this] at ht; simp at ht; omega
      · rw [hp, h1]; rfl
    · rename_i h
      push Not at h
      have hk0 : k ≠ 0 := by
        rintro rfl
        exact h.2 (BitVec.eq_of_toNat_eq ht)
      obtain ⟨j, hj1, hj2, hne, hend, heq⟩ := ih s.afterPoll ht (by omega)
      have hmask : ∀ i, s.afterPoll.pollMaskAt l i = s.pollMaskAt l (i + 1) := by
        intro i
        have : s.afterPoll.levelAt i = s.levelAt (i + 1) := by
          rw [← State.afterLevel_levelAt]; exact State.levelAt_congr rfl rfl i
        simp only [State.pollMaskAt, this]; rfl
      refine ⟨j + 1, by omega, by omega, ?_, ?_, ?_⟩
      · intro i hi
        cases i with
        | zero => exact hp ▸ h.1
        | succ i => rw [← hmask]; exact hne i (by omega)
      · rw [hmask, show j - 1 + 1 = j by omega] at hend
        rcases hend with h | h
        · exact .inl h
        · exact .inr (by omega)
      · have ha : s.afterPoll.afterLevels j =
            { s.afterLevel.afterLevels j with trem := s.trem - 1 } := by
          have : (fun j => Event.level (s.afterPoll.levelAt j)) = fun j => Event.level (s.afterLevel.levelAt j) := by
            funext j; rw [State.levelAt_congr (s := s.afterPoll) (t := s.afterLevel) rfl rfl]
          simp only [State.afterLevels, this]
          rfl
        have hx : s.trem - 1 - BitVec.ofNat 32 j = s.trem - BitVec.ofNat 32 (j + 1) := by
          rw [BitVec.sub_sub, Nat.add_comm j, BitVec.ofNat_add]; rfl
        rw [heq, hmask, show j - 1 + 1 = j by omega, ha, State.afterLevels_succ, Nat.add_sub_cancel, ← hx]
        rfl

/-! ### Attempts (R230) -/

/-- An attempt that left a mask before a chain of attempts. -/
theorem Attempts.cons {attempt : State → Flow} {k : Nat} {s t u : State}
    (h : attempt { s with rrem := s.rrem - 1 } = .go t) (hm : t.resMask ≠ 0) (hc : Attempts attempt k t u) :
    Attempts attempt (k + 1) s u := by
  induction hc with
  | one h2 => exact .more (.one h) hm h2
  | more _ hm2 h2 ih => exact .more (ih h hm) hm2 h2

/-- A retry loop over an attempt that keeps RREM and is not ended by a `raise`: it stops at an attempt that stops, or
leaves a chain of attempts (R230). -/
theorem retryLoop_cases (attempt : State → Flow) (hkeep : ∀ s t, attempt s = .go t → t.rrem = s.rrem)
    (hraise : ∀ s t, attempt s ≠ .raised t) (k : Nat) (s : State) (hs : s.rrem.toNat = k) (hk : 1 ≤ k) :
    (∃ f, retryLoop attempt k s = .stop f) ∨
    ∃ j t, retryLoop attempt k s = .go t ∧ 1 ≤ j ∧ j ≤ k ∧ Attempts attempt j s t ∧ (t.resMask = 0 ∨ j = k) ∧
      t.rrem.toNat = k - j := by
  induction k generalizing s with
  | zero => omega
  | succ k ih =>
    have ht : (s.rrem - 1).toNat = k := by
      rw [BitVec.toNat_sub_of_le (by simp [BitVec.le_def]; omega), hs]; rfl
    rw [retryLoop]
    cases ha : attempt { s with rrem := s.rrem - 1 } with
    | stop f => exact .inl ⟨f, rfl⟩
    | raised t => exact absurd ha (hraise _ t)
    | go t =>
      have hr : t.rrem = s.rrem - 1 := hkeep _ t ha
      rw [Flow.go_andThen]
      split
      · rename_i h
        refine .inr ⟨1, t, rfl, le_refl _, by omega, .one ha, ?_, by rw [hr, ht]; rfl⟩
        rcases h with h | h
        · exact .inl h
        · rw [← hr, h] at ht; exact .inr (by simp at ht; omega)
      · rename_i h
        push Not at h
        have hk0 : k ≠ 0 := by
          rintro rfl
          exact h.2 (BitVec.eq_of_toNat_eq (hr ▸ ht))
        rcases ih t (hr ▸ ht) (by omega) with ⟨f, hf⟩ | ⟨j, u, hu, h1, h2, h3, h4, h5⟩
        · exact .inl ⟨f, hf⟩
        · refine .inr ⟨j + 1, u, hu, by omega, by omega, .cons ha h.1 h3, ?_, by omega⟩
          rcases h4 with h4 | h4
          · exact .inl h4
          · exact .inr (by omega)

/-! ### Captured bytes (R193, R194, R195) -/

/-- A structural byte is the expected one, or ends the frame as a FrameDecodeError. -/
theorem capStructural_cases (e : Byte) (idx : Half) (covered : Bool) (s : State) :
    (s.captureValue = e ∧ capStructural e idx covered s =
      .go { s.afterSample 8 with csum := if covered then s.csum + e else s.csum }) ∨
    (s.captureValue ≠ e ∧ capStructural e idx covered s =
      .raised (((s.afterSample 8).writeResult 0 s.ackc).raiseError .frameDecodeError idx 0 s.captureValue)) := by
  unfold capStructural
  by_cases h : s.captureValue = e
  · exact .inl ⟨h, by rw [if_pos h, h]⟩
  · exact .inr ⟨h, by rw [if_neg h]; rfl⟩

/-- The sum of a captured frame is 0, or ends it as a ChecksumError that records the sum. -/
theorem capCheckSum_cases (s : State) :
    (s.csum = 0x00 ∧ capCheckSum s = .go s) ∨
    (s.csum ≠ 0x00 ∧ capCheckSum s =
      .raised ((s.writeResult 0 s.ackc).raiseError .checksumError (3 + s.lenr) 0 s.csum)) := by
  unfold capCheckSum
  by_cases h : s.csum = 0x00
  · exact .inl ⟨h, by rw [if_pos h]⟩
  · exact .inr ⟨h, by rw [if_neg h]; rfl⟩

end Sys2Proof.Machine
end

