-- ==== Sys2Proof/Laws/ByteLevel.lean ====
section
/-! SUPPORT. The phases of the byte-level FSM beside the parts of the command bodies they stand for (R11, R26 to R29):
each lemma takes the FSM from the first state of a phase to the state after it. -/

namespace Sys2Proof.Machine

/-- The same state with the FSM in the state `f`. -/
def State.atFsm (s : State) (f : Fsm) : State := { s with fsm := f }

/-- Left to itself the block comes from `s` to the outcome `x` in some number of steps. -/
def Leads (s : State) (x : Host.Outcome State Fault Refusal) : Prop := ∃ k, Host.Core.run Sys2Proof.core k s = x

/-- The host is silent and `rst` is released. -/
abbrev State.silent (s : State) : Prop := s.port = [] ∧ s.rst = false

/-- What the phases of an attempt leave alone. -/
structure Same (s t : State) : Prop where
  port : t.port = s.port
  rst : t.rst = s.rst
  opr : t.opr = s.opr
  rrem : t.rrem = s.rrem
  timeout : t.timeout = s.timeout

theorem Same.refl (s : State) : Same s s := ⟨rfl, rfl, rfl, rfl, rfl⟩

theorem Same.trans {s t u : State} (h : Same s t) (k : Same t u) : Same s u :=
  ⟨k.port.trans h.port, k.rst.trans h.rst, k.opr.trans h.opr, k.rrem.trans h.rrem, k.timeout.trans h.timeout⟩

theorem Same.silent {s t : State} (h : Same s t) (hs : s.silent) : t.silent :=
  ⟨h.port.trans hs.1, h.rst.trans hs.2⟩

theorem Leads.refl (s : State) : Leads s (.next s) := ⟨0, rfl⟩

/-- A silent step of the block is one step of its FSM. -/
theorem step_silent (s : State) (h : s.silent) : step s = s.fsmFlow.outcome := by
  simp [step, machineStep, h.1, blockStep, h.2]

theorem Leads.next {s t : State} {x : Host.Outcome State Fault Refusal} (h : s.silent)
    (hs : s.fsmFlow.outcome = .next t) (ht : Leads t x) : Leads s x := by
  obtain ⟨k, hk⟩ := ht
  refine ⟨k + 1, ?_⟩
  have : Sys2Proof.core.step s = .next t := (step_silent s h).trans hs
  simp only [Host.Core.run, this]
  exact hk

theorem Leads.stop {s : State} {f : Fault} (h : s.silent) (hs : s.fsmFlow.outcome = .fault f) :
    Leads s (.fault f) := by
  refine ⟨1, ?_⟩
  have : Sys2Proof.core.step s = .fault f := (step_silent s h).trans hs
  simp only [Host.Core.run, this]
  rfl

/-! ### Transmit (R27) -/

/-- TX_PAYLOAD to TX_CSUM. -/
theorem leads_txPayload (K : State → Flow) (k : Nat) (s : State) (hs : s.silent) (hk : 1 ≤ k)
    (hpos : s.pos.toNat + k = s.txlen.toNat)
    (hK : ∀ t, Same s t → Leads (t.atFsm .txCsum) (K t).outcome) :
    Leads (s.atFsm .txPayload) ((sendPayload k s).andThen K).outcome := by
  induction k generalizing s with
  | zero => omega
  | succ k ih =>
    have hlt := s.txlen.isLt
    have hp : (s.pos + 1).toNat = s.pos.toNat + 1 := by
      rw [BitVec.toNat_add]; exact Nat.mod_eq_of_lt (by simp; omega)
    rw [sendPayload]
    cases hb : s.bufAtPos .tx with
    | none =>
      refine Leads.stop hs ?_
      show (s.atFsm .txPayload).stepTxPayload.outcome = _
      unfold State.stepTxPayload
      rw [show (s.atFsm .txPayload).bufAtPos .tx = none from hb]
      rfl
    | some v =>
      refine Leads.next hs (t := ({ s.sendCovered v with pos := s.pos + 1 } : State).atFsm
        (if s.pos + 1 < s.txlen then .txPayload else .txCsum)) ?_ ?_
      · show (s.atFsm .txPayload).stepTxPayload.outcome = _
        unfold State.stepTxPayload
        rw [show (s.atFsm .txPayload).bufAtPos .tx = some v from hb]
        rfl
      · have hsame : Same s { s.sendCovered v with pos := s.pos + 1 } := ⟨rfl, rfl, rfl, rfl, rfl⟩
        by_cases hlast : k = 0
        · subst hlast
          have : ¬ s.pos + 1 < s.txlen := by rw [BitVec.lt_def, hp]; omega
          rw [if_neg this]
          exact hK _ hsame
        · have : s.pos + 1 < s.txlen := by rw [BitVec.lt_def, hp]; omega
          rw [if_pos this]
          refine ih _ hs (by omega) ?_ fun t ht => hK t (hsame.trans ht)
          show (s.pos + 1).toNat + k = s.txlen.toNat
          omega

/-- The state after LenLo or the ack byte to TX_CSUM. -/
theorem leads_txAfterHeader (K : State → Flow) (s : State) (hs : s.silent) (hpos : s.pos = 0)
    (hK : ∀ t, Same s t → Leads (t.atFsm .txCsum) (K t).outcome) :
    Leads (s.atFsm s.txAfterHeader) ((sendPayload s.txlen.toNat s).andThen K).outcome := by
  unfold State.txAfterHeader
  by_cases h : s.txlen = 0
  · rw [if_pos h, h]
    exact hK s (Same.refl s)
  · rw [if_neg h]
    refine leads_txPayload K _ s hs ?_ (by simp [hpos]) hK
    have : s.txlen.toNat ≠ 0 := fun e => h (BitVec.eq_of_toNat_eq e)
    omega

/-- TX_START to TX_CSUM. -/
theorem leads_tx (K : State → Flow) (s : State) (hs : s.silent)
    (hK : ∀ t, Same s t → Leads (t.atFsm .txCsum) (K t).outcome) :
    Leads (s.atFsm .txStart) ((sendPayload s.txlen.toNat s.txBegin.sendHeader).andThen K).outcome := by
  refine Leads.next hs (t := (s.txBegin.send (startMarker s.txctl.kind)).atFsm .txLenHi) rfl ?_
  refine Leads.next hs (t := ((s.txBegin.send (startMarker s.txctl.kind)).sendCovered
    (hiByte s.txBegin.lenr)).atFsm .txLenLo) rfl ?_
  refine Leads.next hs (t := (((s.txBegin.send (startMarker s.txctl.kind)).sendCovered
    (hiByte s.txBegin.lenr)).sendCovered (loByte s.txBegin.lenr)).atFsm
      (if s.txctl.ackEn then .txAck else s.txAfterHeader)) rfl ?_
  by_cases ha : s.txctl.ackEn = true
  · rw [if_pos ha]
    have hh : s.txBegin.sendHeader = (((s.txBegin.send (startMarker s.txctl.kind)).sendCovered
        (hiByte s.txBegin.lenr)).sendCovered (loByte s.txBegin.lenr)).sendCovered s.txctl.ackVal := by
      simp only [State.sendHeader, State.sendAck]
      exact if_pos ha
    refine Leads.next hs (t := s.txBegin.sendHeader.atFsm s.txAfterHeader) (by rw [hh]; rfl) ?_
    rw [hh]
    exact leads_txAfterHeader K _ hs rfl fun t ht => hK t ⟨ht.1, ht.2, ht.3, ht.4, ht.5⟩
  · rw [if_neg ha]
    have hh : s.txBegin.sendHeader = ((s.txBegin.send (startMarker s.txctl.kind)).sendCovered
        (hiByte s.txBegin.lenr)).sendCovered (loByte s.txBegin.lenr) := by
      simp only [State.sendHeader, State.sendAck]
      exact if_neg ha
    rw [hh]
    exact leads_txAfterHeader K _ hs rfl fun t ht => hK t ⟨ht.1, ht.2, ht.3, ht.4, ht.5⟩

/-! ### Attempt end (R29) -/

/-- What follows an attempt's end, its mask standing in RESULT.MASK: a new attempt, or the command's end. -/
def State.attemptNext (u : State) : State :=
  if u.resMask ≠ 0 ∧ u.oprR = true ∧ u.rrem ≠ 0 then u.attemptStart else u.finish u.maskKind u.maskPos

theorem State.attemptEnd_eq (s : State) (m : Mask) (v : Byte) : s.attemptEnd m v = (s.writeResult m v).attemptNext := rfl

/-- The FSM's state plays no part in what follows an attempt's end. -/
theorem State.attemptNext_atFsm (s : State) (f : Fsm) : (s.atFsm f).attemptNext = s.attemptNext := by
  unfold State.attemptNext State.finish
  rfl

/-- With mask 0 the command ends. -/
theorem State.attemptEnd_zero (s : State) (v : Byte) : s.attemptEnd 0 v = (s.writeResult 0 v).endCommand := by
  unfold State.attemptEnd
  rw [if_neg (by simp)]
  exact if_pos rfl

/-! ### Receive in compare mode (R28) -/

/-- RX_PAYLOAD to RX_CSUM, comparing. -/
theorem leads_rxPayload_compare (K : State → Flow) (k : Nat) (s : State) (hs : s.silent) (hc : s.capturing = false)
    (hk : 1 ≤ k) (hpos : s.pos.toNat + k = s.rxlen.toNat)
    (hK : ∀ t, Same s t → Leads (t.atFsm .rxCsum) (K t).outcome) :
    Leads (s.atFsm .rxPayload) ((hitPayload k s).andThen K).outcome := by
  induction k generalizing s with
  | zero => omega
  | succ k ih =>
    have hlt := s.rxlen.isLt
    have hp : (s.pos + 1).toNat = s.pos.toNat + 1 := by
      rw [BitVec.toNat_add]; exact Nat.mod_eq_of_lt (by simp; omega)
    have hc' : (s.atFsm .rxPayload).capturing = false := hc
    have hflow : (s.atFsm .rxPayload).fsmFlow = (s.atFsm .rxPayload).stepRxPayload := rfl
    rw [hitPayload]
    cases hb : s.bufAtPos .rx with
    | none =>
      refine Leads.stop hs ?_
      rw [hflow, State.stepRxPayload, hc', if_neg (by simp), show (s.atFsm .rxPayload).bufAtPos .rx = none from hb]
      rfl
    | some e =>
      cases hg : s.bufAtPos .ign with
      | none =>
        refine Leads.stop hs ?_
        rw [hflow, State.stepRxPayload, hc', if_neg (by simp),
          show (s.atFsm .rxPayload).bufAtPos .rx = some e from hb,
          show (s.atFsm .rxPayload).bufAtPos .ign = none from hg]
        rfl
      | some g =>
        refine Leads.next hs (t := ({ s.hitCovered e g s.rxPayloadIndex with pos := s.pos + 1 } : State).atFsm
          (if s.pos + 1 < s.rxlen then .rxPayload else .rxCsum)) ?_ ?_
        · rw [hflow, State.stepRxPayload, hc', if_neg (by simp),
            show (s.atFsm .rxPayload).bufAtPos .rx = some e from hb,
            show (s.atFsm .rxPayload).bufAtPos .ign = some g from hg]
          rfl
        · have hsame : Same s { s.hitCovered e g s.rxPayloadIndex with pos := s.pos + 1 } :=
            ⟨rfl, rfl, rfl, rfl, rfl⟩
          by_cases hlast : k = 0
          · subst hlast
            have : ¬ s.pos + 1 < s.rxlen := by rw [BitVec.lt_def, hp]; omega
            rw [if_neg this]
            exact hK _ hsame
          · have : s.pos + 1 < s.rxlen := by rw [BitVec.lt_def, hp]; omega
            rw [if_pos this]
            refine ih _ hs hc (by omega) ?_ fun t ht => hK t (hsame.trans ht)
            show (s.pos + 1).toNat + k = s.rxlen.toNat
            omega

/-- The state after LenLo or the ack byte to RX_CSUM, comparing. -/
theorem leads_rxAfterHeader_compare (K : State → Flow) (s : State) (hs : s.silent) (hc : s.capturing = false)
    (hpos : s.pos = 0) (hK : ∀ t, Same s t → Leads (t.atFsm .rxCsum) (K t).outcome) :
    Leads (s.atFsm s.rxAfterHeader) ((hitPayload s.rxlen.toNat s).andThen K).outcome := by
  unfold State.rxAfterHeader
  by_cases h : s.rxlen = 0
  · rw [if_pos h, h]
    exact hK s (Same.refl s)
  · rw [if_neg h]
    refine leads_rxPayload_compare K _ s hs hc ?_ (by simp [hpos]) hK
    have : s.rxlen.toNat ≠ 0 := fun e => h (BitVec.eq_of_toNat_eq e)
    omega

/-- RX_CSUM to the end of the attempt, comparing. -/
theorem leads_rxTrailer_compare (K : State → Flow) (t : State) (hs : t.silent) (hc : t.capturing = false)
    (hK : ∀ u, Same t u → Leads u.attemptNext (K u).outcome) :
    Leads (t.atFsm .rxCsum)
      (K (t.hitTrailer.writeResult t.hitTrailer.fmask (0 - t.csum))).outcome := by
  have hc1 : (t.atFsm .rxCsum).capturing = false := hc
  refine Leads.next hs (t := (t.hit (0 - t.csum) 0x00 (3 + t.lenr)).atFsm .rxEnd) ?_ ?_
  · show (Flow.go (t.atFsm .rxCsum).stepRxCsum).outcome = _
    rw [State.stepRxCsum, hc1, if_neg (by simp)]
    rfl
  · have hc2 : ((t.hit (0 - t.csum) 0x00 (3 + t.lenr)).atFsm .rxEnd).capturing = false := hc
    refine Leads.next hs (t := (t.hitTrailer.writeResult t.hitTrailer.fmask (0 - t.csum)).attemptNext) ?_
      (hK _ ⟨rfl, rfl, rfl, rfl, rfl⟩)
    show ((t.hit (0 - t.csum) 0x00 (3 + t.lenr)).atFsm .rxEnd).stepRxEnd.outcome = _
    rw [State.stepRxEnd, hc2, if_neg (by simp), Flow.go_outcome, State.attemptEnd_eq,
      ← State.attemptNext_atFsm (t.hitTrailer.writeResult t.hitTrailer.fmask (0 - t.csum)) .rxEnd]
    rfl

/-- RX_START to the end of the attempt, comparing. -/
theorem leads_rx_compare (K : State → Flow) (s : State) (hs : s.silent) (hc : s.capturing = false)
    (hK : ∀ u, Same s u → Leads u.attemptNext (K u).outcome) :
    Leads (s.atFsm .rxStart) ((rxcmpAttempt s).andThen K).outcome := by
  have hend : ∀ t, Same s t → Leads (t.atFsm .rxCsum)
      ((Flow.go (t.hitTrailer.writeResult t.hitTrailer.fmask (0 - t.csum))).andThen K).outcome := by
    intro t ht
    refine leads_rxTrailer_compare K t (ht.silent hs) ?_ fun u hu => hK u (ht.trans hu)
    simpa [State.capturing, State.oprIs, ht.opr] using hc
  rw [rxcmpAttempt, Flow.andThen_assoc]
  have hcap : ∀ t : State, t.opr = s.opr → t.capturing = false := by
    intro t ht; simpa [State.capturing, State.oprIs, ht] using hc
  refine Leads.next hs (t := (s.rxcmpBegin.hit (startMarker s.rxctl.kind) 0x00 0).atFsm .rxLenHi) ?_ ?_
  · show (s.atFsm .rxStart).stepRxStart.outcome = _
    rw [State.stepRxStart, hcap (s.atFsm .rxStart) rfl, if_neg (by simp)]
    rfl
  generalize h1 : s.rxcmpBegin.hit (startMarker s.rxctl.kind) 0x00 0 = s1
  have e1 : Same s s1 := by subst h1; exact ⟨rfl, rfl, rfl, rfl, rfl⟩
  have p1 : s1.pos = 0 ∧ s1.lenr = s.rxcmpBegin.lenr ∧ s1.rxctl = s.rxctl ∧ s1.rxlen = s.rxlen := by
    subst h1; exact ⟨rfl, rfl, rfl, rfl⟩
  refine Leads.next (e1.silent hs) (t := (s1.hitCovered (hiByte s1.lenr) 0x00 1).atFsm .rxLenLo) ?_ ?_
  · show (s1.atFsm .rxLenHi).stepRxLenHi.outcome = _
    rw [State.stepRxLenHi, hcap (s1.atFsm .rxLenHi) e1.opr, if_neg (by simp)]
    rfl
  generalize h2 : s1.hitCovered (hiByte s1.lenr) 0x00 1 = s2
  have e2 : Same s s2 := e1.trans (by subst h2; exact ⟨rfl, rfl, rfl, rfl, rfl⟩)
  have p2 : s2.pos = 0 ∧ s2.lenr = s1.lenr ∧ s2.rxctl = s.rxctl ∧ s2.rxlen = s.rxlen := by
    subst h2; exact ⟨p1.1, rfl, p1.2.2.1, p1.2.2.2⟩
  refine Leads.next (e2.silent hs) (t := (s2.hitCovered (loByte s2.lenr) 0x00 2).atFsm
    (if s2.rxctl.ackEn then .rxAck else s2.rxAfterHeader)) ?_ ?_
  · show (s2.atFsm .rxLenLo).stepRxLenLo.outcome = _
    rw [State.stepRxLenLo, hcap (s2.atFsm .rxLenLo) e2.opr, if_neg (by simp)]
    rfl
  generalize h3 : s2.hitCovered (loByte s2.lenr) 0x00 2 = s3
  have e3 : Same s s3 := e2.trans (by subst h3; exact ⟨rfl, rfl, rfl, rfl, rfl⟩)
  have p3 : s3.pos = 0 ∧ s3.rxctl = s.rxctl ∧ s3.rxlen = s.rxlen ∧ s3.rxAfterHeader = s2.rxAfterHeader := by
    subst h3; exact ⟨p2.1, p2.2.2.1, p2.2.2.2, rfl⟩
  have hhead : s.rxcmpBegin.hitHeader = s3.hitAckIfAny := by
    subst h3; subst h2; subst h1; rfl
  rw [hhead, p2.2.2.1, ← p3.2.2.2]
  by_cases ha : s.rxctl.ackEn = true
  · rw [if_pos ha]
    have hack : s3.hitAckIfAny = s3.hitCovered s3.rxctl.ackVal 0x00 3 := by
      rw [State.hitAckIfAny, p3.2.1, if_pos ha]
    refine Leads.next (e3.silent hs) (t := s3.hitAckIfAny.atFsm s3.rxAfterHeader) ?_ ?_
    · show (Flow.go (s3.atFsm .rxAck).stepRxAck).outcome = _
      rw [State.stepRxAck, hcap (s3.atFsm .rxAck) e3.opr, if_neg (by simp), hack]
      rfl
    rw [hack, ← p3.2.2.1]
    have e4 : Same s (s3.hitCovered s3.rxctl.ackVal 0x00 3) := e3.trans ⟨rfl, rfl, rfl, rfl, rfl⟩
    exact leads_rxAfterHeader_compare _ _ (e4.silent hs) (hcap _ e4.opr) p3.1 fun t ht => hend t (e4.trans ht)
  · rw [if_neg ha]
    have hack : s3.hitAckIfAny = s3 := by rw [State.hitAckIfAny, p3.2.1, if_neg ha]
    rw [hack, ← p3.2.2.1]
    exact leads_rxAfterHeader_compare _ _ (e3.silent hs) (hcap _ e3.opr) p3.1 fun t ht => hend t (e3.trans ht)

/-! ### Receive in capture mode (R28) -/

/-- A structural byte: the capture goes on from `g`, or ends. -/
theorem leads_capStructural (K : State → Flow) (s : State) (e : Byte) (idx : Half) (covered : Bool) (f g : Fsm)
    (hs : s.silent)
    (hflow : (s.atFsm f).fsmFlow = (capStructural e idx covered (s.atFsm f)).toFsm g)
    (hK : ∀ c, Leads (({ s.afterSample 8 with csum := c } : State).atFsm g)
      (K { s.afterSample 8 with csum := c }).outcome) :
    Leads (s.atFsm f) ((capStructural e idx covered s).andThen K).outcome := by
  have hv : (s.atFsm f).captureValue = s.captureValue := rfl
  unfold capStructural at hflow ⊢
  rw [hv] at hflow
  by_cases h : s.captureValue = e
  · rw [if_pos h] at hflow ⊢
    exact Leads.next hs (by rw [hflow]; rfl) (hK _)
  · rw [if_neg h] at hflow ⊢
    exact Leads.next hs (by rw [hflow]; rfl) (Leads.refl _)

/-- RX_PAYLOAD to RX_CSUM, capturing. -/
theorem leads_rxPayload_capture (x : Host.Outcome State Fault Refusal) (k : Nat) (s : State) (hs : s.silent)
    (hc : s.capturing = true) (hk : 1 ≤ k) (hpos : s.pos.toNat + k = s.rxlen.toNat)
    (hx : Leads ((capPayload k s).atFsm .rxCsum) x) : Leads (s.atFsm .rxPayload) x := by
  induction k generalizing s with
  | zero => omega
  | succ k ih =>
    have hlt := s.rxlen.isLt
    have hp : (s.pos + 1).toNat = s.pos.toNat + 1 := by
      rw [BitVec.toNat_add]; exact Nat.mod_eq_of_lt (by simp; omega)
    have hc' : (s.atFsm .rxPayload).capturing = true := hc
    refine Leads.next hs (t := s.capPayloadByte.atFsm (if s.pos + 1 < s.rxlen then .rxPayload else .rxCsum)) ?_ ?_
    · show (s.atFsm .rxPayload).stepRxPayload.outcome = _
      rw [State.stepRxPayload, hc', if_pos rfl]
      rfl
    · by_cases hlast : k = 0
      · subst hlast
        have : ¬ s.pos + 1 < s.rxlen := by rw [BitVec.lt_def, hp]; omega
        rw [if_neg this]
        exact hx
      · have : s.pos + 1 < s.rxlen := by rw [BitVec.lt_def, hp]; omega
        rw [if_pos this]
        refine ih _ hs hc (by omega) ?_ hx
        show (s.pos + 1).toNat + k = s.rxlen.toNat
        omega

/-- The state after LenLo or the ack byte to RX_CSUM, capturing. -/
theorem leads_rxAfterHeader_capture (x : Host.Outcome State Fault Refusal) (s : State) (hs : s.silent)
    (hc : s.capturing = true) (hpos : s.pos = 0)
    (hx : Leads ((capPayload s.rxlen.toNat s).atFsm .rxCsum) x) : Leads (s.atFsm s.rxAfterHeader) x := by
  unfold State.rxAfterHeader
  by_cases h : s.rxlen = 0
  · rw [if_pos h]
    rw [h] at hx
    exact hx
  · rw [if_neg h]
    refine leads_rxPayload_capture x _ s hs hc ?_ (by simp [hpos]) hx
    have : s.rxlen.toNat ≠ 0 := fun e => h (BitVec.eq_of_toNat_eq e)
    omega

theorem capPayload_same (k : Nat) (s : State) :
    Same s (capPayload k s) ∧ (capPayload k s).lenr = s.lenr ∧ (capPayload k s).rxctl = s.rxctl := by
  induction k generalizing s with
  | zero => exact ⟨Same.refl s, rfl, rfl⟩
  | succ k ih =>
    obtain ⟨h1, h2, h3⟩ := ih s.capPayloadByte
    exact ⟨⟨h1.port, h1.rst, h1.opr, h1.rrem, h1.timeout⟩, h2, h3⟩

/-- The test of the sum comes out the same in every FSM state. -/
theorem capCheckSum_atFsm (t : State) (f : Fsm) :
    (capCheckSum t = .go t ∧ capCheckSum (t.atFsm f) = .go (t.atFsm f)) ∨
    ∃ u, capCheckSum t = .raised u ∧ capCheckSum (t.atFsm f) = .raised u := by
  by_cases h : t.csum = 0x00
  · exact .inl ⟨if_pos h, if_pos h⟩
  · exact .inr ⟨_, if_neg h, if_neg h⟩

/-- RX_CSUM to the end of the command, capturing. -/
theorem leads_rxTrailer_capture (t : State) (hs : t.silent) (hc : t.capturing = true) :
    Leads (t.atFsm .rxCsum)
      (((capStructural (endMarker t.rxctl.endBit) (4 + t.lenr) false t.capCsum).andThen capCheckSum).andThen
        fun u => .go u.capEnd).outcome := by
  have hc1 : (t.atFsm .rxCsum).capturing = true := hc
  refine Leads.next hs (t := t.capCsum.atFsm .rxEnd) ?_ ?_
  · show (Flow.go (t.atFsm .rxCsum).stepRxCsum).outcome = _
    rw [State.stepRxCsum, hc1, if_pos rfl]
    rfl
  have hc2 : (t.capCsum.atFsm .rxEnd).capturing = true := hc
  have hflow : (t.capCsum.atFsm .rxEnd).fsmFlow = (((capStructural (endMarker t.rxctl.endBit) (4 + t.lenr) false
      (t.capCsum.atFsm .rxEnd)).andThen capCheckSum).andThen fun u => .go (u.attemptEnd 0 u.ackc)) := by
    show (t.capCsum.atFsm .rxEnd).stepRxEnd = _
    rw [State.stepRxEnd, hc2, if_pos rfl]
    rfl
  have hs2 : (t.capCsum.atFsm .rxEnd).silent := hs
  generalize endMarker t.rxctl.endBit = m at hflow ⊢
  generalize 4 + t.lenr = idx at hflow ⊢
  generalize t.capCsum = q at hflow hs2 ⊢
  by_cases h : q.captureValue = m
  · have e1 : capStructural m idx false q = .go { q.afterSample 8 with csum := q.csum } := if_pos h
    have e2 : capStructural m idx false (q.atFsm .rxEnd) =
        .go (({ q.afterSample 8 with csum := q.csum } : State).atFsm .rxEnd) := if_pos h
    rw [e2, Flow.go_andThen] at hflow
    rw [e1, Flow.go_andThen]
    generalize ({ q.afterSample 8 with csum := q.csum } : State) = v at hflow ⊢
    rcases capCheckSum_atFsm v .rxEnd with ⟨g1, g2⟩ | ⟨u, g1, g2⟩
    · rw [g2, Flow.go_andThen] at hflow
      rw [g1, Flow.go_andThen]
      exact Leads.next hs2 (by rw [hflow, Flow.go_outcome, State.attemptEnd_zero]; rfl) (Leads.refl _)
    · rw [g2, Flow.raised_andThen] at hflow
      rw [g1, Flow.raised_andThen]
      exact Leads.next hs2 (by rw [hflow]; rfl) (Leads.refl _)
  · have e1 : capStructural m idx false q =
        .raised ((q.afterSample 8).raiseInCapture .frameDecodeError idx q.captureValue) := if_neg h
    have e2 : capStructural m idx false (q.atFsm .rxEnd) =
        .raised ((q.afterSample 8).raiseInCapture .frameDecodeError idx q.captureValue) := if_neg h
    rw [e2, Flow.raised_andThen, Flow.raised_andThen] at hflow
    rw [e1, Flow.raised_andThen, Flow.raised_andThen]
    exact Leads.next hs2 (by rw [hflow]; rfl) (Leads.refl _)

/-- RX_START to the end of the command, capturing. -/
theorem leads_rx_capture (s : State) (hs : s.silent) (hc : s.capturing = true) :
    Leads (s.atFsm .rxStart) ((capBody s).andThen fun u => .go u.capEnd).outcome := by
  have hcap : ∀ t : State, t.opr = s.opr → t.capturing = true := by
    intro t ht; simpa [State.capturing, State.oprIs, ht] using hc
  have hsil : ∀ t : State, t.port = s.port → t.rst = s.rst → t.silent := fun t h1 h2 => ⟨h1.trans hs.1, h2.trans hs.2⟩
  rw [capBody, Flow.andThen_assoc]
  have hflow0 : (s.atFsm .rxStart).fsmFlow =
      (capStructural (startMarker s.rxctl.kind) 0 false (s.capBegin.atFsm .rxStart)).toFsm .rxLenHi := by
    show (s.atFsm .rxStart).stepRxStart = _
    rw [State.stepRxStart, hcap (s.atFsm .rxStart) rfl, if_pos rfl]
    rfl
  have hnext : ∀ (t : State) (idx : Half) (f g : Fsm) (e : Byte) (covered : Bool) (K : State → Flow),
      t.port = s.port → t.rst = s.rst →
      (t.atFsm f).fsmFlow = (capStructural e idx covered (t.atFsm f)).toFsm g →
      (∀ c, Leads (({ t.afterSample 8 with csum := c } : State).atFsm g) (K { t.afterSample 8 with csum := c }).outcome) →
      Leads (t.atFsm f) ((capStructural e idx covered t).andThen K).outcome :=
    fun t idx f g e covered K h1 h2 hf hk => leads_capStructural K t e idx covered f g (hsil t h1 h2) hf hk
  have hstart : ∀ (K : State → Flow),
      (∀ c, Leads (({ s.capBegin.afterSample 8 with csum := c } : State).atFsm .rxLenHi)
        (K { s.capBegin.afterSample 8 with csum := c }).outcome) →
      Leads (s.atFsm .rxStart) ((capStructural (startMarker s.rxctl.kind) 0 false s.capBegin).andThen K).outcome := by
    intro K hK
    unfold capStructural at hflow0 ⊢
    have hv : (s.capBegin.atFsm .rxStart).captureValue = s.capBegin.captureValue := rfl
    rw [hv] at hflow0
    by_cases h : s.capBegin.captureValue = startMarker s.rxctl.kind
    · rw [if_pos h] at hflow0 ⊢
      exact Leads.next hs (by rw [hflow0]; rfl) (hK _)
    · rw [if_neg h] at hflow0 ⊢
      exact Leads.next hs (by rw [hflow0]; rfl) (Leads.refl _)
  refine hstart _ fun c1 => ?_
  generalize h1 : ({ s.capBegin.afterSample 8 with csum := c1 } : State) = s1
  have e1 : s1.port = s.port ∧ s1.rst = s.rst ∧ s1.opr = s.opr ∧ s1.pos = 0 ∧ s1.rxctl = s.rxctl := by
    subst h1; exact ⟨rfl, rfl, rfl, rfl, rfl⟩
  rw [Flow.andThen_assoc]
  refine hnext s1 1 .rxLenHi .rxLenLo _ true _ e1.1 e1.2.1 ?_ fun c2 => ?_
  · show (s1.atFsm .rxLenHi).stepRxLenHi = _
    rw [State.stepRxLenHi, hcap (s1.atFsm .rxLenHi) e1.2.2.1, if_pos rfl]
    rfl
  generalize h2 : ({ s1.afterSample 8 with csum := c2 } : State) = s2
  have e2 : s2.port = s.port ∧ s2.rst = s.rst ∧ s2.opr = s.opr ∧ s2.pos = 0 ∧ s2.rxctl = s.rxctl := by
    subst h2; exact e1
  rw [Flow.andThen_assoc]
  refine hnext s2 2 .rxLenLo (if s2.rxctl.ackEn then .rxAck else s2.rxAfterHeader) _ true _ e2.1 e2.2.1 ?_
    fun c3 => ?_
  · show (s2.atFsm .rxLenLo).stepRxLenLo = _
    rw [State.stepRxLenLo, hcap (s2.atFsm .rxLenLo) e2.2.2.1, if_pos rfl]
    rfl
  have hah : s2.rxAfterHeader = ({ s2.afterSample 8 with csum := c3 } : State).rxAfterHeader := rfl
  rw [hah]
  have hq : s2.rxctl = ({ s2.afterSample 8 with csum := c3 } : State).rxctl := rfl
  rw [hq]
  generalize h3 : ({ s2.afterSample 8 with csum := c3 } : State) = s3
  have e3 : s3.port = s.port ∧ s3.rst = s.rst ∧ s3.opr = s.opr ∧ s3.pos = 0 ∧ s3.rxctl = s.rxctl := by
    subst h3; exact e2
  have htail : ∀ t : State, t.port = s.port → t.rst = s.rst → t.opr = s.opr → t.lenr = s3.lenr → t.rxctl = s.rxctl →
      t.pos = 0 → t.rxlen = s3.rxlen →
      Leads (t.atFsm t.rxAfterHeader)
        (((capStructural (endMarker s.rxctl.endBit) (4 + s3.lenr) false (capPayload s3.rxlen.toNat t).capCsum).andThen
          capCheckSum).andThen fun u => .go u.capEnd).outcome := by
    intro t t1 t2 t3 t4 t5 t6 t7
    refine leads_rxAfterHeader_capture _ t (hsil t t1 t2) (hcap t t3) t6 ?_
    obtain ⟨p1, p2, p3⟩ := capPayload_same t.rxlen.toNat t
    have := leads_rxTrailer_capture (capPayload t.rxlen.toNat t) (p1.silent (hsil t t1 t2)) (hcap _ (p1.opr.trans t3))
    rw [p2, p3, t4, t5] at this
    rw [← t7]
    exact this
  by_cases ha : s3.rxctl.ackEn = true
  · rw [if_pos ha]
    have hack : s3.capAckIfAny = s3.capAck := if_pos ha
    refine Leads.next (hsil s3 e3.1 e3.2.1) (t := s3.capAck.atFsm s3.rxAfterHeader) ?_ ?_
    · show (Flow.go (s3.atFsm .rxAck).stepRxAck).outcome = _
      rw [State.stepRxAck, hcap (s3.atFsm .rxAck) e3.2.2.1, if_pos rfl]
      rfl
    rw [hack]
    exact htail s3.capAck e3.1 e3.2.1 e3.2.2.1 rfl e3.2.2.2.2 e3.2.2.2.1 rfl
  · rw [if_neg ha]
    have hack : s3.capAckIfAny = s3 := if_neg ha
    rw [hack]
    exact htail s3 e3.1 e3.2.1 e3.2.2.1 rfl e3.2.2.2.2 e3.2.2.2.1 rfl

end Sys2Proof.Machine
end

