-- ==== Sys2Proof/Laws/Decode.lean ====
section
/-! SUPPORT. The fields of a packed command word, and a word put together from its fields (spec/30_encoding.md rule
R100). -/

namespace Sys2Proof

/-- The bits of a packed word. -/
theorem getLsbD_packWord (b a : Byte) (n : BitVec 4) (r : Bool) (op : Byte) (i : Nat) :
    (packWord b a n r op).getLsbD i =
      if i < 8 then op.getLsbD i else if i < 9 then r else if i < 12 then false
      else if i < 16 then n.getLsbD (i - 12) else if i < 24 then a.getLsbD (i - 16) else b.getLsbD (i - 24) := by
  have h : packWord b a n r op =
      (b ++ a ++ n ++ 0#3 ++ BitVec.ofBool r ++ op : BitVec (8 + 8 + 4 + 3 + 1 + 8)) := rfl
  rw [h]
  simp only [BitVec.getLsbD_append, BitVec.getLsbD_zero, BitVec.getLsbD_ofBool, Nat.sub_sub]
  by_cases h1 : i < 8
  · simp [h1]
  · by_cases h2 : i < 9
    · obtain rfl : i = 8 := by omega
      simp
    · by_cases h3 : i < 12
      · simp [h1, h2, h3, show ¬ i - 8 < 1 by omega, show i - 9 < 3 by omega]
      · by_cases h4 : i < 16
        · simp [h1, h2, h3, h4, show ¬ i - 8 < 1 by omega, show ¬ i - 9 < 3 by omega, show i - 12 < 4 by omega]
        · by_cases h5 : i < 24
          · simp [h1, h2, h3, h4, h5, show ¬ i - 8 < 1 by omega, show ¬ i - 9 < 3 by omega,
              show ¬ i - 12 < 4 by omega, show i - 16 < 8 by omega]
          · simp [h1, h2, h3, h4, h5, show ¬ i - 8 < 1 by omega, show ¬ i - 9 < 3 by omega,
              show ¬ i - 12 < 4 by omega, show ¬ i - 16 < 8 by omega]

@[simp] theorem wordOp_packWord (b a : Byte) (n : BitVec 4) (r : Bool) (op : Byte) :
    wordOp (packWord b a n r op) = op := by
  apply BitVec.eq_of_getLsbD_eq
  intro i hi
  simp only [wordOp, BitVec.getLsbD_extractLsb', getLsbD_packWord, hi, decide_true, Bool.true_and]
  simp [hi]

@[simp] theorem wordR_packWord (b a : Byte) (n : BitVec 4) (r : Bool) (op : Byte) :
    wordR (packWord b a n r op) = r := by
  simp only [wordR, getLsbD_packWord]
  simp

@[simp] theorem wordReserved_packWord (b a : Byte) (n : BitVec 4) (r : Bool) (op : Byte) :
    wordReserved (packWord b a n r op) = 0 := by
  apply BitVec.eq_of_getLsbD_eq
  intro i hi
  simp only [wordReserved, BitVec.getLsbD_extractLsb', getLsbD_packWord, hi, decide_true, Bool.true_and]
  simp [show ¬ 9 + i < 8 by omega, show ¬ 9 + i < 9 by omega, show 9 + i < 12 by omega]

@[simp] theorem wordN_packWord (b a : Byte) (n : BitVec 4) (r : Bool) (op : Byte) :
    wordN (packWord b a n r op) = n := by
  apply BitVec.eq_of_getLsbD_eq
  intro i hi
  simp only [wordN, BitVec.getLsbD_extractLsb', getLsbD_packWord, hi, decide_true, Bool.true_and]
  simp [show ¬ 12 + i < 8 by omega, show ¬ 12 + i < 9 by omega, show 12 + i < 16 by omega]

@[simp] theorem wordA_packWord (b a : Byte) (n : BitVec 4) (r : Bool) (op : Byte) :
    wordA (packWord b a n r op) = a := by
  apply BitVec.eq_of_getLsbD_eq
  intro i hi
  simp only [wordA, BitVec.getLsbD_extractLsb', getLsbD_packWord, hi, decide_true, Bool.true_and]
  simp [show ¬ 16 + i < 8 by omega, show ¬ 16 + i < 9 by omega, show ¬ 16 + i < 12 by omega,
    show 16 + i < 24 by omega]

@[simp] theorem wordB_packWord (b a : Byte) (n : BitVec 4) (r : Bool) (op : Byte) :
    wordB (packWord b a n r op) = b := by
  apply BitVec.eq_of_getLsbD_eq
  intro i hi
  simp only [wordB, BitVec.getLsbD_extractLsb', getLsbD_packWord, hi, decide_true, Bool.true_and]
  simp [show ¬ 24 + i < 8 by omega, show ¬ 24 + i < 9 by omega, show ¬ 24 + i < 12 by omega,
    show ¬ 24 + i < 16 by omega]

/-- A word with its reserved bits 0 is its fields put together. -/
theorem packWord_fields (w : Word) (h : wordReserved w = 0) :
    packWord (wordB w) (wordA w) (wordN w) (wordR w) (wordOp w) = w := by
  have hz : ∀ j, j < 3 → w.getLsbD (9 + j) = false := by
    intro j hj
    have := congrArg (fun x => x.getLsbD j) h
    simpa only [wordReserved, BitVec.getLsbD_extractLsb', hj, decide_true, Bool.true_and, BitVec.ofNat_eq_ofNat,
      BitVec.getLsbD_zero] using this
  apply BitVec.eq_of_getLsbD_eq
  intro i hi
  simp only [getLsbD_packWord, wordOp, wordR, wordA, wordB, wordN, BitVec.getLsbD_extractLsb']
  by_cases h1 : i < 8
  · simp only [h1, if_true, decide_true, Bool.true_and, Nat.zero_add]
  · by_cases h2 : i < 9
    · obtain rfl : i = 8 := by omega
      simp
    · by_cases h3 : i < 12
      · have := hz (i - 9) (by omega)
        rw [show 9 + (i - 9) = i by omega] at this
        simp only [h1, h2, h3, if_false, if_true, this]
      · by_cases h4 : i < 16
        · simp only [h1, h2, h3, h4, if_false, if_true, show i - 12 < 4 by omega, decide_true, Bool.true_and,
            show 12 + (i - 12) = i by omega]
        · by_cases h5 : i < 24
          · simp only [h1, h2, h3, h4, h5, if_false, if_true, show i - 16 < 8 by omega, decide_true, Bool.true_and,
              show 16 + (i - 16) = i by omega]
          · simp only [h1, h2, h3, h4, h5, if_false, show i - 24 < 8 by omega, decide_true, Bool.true_and,
              show 24 + (i - 24) = i by omega]

/-- What the field checks let pass. -/
theorem checkFields_ok {w : Word} {rOk aOk : Bool} {i j : Instr} (h : checkFields w rOk aOk i = .ok j) :
    i = j ∧ (rOk = false → wordR w = false) ∧ wordN w = 0 ∧ wordB w = 0 ∧ (aOk = false → wordA w = 0) := by
  unfold checkFields at h
  split at h
  · cases h
  · rename_i h1
    split at h
    · cases h
    · rename_i h2
      split at h
      · cases h
      · rename_i h3
        split at h
        · cases h
        · rename_i h4
          refine ⟨by cases h; rfl, ?_, not_not.mp h2, not_not.mp h3, fun ha => ?_⟩
          · rintro rfl
            simpa using h1
          · by_contra hn
            exact h4 ⟨hn, ha⟩

end Sys2Proof
end

