-- ==== Sys2Proof/Laws/Frames.lean ====
section
/-! SUPPORT. What the bodies of the frame commands come to: a transmitted frame, a run of compared byte positions. -/

namespace Sys2Proof.Machine

/-! ### Sums -/

theorem byteSum_append (us vs : List Byte) : byteSum (us ++ vs) = byteSum us + byteSum vs := by
  induction us with
  | nil => simp [byteSum]
  | cons u rest ih => simp [byteSum, ih, BitVec.add_assoc]

/-! ### A transmitted frame (R170) -/

/-- The Len field that TXCTL and TXLEN give is that of the frame. -/
theorem State.txFrame_len (s : State) (payload : List Byte) (h : payload.length = s.txlen.toNat) :
    (s.txFrame payload).len = s.txLenField := by
  unfold Frame.len State.txFrame State.txLenField bitHalf
  rw [h]
  cases s.txctl.ackEn <;> simp [BitVec.ofNat_add]

/-- The ack byte a descriptor gives, as a list of none or one. -/
def ackBytes (ackEn : Bool) (ackVal : Byte) : List Byte := if ackEn then [ackVal] else []

theorem State.sendAck_eq (s : State) :
    s.sendAck =
      { s with
        csum := s.csum + byteSum (ackBytes s.txctl.ackEn s.txctl.ackVal)
        trace := s.trace ++ (ackBytes s.txctl.ackEn s.txctl.ackVal).map (.send s.active) } := by
  unfold State.sendAck ackBytes
  split <;> simp [State.sendCovered, byteSum]

/-- What sending a header leaves. -/
theorem State.sendHeader_eq (s : State) :
    s.sendHeader =
      { s with
        csum := s.csum + byteSum (hiByte s.lenr :: loByte s.lenr :: ackBytes s.txctl.ackEn s.txctl.ackVal)
        trace := s.trace ++ (startMarker s.txctl.kind :: hiByte s.lenr :: loByte s.lenr ::
          ackBytes s.txctl.ackEn s.txctl.ackVal).map (.send s.active) } := by
  simp [State.sendHeader, State.sendAck_eq, State.send, State.sendCovered, byteSum, BitVec.add_assoc]

/-- Transmitting a frame whose payload TXBUF holds. -/
theorem txBody_go (s : State) (payload : List Byte) (hlen : payload.length = s.txlen.toNat)
    (hold : s.holds .tx payload) :
    txBody s = .go
      { s with
        csum := byteSum (s.txFrame payload).covered
        lenr := s.txLenField
        pos := s.txlen
        trace := s.trace ++ (s.txFrame payload).bytes.map (.send s.active) } := by
  have hl := s.txFrame_len payload hlen
  have ha : (s.txFrame payload).ack.toList = ackBytes s.txctl.ackEn s.txctl.ackVal := by
    unfold State.txFrame ackBytes; split <;> rfl
  have hp := sendPayload_go payload s.txBegin.sendHeader
    (by have := s.txlen.isLt; simp [State.sendHeader_eq, State.txBegin]; omega)
    (by intro i h; simpa [State.sendHeader_eq, State.txBegin] using hold i h)
  rw [txBody, ← hlen, hp, Flow.go_andThen]
  simp only [State.sendTrailer, State.sendHeader_eq, Frame.bytes, Frame.covered, Frame.checksum, hl, ha,
    State.send, State.txBegin, hlen]
  simp [State.txFrame, byteSum, byteSum_append, BitVec.add_assoc]

/-! ### A run of compared byte positions (R197) -/

/-- Compare a run of byte positions, the first of them at frame byte index `idx`. -/
def hitsFrom (idx : Half) : List (Byte × Byte) → State → State
  | [], s => s
  | (e, g) :: rest, s => hitsFrom (idx + 1) rest (s.hit e g idx)

/-- The masks of the next byte positions. -/
def State.masksAhead (s : State) (l : List (Byte × Byte)) : List Mask :=
  hitMasks s.active (s.samplesAhead 8 l.length) (l.map Prod.fst) (l.map Prod.snd)

theorem State.masksAhead_cons (s : State) (e g : Byte) (rest : List (Byte × Byte)) (idx : Half) :
    s.masksAhead ((e, g) :: rest) = s.hitMask e g :: (s.hit e g idx).masksAhead rest := by
  simp only [State.masksAhead, List.length_cons, State.samplesAhead_succ, List.map_cons, hitMasks, List.zip_cons_cons]
  rfl

theorem foldl_or (ms : List Mask) (m : Mask) : ms.foldl (· ||| ·) m = m ||| orMasks ms := by
  induction ms generalizing m with
  | nil => simp [orMasks]
  | cons a rest ih =>
    simp only [orMasks, List.foldl_cons]
    rw [ih, ih (0 ||| a)]
    simp [BitVec.or_assoc]

theorem orMasks_cons (m : Mask) (ms : List Mask) : orMasks (m :: ms) = m ||| orMasks ms := by
  simp only [orMasks, List.foldl_cons]
  rw [foldl_or]; simp [orMasks]

/-- What a run of compared byte positions leaves. -/
theorem hitsFrom_eq (l : List (Byte × Byte)) (idx : Half) (s : State) :
    hitsFrom idx l s =
      { s.afterSamples 8 l.length with
        fmask := s.fmask ||| orMasks (s.masksAhead l)
        firstv := s.firstv || orMasks (s.masksAhead l) != 0
        first := if orMasks (s.masksAhead l) ≠ 0 ∧ s.firstv = false then
          idx + BitVec.ofNat 16 ((s.masksAhead l).findIdx (· != 0)) else s.first } := by
  induction l generalizing idx s with
  | nil => simp [hitsFrom, State.masksAhead, hitMasks, State.samplesAhead, orMasks]
  | cons p rest ih =>
    obtain ⟨e, g⟩ := p
    have hor : ∀ a b : Mask, a ||| b = 0 ↔ a = 0 ∧ b = 0 := by decide
    have hsam : (s.hit e g idx).afterSamples 8 rest.length =
        { (s.afterSample 8).afterSamples 8 rest.length with
          fmask := (s.hit e g idx).fmask
          firstv := (s.hit e g idx).firstv
          first := (s.hit e g idx).first } := by
      simp only [State.afterSamples, State.samplesAhead_congr (s := s.hit e g idx) (t := s.afterSample 8) rfl rfl]
      rfl
    rw [hitsFrom, ih, hsam, List.length_cons, State.afterSamples_succ, s.masksAhead_cons e g rest idx, orMasks_cons,
      List.findIdx_cons]
    generalize (s.hit e g idx).masksAhead rest = ms
    simp only [State.hit, BitVec.or_assoc]
    by_cases h1 : s.hitMask e g = 0#4
    · by_cases h2 : orMasks ms = 0#4
      · simp [h1, h2]
      · rcases Bool.eq_false_or_eq_true s.firstv with h3 | h3
        · simp [h1, h3]
        · simp [h1, h3, BitVec.ofNat_add, BitVec.add_assoc, BitVec.add_comm]
    · have h4 : ¬ s.hitMask e g ||| orMasks ms = 0#4 := fun h => h1 ((hor _ _).mp h).1
      have h5 : (s.hitMask e g != 0#4) = true := by simpa using h1
      rcases Bool.eq_false_or_eq_true s.firstv with h3 | h3 <;> simp [h1, h3, h4, h5]

/-- CSUM and POS play no part in a run of compared byte positions. -/
theorem hitsFrom_with (l : List (Byte × Byte)) (idx : Half) (s : State) (c : Byte) (p : Half) :
    hitsFrom idx l { s with csum := c, pos := p } = { hitsFrom idx l s with csum := c, pos := p } := by
  induction l generalizing idx s with
  | nil => rfl
  | cons q rest ih => exact ih (idx + 1) (s.hit q.1 q.2 idx)

theorem hitsFrom_append (l m : List (Byte × Byte)) (idx : Half) (s : State) :
    hitsFrom idx (l ++ m) s = hitsFrom (idx + BitVec.ofNat 16 l.length) m (hitsFrom idx l s) := by
  induction l generalizing idx s with
  | nil => simp [hitsFrom]
  | cons q rest ih =>
    simp only [List.cons_append, hitsFrom, ih, List.length_cons]
    rw [Nat.add_comm, BitVec.ofNat_add, ← BitVec.add_assoc]
    rfl

/-- Comparing payload bytes that the buffers hold from offset POS on. -/
theorem hitPayload_go (es gs : List Byte) (s : State) (hlen : gs.length = es.length)
    (hroom : s.pos.toNat + es.length < 65536)
    (he : ∀ i (h : i < es.length), s.mem.read (Buf.rx.addr (s.pos.toNat + i)) = some es[i])
    (hg : ∀ i (h : i < gs.length), s.mem.read (Buf.ign.addr (s.pos.toNat + i)) = some gs[i]) :
    hitPayload es.length s = .go
      { hitsFrom s.rxPayloadIndex (es.zip gs) s with
        csum := s.csum + byteSum es
        pos := s.pos + BitVec.ofNat 16 es.length } := by
  induction es generalizing gs s with
  | nil => simp [hitPayload, hitsFrom, byteSum]
  | cons e rest ih =>
    obtain ⟨g, gs, rfl⟩ : ∃ g t, gs = g :: t := by cases gs with
      | nil => simp at hlen
      | cons g t => exact ⟨g, t, rfl⟩
    have h0 := he 0 (by simp)
    have h1 := hg 0 (by simp)
    simp only [Nat.add_zero, List.getElem_cons_zero] at h0 h1
    simp only [List.length_cons] at hroom hlen
    have hp : (s.pos + 1).toNat = s.pos.toNat + 1 := by
      rw [BitVec.toNat_add]; exact Nat.mod_eq_of_lt (by simp; omega)
    have hm : (s.hitCovered e g s.rxPayloadIndex).mem = s.mem := rfl
    simp only [List.length_cons, hitPayload, State.bufAtPos, h0, h1]
    rw [ih gs _ (by omega)]
    · have hx : ({ s.hitCovered e g s.rxPayloadIndex with pos := s.pos + 1 } : State) =
          { s.hit e g s.rxPayloadIndex with csum := s.csum + e, pos := s.pos + 1 } := rfl
      have hi : ({ s.hit e g s.rxPayloadIndex with csum := s.csum + e, pos := s.pos + 1 } : State).rxPayloadIndex =
          s.rxPayloadIndex + 1 := by
        show 3 + bitHalf s.rxctl.ackEn + (s.pos + 1) = 3 + bitHalf s.rxctl.ackEn + s.pos + 1
        rw [BitVec.add_assoc, BitVec.add_assoc, BitVec.add_assoc]
      rw [hx, hitsFrom_with, hi, List.zip_cons_cons, hitsFrom, Nat.add_comm rest.length, BitVec.ofNat_add]
      simp only [byteSum, BitVec.add_assoc]
      rfl
    · show (s.pos + 1).toNat + _ < _
      rw [hp]; omega
    · intro i hi
      have := he (i + 1) (by simpa using hi)
      simp only [List.getElem_cons_succ] at this
      rw [← this]
      show s.mem.read (Buf.rx.addr ((s.pos + 1).toNat + i)) = _
      rw [hp]; congr 2; omega
    · intro i hi
      have := hg (i + 1) (by simpa using hi)
      simp only [List.getElem_cons_succ] at this
      rw [← this]
      show s.mem.read (Buf.ign.addr ((s.pos + 1).toNat + i)) = _
      rw [hp]; congr 2; omega

/-- The Len field that RXCTL and RXLEN give is that of the expected frame. -/
theorem State.rxFrame_len (s : State) (payload : List Byte) (h : payload.length = s.rxlen.toNat) :
    (s.rxFrame payload).len = s.rxLenField := by
  unfold Frame.len State.rxFrame State.rxLenField bitHalf
  rw [h]
  cases s.rxctl.ackEn <;> simp [BitVec.ofNat_add]

/-- The header of an expected frame, compared. -/
theorem State.hitHeader_eq (s : State) :
    s.hitHeader =
      { hitsFrom 0 ((startMarker s.rxctl.kind, 0x00) :: (hiByte s.lenr, 0x00) :: (loByte s.lenr, 0x00) ::
          (ackBytes s.rxctl.ackEn s.rxctl.ackVal).map (·, 0x00)) s with
        csum := s.csum + byteSum (hiByte s.lenr :: loByte s.lenr :: ackBytes s.rxctl.ackEn s.rxctl.ackVal)
        pos := s.pos } := by
  simp only [State.hitHeader, State.hitAckIfAny, ackBytes, byteSum]
  have h1 : ((((s.hit (startMarker s.rxctl.kind) 0x00 0).hitCovered (hiByte s.lenr) 0x00 1).hitCovered
      (loByte s.lenr) 0x00 2)).rxctl.ackEn = s.rxctl.ackEn := rfl
  have i1 : (0 : Half) + 1 = 1 := rfl
  have i2 : (1 : Half) + 1 = 2 := rfl
  have i3 : (2 : Half) + 1 = 3 := rfl
  have z : ∀ v : Byte, v + 0 = v := fun _ => BitVec.add_zero _
  rw [h1]
  rcases Bool.eq_false_or_eq_true s.rxctl.ackEn with h | h
  · simp only [h, if_true, List.map_cons, List.map_nil, hitsFrom, byteSum, i1, i2, i3, z, ← BitVec.add_assoc]
    rfl
  · simp only [h, Bool.false_eq_true, if_false, List.map_nil, hitsFrom, byteSum, i1, i2, i3, z, ← BitVec.add_assoc]
    rfl

/-- The positions of an expected frame with their ignore masks: header, payload, checksum byte and end marker. -/
theorem State.rxFrame_zip (s : State) (es gs : List Byte) (hlen : gs.length = es.length)
    (hes : es.length = s.rxlen.toNat) :
    (s.rxFrame es).bytes.zip ((s.rxFrame es).ignores gs) =
      ((startMarker s.rxctl.kind, 0x00) :: (hiByte s.rxLenField, 0x00) :: (loByte s.rxLenField, 0x00) ::
          (ackBytes s.rxctl.ackEn s.rxctl.ackVal).map (·, 0x00)) ++
        es.zip gs ++ [((s.rxFrame es).checksum, 0x00), (endMarker s.rxctl.endBit, 0x00)] := by
  have hl := s.rxFrame_len es hes
  have ha : (s.rxFrame es).ack.toList = ackBytes s.rxctl.ackEn s.rxctl.ackVal := by
    unfold State.rxFrame ackBytes; split <;> rfl
  have hz : ∀ t u : List Byte, (es ++ t).zip (gs ++ u) = es.zip gs ++ t.zip u := fun t u => List.zip_append hlen.symm
  simp only [Frame.bytes, Frame.ignores, Frame.covered, hl, ha]
  generalize (s.rxFrame es).checksum = cs
  show _ = _ ++ [(cs, 0x00), (endMarker s.rxctl.endBit, 0x00)]
  rcases Bool.eq_false_or_eq_true s.rxctl.ackEn with h | h <;>
    simp [ackBytes, h, List.replicate_succ, hz, State.rxFrame]

/-- One attempt of a compare whose expected payload and ignore masks the buffers hold (R197). -/
theorem rxcmpAttempt_go (s : State) (es gs : List Byte) (hes : es.length = s.rxlen.toNat)
    (hgs : gs.length = s.rxlen.toNat) (he : s.holds .rx es) (hg : s.holds .ign gs) :
    rxcmpAttempt s = .go
      (({ hitsFrom 0 ((s.rxFrame es).bytes.zip ((s.rxFrame es).ignores gs)) s.rxcmpBegin with
          csum := byteSum (s.rxFrame es).covered
          pos := s.rxlen } : State).writeResult
        (hitsFrom 0 ((s.rxFrame es).bytes.zip ((s.rxFrame es).ignores gs)) s.rxcmpBegin).fmask
        (s.rxFrame es).checksum) := by
  have hl := s.rxFrame_len es hes
  have ha : (s.rxFrame es).ack.toList = ackBytes s.rxctl.ackEn s.rxctl.ackVal := by
    unfold State.rxFrame ackBytes; split <;> rfl
  have hlen : gs.length = es.length := hgs.trans hes.symm
  have hcov : 0 + byteSum (hiByte s.rxLenField :: loByte s.rxLenField :: ackBytes s.rxctl.ackEn s.rxctl.ackVal) +
      byteSum es = byteSum (s.rxFrame es).covered := by
    have hpl : (s.rxFrame es).payload = es := rfl
    simp [Frame.covered, hl, ha, byteSum, byteSum_append, BitVec.add_assoc, hpl]
  rw [s.rxFrame_zip es gs hlen hes]
  generalize hhdr : ((startMarker s.rxctl.kind, (0x00 : Byte)) :: (hiByte s.rxLenField, 0x00) ::
    (loByte s.rxLenField, 0x00) :: (ackBytes s.rxctl.ackEn s.rxctl.ackVal).map (·, 0x00)) = hdr
  have hhl : BitVec.ofNat 16 hdr.length = 3 + bitHalf s.rxctl.ackEn := by
    rw [← hhdr]; unfold ackBytes bitHalf; split <;> rfl
  have hh : s.rxcmpBegin.hitHeader = { hitsFrom 0 hdr s.rxcmpBegin with
      csum := 0 + byteSum (hiByte s.rxLenField :: loByte s.rxLenField :: ackBytes s.rxctl.ackEn s.rxctl.ackVal)
      pos := 0 } := by
    rw [State.hitHeader_eq, ← hhdr]; rfl
  have hfix : ∀ (l : List (Byte × Byte)) (idx : Half) (t : State), (hitsFrom idx l t).mem = t.mem ∧
      (hitsFrom idx l t).rxctl = t.rxctl ∧ (hitsFrom idx l t).lenr = t.lenr ∧ (hitsFrom idx l t).active = t.active := by
    intro l idx t; rw [hitsFrom_eq]; exact ⟨rfl, rfl, rfl, rfl⟩
  have hm : s.rxcmpBegin.hitHeader.mem = s.mem := by rw [hh]; exact (hfix hdr 0 s.rxcmpBegin).1
  have hpos : s.rxcmpBegin.hitHeader.pos = 0 := by rw [hh]
  have hp := hitPayload_go es gs s.rxcmpBegin.hitHeader hlen
    (by have := s.rxlen.isLt; simp [hpos]; omega)
    (by intro i h; simpa [hpos, hm] using he i h)
    (by intro i h; simpa [hpos, hm] using hg i h)
  rw [rxcmpAttempt, ← hes, hp, Flow.go_andThen]
  have hidx : s.rxcmpBegin.hitHeader.rxPayloadIndex = 3 + bitHalf s.rxctl.ackEn := by
    rw [hh]; show 3 + bitHalf (hitsFrom 0 hdr s.rxcmpBegin).rxctl.ackEn + 0 = _
    rw [(hfix hdr 0 s.rxcmpBegin).2.1]; exact BitVec.add_zero _
  rw [hidx, hh, hitsFrom_with]
  have happ : hitsFrom (3 + bitHalf s.rxctl.ackEn) (es.zip gs) (hitsFrom 0 hdr s.rxcmpBegin) =
      hitsFrom 0 (hdr ++ es.zip gs) s.rxcmpBegin := by
    rw [hitsFrom_append, hhl]; congr 1; exact (BitVec.zero_add _).symm
  have hzl : (es.zip gs).length = es.length := by simp [hlen]
  have hend : BitVec.ofNat 16 (hdr ++ es.zip gs).length = 3 + s.rxLenField := by
    rw [List.length_append, BitVec.ofNat_add, hhl, hzl, hes, BitVec.add_assoc, BitVec.add_comm (bitHalf _)]
    simp [State.rxLenField]
  rw [happ, hitsFrom_append (hdr ++ es.zip gs), hend]
  generalize hQ : hitsFrom 0 (hdr ++ es.zip gs) s.rxcmpBegin = Q
  have hQl : Q.lenr = s.rxLenField := by rw [← hQ, (hfix _ _ _).2.2.1]; rfl
  have hQr : Q.rxctl = s.rxctl := by rw [← hQ, (hfix _ _ _).2.1]; rfl
  have i1 : (0 : Half) + (3 + s.rxLenField) = 3 + s.rxLenField := BitVec.zero_add _
  have i2 : 3 + s.rxLenField + 1 = 4 + s.rxLenField := by
    rw [BitVec.add_comm 3, BitVec.add_assoc, BitVec.add_comm 4]; rfl
  have i3 : (0 : Half) + BitVec.ofNat 16 es.length = s.rxlen := by rw [hes]; simp
  simp only [State.hitTrailer, hcov, hitsFrom, i1, i2, i3]
  rw [← hQl, ← hQr]
  rfl

end Sys2Proof.Machine
end

