-- ==== Sys2Proof/Laws/HostPort.lean ====
section
/-! SUPPORT. Which register a host address reaches, and that the register layouts read back what was written. -/

namespace Sys2Proof.Machine

/-- An address that is not a multiple of 4 up to 0x38 reaches no register (R31, R61). -/
theorem regAt_none (a : Half) (h : ¬ (a.toNat % 4 = 0 ∧ a.toNat ≤ 0x38)) : regAt a = none := by
  have hne : ∀ n : Half, (n.toNat % 4 = 0 ∧ n.toNat ≤ 0x38) → a ≠ n := fun n hn e => h (e ▸ hn)
  unfold regAt
  iterate 15 rw [if_neg (hne _ (by decide))]

/-- Every multiple of 4 up to 0x38 reaches a register; which of them are read-only, CMD and STATUS (R31). -/
theorem regAt_some (a : Half) (h : a.toNat % 4 = 0 ∧ a.toNat ≤ 0x38) :
    ∃ r, regAt a = some r ∧ (r.readOnly = true ↔ (a.toNat = 4 ∨ 0x24 ≤ a.toNat)) ∧ (r = .cmd ↔ a = 0) ∧
      (r = .status ↔ a = 4) := by
  obtain ⟨h1, h2⟩ := h
  obtain ⟨n, hn, rfl⟩ : ∃ n, n < 15 ∧ a = BitVec.ofNat 16 (4 * n) :=
    ⟨a.toNat / 4, by omega, by apply BitVec.eq_of_toNat_eq; simp; omega⟩
  interval_cases n <;> simp [regAt, Reg.readOnly]

/-- A write of a register leaves every field but the register's own. -/
theorem State.writeReg_frame (s : State) (w : Word) (r : Reg) :
    ∃ (a : Mask) (c : TxCtl) (tl : Half) (d : RxCtl) (rl : Half) (b t : Word), s.writeReg w r =
      { s with active := a, txctl := c, txlen := tl, rxctl := d, rxlen := rl, budget := b, timeout := t } := by
  cases r <;> exact ⟨_, _, _, _, _, _, _, rfl⟩

end Sys2Proof.Machine
end

