-- ==== Sys2Proof/Laws/PerInstr.lean ====
section
/-! SUPPORT. Statements made command by command. EncodeFormat: a command's word has the command's code in OP (R101) and
0 in the reserved bits 11:9 (R100). -/

namespace Sys2Proof.Laws

/-- The code of a command (R101). -/
def EncodeFormat.code : Instr → Byte
  | .nop => 0x00
  | .clrerr => 0x01
  | .srst => 0x02
  | .csclr => 0x10
  | .csadd _ => 0x11
  | .csget => 0x12
  | .cschk => 0x13
  | .cmp _ _ _ _ => 0x20
  | .waitlvl _ _ => 0x21
  | .txframe => 0x30
  | .rxcap => 0x31
  | .rxcmp _ => 0x32
  | .xcap => 0x33
  | .xcmp _ => 0x34

/-- The word of a command has its code in OP and 0 in the reserved bits (R100, R101). -/
def EncodeFormat.Statement (i : Instr) : Prop :=
  wordOp (encode i) = EncodeFormat.code i ∧ wordReserved (encode i) = 0

theorem EncodeFormat.nop : EncodeFormat.Statement .nop := ⟨wordOp_packWord .., wordReserved_packWord ..⟩

theorem EncodeFormat.clrerr : EncodeFormat.Statement .clrerr := ⟨wordOp_packWord .., wordReserved_packWord ..⟩

theorem EncodeFormat.srst : EncodeFormat.Statement .srst := ⟨wordOp_packWord .., wordReserved_packWord ..⟩

theorem EncodeFormat.csclr : EncodeFormat.Statement .csclr := ⟨wordOp_packWord .., wordReserved_packWord ..⟩

theorem EncodeFormat.csadd (a : Byte) : EncodeFormat.Statement (.csadd a) :=
  ⟨wordOp_packWord .., wordReserved_packWord ..⟩

theorem EncodeFormat.csget : EncodeFormat.Statement .csget := ⟨wordOp_packWord .., wordReserved_packWord ..⟩

theorem EncodeFormat.cschk : EncodeFormat.Statement .cschk := ⟨wordOp_packWord .., wordReserved_packWord ..⟩

theorem EncodeFormat.cmp (r : Bool) (n : BitVec 4) (a b : Byte) : EncodeFormat.Statement (.cmp r n a b) :=
  ⟨wordOp_packWord .., wordReserved_packWord ..⟩

theorem EncodeFormat.waitlvl (r l : Bool) : EncodeFormat.Statement (.waitlvl r l) :=
  ⟨wordOp_packWord .., wordReserved_packWord ..⟩

theorem EncodeFormat.txframe : EncodeFormat.Statement .txframe := ⟨wordOp_packWord .., wordReserved_packWord ..⟩

theorem EncodeFormat.rxcap : EncodeFormat.Statement .rxcap := ⟨wordOp_packWord .., wordReserved_packWord ..⟩

theorem EncodeFormat.rxcmp (r : Bool) : EncodeFormat.Statement (.rxcmp r) :=
  ⟨wordOp_packWord .., wordReserved_packWord ..⟩

theorem EncodeFormat.xcap : EncodeFormat.Statement .xcap := ⟨wordOp_packWord .., wordReserved_packWord ..⟩

theorem EncodeFormat.xcmp (r : Bool) : EncodeFormat.Statement (.xcmp r) :=
  ⟨wordOp_packWord .., wordReserved_packWord ..⟩

end Sys2Proof.Laws
end

