-- ==== Sys2Proof/Tests/Slice0.lean ====
section
/-! SUPPORT. Tests on small states, their expected results from the spec's own vectors (spec/95_test_vectors.md) or
worked out by hand from its rules, and for each obligation with hypotheses a witness that meets them together. -/

namespace Sys2Proof.Tests

open Sys2Proof Sys2Proof.Machine

/-! ## Well-formedness and decoding -/

/-- R102 (h): a bit count of 0 is refused. -/
theorem test_cmp_count_zero_ill_formed : (Instr.cmp false 0 0xA5 0x00).wellFormed = false := by decide

/-- R102 (h): a bit count of 9 is refused. -/
theorem test_cmp_count_nine_ill_formed : (Instr.cmp true 9 0xA5 0x00).wellFormed = false := by decide

/-- R102 (h): the bounds of the bit count are well formed. -/
theorem test_cmp_count_bounds_well_formed :
    (Instr.cmp false 1 0 0).wellFormed = true ∧ (Instr.cmp true 8 0xA5 0x01).wellFormed = true := by decide

/-- What the decoder reads from a word, none where it refuses it. -/
def read (w : Word) : Option Instr :=
  match decode w with
  | .ok i => some i
  | .error _ => none

/-- Why the decoder refuses a word. -/
def why (w : Word) : Option Reject :=
  match decode w with
  | .ok _ => none
  | .error r => some r

/-! Words written out by hand from R100 and R101: B, A, N, 000, R, OP. -/

theorem test_decode_nop : read 0x00000000 = some .nop := by decide
theorem test_decode_clrerr : read 0x00000001 = some .clrerr := by decide
theorem test_decode_srst : read 0x00000002 = some .srst := by decide
theorem test_decode_csclr : read 0x00000010 = some .csclr := by decide
theorem test_decode_csadd : read 0b00000000101010100000000000010001 = some (.csadd 0xAA) := by decide
theorem test_decode_csget : read 0x00000012 = some .csget := by decide
theorem test_decode_cschk : read 0x00000013 = some .cschk := by decide
theorem test_decode_cmp : read 0b11110000101001010100000100100000 = some (.cmp true 4 0xA5 0xF0) := by decide
theorem test_decode_waitlvl : read 0b00000000000000010000000000100001 = some (.waitlvl false true) := by decide
theorem test_decode_waitlvl_retried : read 0b00000000000000000000000100100001 = some (.waitlvl true false) := by decide
theorem test_decode_txframe : read 0x00000030 = some .txframe := by decide
theorem test_decode_rxcap : read 0x00000031 = some .rxcap := by decide
theorem test_decode_rxcmp : read 0b00000000000000000000000100110010 = some (.rxcmp true) := by decide
theorem test_decode_xcap : read 0x00000033 = some .xcap := by decide
theorem test_decode_xcmp : read 0b00000000000000000000000100110100 = some (.xcmp true) := by decide

/-- T-IL1 to T-IL10: ill-formed words, by the clause the spec names. -/
theorem test_rejects :
    why 0x00000040 = some .unknownOp ∧ why 0x00000100 = some .retryNotAllowed ∧
    why 0x00010000 = some .byteNotUsed ∧ why 0x00000130 = some .retryNotAllowed ∧
    why 0x00000230 = some .reservedBits ∧ why 0x00A50020 = some .bitCountRange ∧
    why 0x00A59020 = some .bitCountRange ∧ why 0x00020021 = some .levelBits ∧
    why 0x00051011 = some .bitCountNotUsed ∧ why 0x01000012 = some .ignoreMaskNotUsed := by decide

/-! ## Small states -/

/-- An idle block with the channels `act` active. -/
def withActive (act : Mask) : State := { State.reset with active := act }

/-- One value on all four channels. -/
def all (v : Byte) : Lanes := ⟨v, v, v, v⟩

/-- `p` of the next state, and false for any other outcome. -/
def nextHas (o : Host.Outcome State Fault Refusal) (p : State → Bool) : Bool :=
  match o with
  | .next t => p t
  | .fault _ => false
  | .refused _ => false

/-- The fault of an outcome. -/
def faultOf (o : Host.Outcome State Fault Refusal) : Option Fault :=
  match o with
  | .next _ => none
  | .fault f => some f
  | .refused _ => none

/-- STATUS, RESULT, SUMS and ERRINFO of the next state: what the vectors list under "After". -/
def after (o : Host.Outcome State Fault Refusal) : Option (Word × Word × Word × Word) :=
  match o with
  | .next t => some (t.statusReg, t.resultReg, t.sumsReg, t.errinfoReg)
  | .fault _ => none
  | .refused _ => none

/-- A transmission state: TXBUF holds `11 22 33` (T-TX2). -/
def tx2 : State :=
  { withActive 0xF with
    txctl := ⟨true, true, true, 0x06⟩
    txlen := 3
    mem := [(0x1000, 0x11), (0x1001, 0x22), (0x1002, 0x33)] }

/-- A compare state: one payload byte 06, ignore mask 00, and a frame on the wire that answers `v` for it (T-RM1). -/
def rm (v : Lanes) (cs : Lanes) : State :=
  { withActive 0xF with
    rxlen := 1
    budget := 2
    mem := [(0x2000, 0x06), (0x3000, 0x00)]
    samples := [all 0x01, all 0x00, all 0x01, v, cs, all 0x03] }

/-- A capture state: the frame `01 00 01 2A cs 03` on channel 1 (worked out by hand: 0x00 + 0x01 + 0x2A + 0xD5 = 0x100). -/
def rc (cs : Byte) : State :=
  { withActive 0x2 with
    rxlen := 1
    rpos := 7
    samples := [all 0x01, all 0x00, all 0x01, all 0x2A, all cs, all 0x03] }

/-- PAGE_MAX out of the range of R5, and as many payload bytes as TXLEN and RXLEN can say. -/
def unbounded : State :=
  { withActive 1 with txlen := 0xFFFF, rxlen := 0xFFFF, params := ⟨0x10000, 0x10000⟩ }

/-! ## One step each -/

/-- T-CS1's last CSGET: CSUM = 0xBF gives VALUE = 0x41. -/
theorem test_csget_literal_example :
    after (exec .csget { State.reset with csum := 0xBF }) = some (0, 0x00004100, 0x000000BF, 0) := by decide

/-- T-CS3: 0xFF + 0x01 wraps. -/
theorem test_csadd_wraps : after (exec (.csadd 0x01) { State.reset with csum := 0xFF }) = some (0, 0, 0, 0) := by decide

/-- T-CS2 and T-CS6: the check of a sum that is 0 and of one that is not. -/
theorem test_cschk : after (exec .cschk State.reset) = some (0, 0x00000100, 0, 0) ∧
    after (exec .cschk { State.reset with csum := 0x01 }) = some (0, 0, 1, 0) := by decide

/-- R131. -/
theorem test_csclr : after (exec .csclr { State.reset with csum := 0xBF, rsum := 0x12 }) = some (0, 0, 0x1200, 0) := by
  decide

/-- T-CMP1: one channel diverges. -/
theorem test_cmp_one_channel :
    after (exec (.cmp false 8 0xA5 0x00) { withActive 0xF with samples := [⟨0xA5, 0xA5, 0xA4, 0xA5⟩] }) =
      some (0x00000040, 0x00000004, 0, 0x00040000) := by decide

/-- T-CMP8: bit count 1. -/
theorem test_cmp_bit_count_one :
    after (exec (.cmp false 1 0x01 0x00) { withActive 0xF with samples := [⟨0x01, 0x00, 0xFF, 0xFE⟩] }) =
      some (0x00000040, 0x0000000A, 0, 0x000A0000) := by decide

/-- T-WL4: no latching. -/
theorem test_waitlvl_no_latching :
    after (exec (.waitlvl false true) { withActive 0x3 with timeout := 2, levels := [0x1, 0x2] }) =
      some (0x00000030, 0x00000001, 0, 0x00010000) := by decide

/-- T-WL3: waiting for level 0, success at the second of four polls. -/
theorem test_waitlvl_early_success :
    nextHas (exec (.waitlvl false false) { withActive 0xF with timeout := 4, levels := [0xF, 0x0] }) (fun t =>
      t.trem == 2 && t.err == 0 && t.trace == [.level 0xF, .level 0x0]) = true := by decide

/-- T-TX2: the bytes sent. -/
theorem test_txframe_bytes :
    nextHas (exec .txframe tx2) (fun t => t.trace ==
      [.send 0xF 0x81, .send 0xF 0x00, .send 0xF 0x04, .send 0xF 0x06, .send 0xF 0x11, .send 0xF 0x22, .send 0xF 0x33,
        .send 0xF 0x90, .send 0xF 0x17]) = true ∧
    after (exec .txframe tx2) = some (0, 0x00009000, 0x00000070, 0) := by decide

/-- R69: a payload byte that nothing has written. -/
theorem test_txframe_unwritten :
    faultOf (exec .txframe { tx2 with txlen := 4 }) = some (.unwrittenByte .tx 3) := by decide

/-- R193, by hand: the payload byte stored at RXBUF[0], RPOS and RSUM. -/
theorem test_rxcap_stores :
    nextHas (exec .rxcap (rc 0xD5)) (fun t =>
      t.mem == [(0x2000, 0x2A)] && t.rpos == 1 && t.rsum == 0x2A && t.csum == 0 && t.err == 0) = true := by decide

/-- R195, by hand: a checksum byte one too large leaves CSUM = 0x01 at position 3 + Len. -/
theorem test_rxcap_checksum_error :
    after (exec .rxcap (rc 0xD6)) = some (0x00000020, 0, 0x00002A01, 0x01000004) := by decide

/-- T-RM1: channel 2 sends another payload byte and so another checksum byte. -/
theorem test_rxcmp_one_channel :
    after (exec (.rxcmp false) (rm ⟨0x06, 0x06, 0x15, 0x06⟩ ⟨0xF9, 0xF9, 0xEA, 0xF9⟩)) =
      some (0x00000040, 0x0000F904, 0x00000007, 0x00040003) := by decide

/-- R233: a first attempt that matches uses one of two. -/
theorem test_rxcmp_first_attempt_matches :
    nextHas (exec (.rxcmp true) (rm (all 0x06) (all 0xF9))) (fun t =>
      t.rrem == 1 && t.err == 0 && t.resMask == 0 && t.csum == 0x07) = true := by decide

/-- R201, by hand: an empty command frame is sent before the capture. -/
theorem test_xcap_sends_first :
    nextHas (exec .xcap (rc 0xD5)) (fun t =>
      t.trace.take 6 == [.send 0x2 0x01, .send 0x2 0x00, .send 0x2 0x00, .send 0x2 0x00, .send 0x2 0x03,
        .sample 8 (all 0x01)] && t.rpos == 1) = true := by decide

/-- R202, by hand: the mask and FIRST of an exchange whose response differs in the payload byte. -/
theorem test_xcmp_mismatch :
    nextHas (exec (.xcmp false) (rm ⟨0x06, 0x07, 0x06, 0x06⟩ (all 0xF9))) (fun t =>
      t.resMask == 0x2 && t.errPos == 3 && t.err == 4 && t.trace.length == 11) = true := by decide

/-- R251. -/
theorem test_nop : nextHas (exec .nop (rc 0)) (fun t => t == rc 0) = true := by decide

/-- R252: CLRERR clears the record and leaves the rest. -/
theorem test_clrerr :
    nextHas (exec .clrerr { rc 0 with err := 4, seq := true, errPos := 3, errMask := 1, errByte := 9 })
      (fun t => t == rc 0) = true := by decide

/-- R253: SRST keeps the buffers and clears RPOS. -/
theorem test_srst : nextHas (exec .srst { tx2 with rpos := 7 }) (fun t =>
    t.mem == tx2.mem && t.rpos == 0 && t.txlen == 0 && t.active == 0) = true := by decide

/-- T-IL12, T-IL13, T-IL17: parameters that a command refuses. -/
theorem test_bad_parameters :
    after (exec .txframe { withActive 0xF with txlen := 257 }) = some (0x70, 0, 0, 0x30000000) ∧
    after (exec .rxcap { withActive 0x3 with rxlen := 1 }) = some (0x70, 0, 0, 0x31000000) ∧
    after (exec (.cmp false 8 0xA5 0x00) State.reset) = some (0x70, 0, 0, 0x20000000) := by decide

/-- R94: with the bound on PAGE_MAX lifted, 0xFFFF payload bytes and an ack byte are refused, and without one accepted. -/
theorem test_len_field_bound :
    after (exec .txframe { unbounded with txctl := ⟨false, true, false, 6⟩ }) = some (0x70, 0, 0, 0x30000000) ∧
    unbounded.legal .txframe = true := by decide

/-- A state whose next port event is a read, answered by `r`. -/
def answers (s : State) (e : PortEvent) (r : Reply) : Bool :=
  nextHas (step { s with port := [e] }) fun t => t.replies == [r]

/-- T-BE1, T-BE2, T-BE3, T-BE4, T-BE5, T-BE7: bus errors. -/
theorem test_bus_errors :
    answers State.reset (.write 0x0002 .four 0) ⟨false, 0⟩ = true ∧
    answers State.reset (.write 0x0008 .one 0xF) ⟨false, 0⟩ = true ∧
    answers State.reset (.write 0x0004 .four 0xFFFFFFFF) ⟨false, 0⟩ = true ∧
    answers State.reset (.read 0x003C .four) ⟨false, 0⟩ = true ∧
    answers State.reset (.read 0x1400 .one) ⟨false, 0⟩ = true ∧
    answers State.reset (.read 0x1000 .four) ⟨false, 0⟩ = true := by decide

/-- T-BE8 and RF1: CMD reads as 0, and a command is refused while an error stands. -/
theorem test_cmd_reads_zero_and_refusal :
    answers State.reset (.read 0x0000 .four) ⟨true, 0⟩ = true ∧
    nextHas (step { withActive 0xF with err := 4, port := [.write 0x0000 .four 0x00000030] }) (fun t =>
      t.seq && t.trace.isEmpty && t.err == 4) = true := by decide

/-- R27 and T-FSM1: the first step of a posted TXFRAME starts it, the second sends the start marker. -/
theorem test_byte_level_first_steps :
    nextHas (Host.Core.run Sys2Proof.core 1 { tx2 with port := [.post 0x00000030] }) (fun t =>
      t.fsm == .txStart && t.busy && t.trace.isEmpty) = true ∧
    nextHas (Host.Core.run Sys2Proof.core 2 { tx2 with port := [.post 0x00000030] }) (fun t =>
      t.fsm == .txLenHi && t.statusReg == 0x201 && t.trace == [.send 0xF 0x81]) = true := by decide

/-! ## Witnesses: states and operands that meet the hypotheses of the obligations -/

theorem witness_DecodeOfEncodeIsTheCommand :
    (Instr.cmp true 1 0xA5 0x01).wellFormed = true ∧ (Instr.cmp false 8 0 0).wellFormed = true := by decide

theorem witness_EncodeOfDecodeIsTheWord : decode 0xF0A54120 = .ok (.cmp true 4 0xA5 0xF0) := rfl

/-- An idle block whose host writes `w` to CMD next. -/
def writes (w : Word) : State := { withActive 0xF with port := [.write 0x0000 .four w] }

theorem witness_StepRunsTheDecodedCommand :
    (writes 0x30).rst = false ∧ (writes 0x30).port = .write 0x0000 .four 0x30 :: [] ∧ decode 0x30 = .ok .txframe :=
  ⟨rfl, rfl, rfl⟩

theorem witness_IllFormedWordEndsAsIllegalCommand :
    (writes 0x40).rst = false ∧ (writes 0x40).port = .write 0x0000 .four 0x40 :: [] ∧ (writes 0x40).ready ∧
      (writes 0x40).fsm = .idle ∧ ∃ r, decode 0x40 = .error r := ⟨rfl, rfl, ⟨rfl, rfl⟩, rfl, _, rfl⟩

/-- A running command: TXFRAME at its first state. -/
def running : State := { tx2 with busy := true, fsm := .txStart, opr := 0x30 }

theorem witness_BusyRefusesEveryCommand : running.busy = true := rfl

theorem witness_ErrorRefusesAllButControlCommands :
    ({ State.reset with err := 4 } : State).busy = false ∧ ({ State.reset with err := 4 } : State).err ≠ 0 ∧
      Instr.csget ≠ .nop ∧ Instr.csget ≠ .clrerr ∧ Instr.csget ≠ .srst := by decide

/-- One running state of each kind: transmit, payload, receive, AUX with either command; and the block in IDLE. -/
theorem witness_RunningBlockTakesOneEventAStep :
    running.rst = false ∧ running.port = [] ∧ (∃ t, step running = .next t) ∧
      (∃ t, step { running with fsm := .txPayload, pos := 2 } = .next t) ∧
      (tx2.fsm = .idle ∧ ∃ t, step { tx2 with port := [.quiet] } = .next t) ∧
      (∃ t, step { running with fsm := .rxStart, opr := 0x31, samples := [all 1] } = .next t) ∧
      (∃ t, step { running with fsm := .aux, opr := 0x00008020, samples := [all 1] } = .next t) ∧
      ∃ t, step { running with fsm := .aux, opr := 0x00000021, levels := [0] } = .next t :=
  ⟨rfl, rfl, ⟨_, rfl⟩, ⟨_, rfl⟩, ⟨rfl, _, rfl⟩, ⟨_, rfl⟩, ⟨_, rfl⟩, ⟨_, rfl⟩⟩

/-- A transport command of each start state is accepted: TX_START, RX_START, AUX. -/
theorem witness_PostedTransportCommandStarts :
    ({ tx2 with port := [.post 0x30] } : State).rst = false ∧ tx2.ready ∧ decode 0x30 = .ok .txframe ∧
      isTransport .txframe = true ∧ tx2.legal .txframe = true ∧ (rc 0).legal .rxcap = true ∧
      (rm (all 0) (all 0)).legal (.cmp true 8 0 0) = true ∧
      ({ withActive 1 with timeout := 1 } : State).legal (.waitlvl false true) = true :=
  ⟨rfl, ⟨rfl, rfl⟩, rfl, rfl, rfl, rfl, rfl, rfl⟩

/-- The ready state of the checksum, control and error statements, and one with an error recorded. -/
theorem witness_ready : State.reset.ready ∧ State.reset.busy = false ∧ State.reset.err = 0 ∧
    ({ State.reset with err := 2, fsm := .rxEnd, busy := true } : State).err ≠ 0 := by decide

theorem witness_CsaddRunsSumAnyOrderToOneChecksum : State.reset.ready ∧ [(1 : Byte), 2].Perm [2, 1] :=
  ⟨⟨rfl, rfl⟩, List.Perm.swap 2 1 []⟩

theorem witness_DivergeComparesTheSelectedBits : 1 ≤ 1 ∧ 1 ≤ 8 ∧ 1 ≤ 8 ∧ 8 ≤ 8 := by decide

/-- One attempt and one of several, at both bounds of the bit count and at BUDGET = 1. -/
theorem witness_CmpComparesUntilMatchOrBudget :
    (withActive 1).ready ∧ (withActive 1).active ≠ 0 ∧ 1 ≤ (1 : BitVec 4).toNat ∧ (8 : BitVec 4).toNat ≤ 8 ∧
      ({ withActive 1 with budget := 1 } : State).budget ≠ 0 := by decide

theorem witness_CmpIgnoresBitsAboveTheCount :
    (∀ i, i < 4 → (0xF5 : Byte).getLsbD i = (0x05 : Byte).getLsbD i ∧
      (0xF0 : Byte).getLsbD i = (0x00 : Byte).getLsbD i) ∧
    (withActive 1).ready ∧ (withActive 1).cmpLegal false 4 = true ∧
    ∃ t, exec (.cmp false 4 0xF5 0xF0) { withActive 1 with samples := [all 5] } = .next t :=
  ⟨by decide, ⟨rfl, rfl⟩, rfl, _, rfl⟩

theorem witness_WaitlvlPollsUntilLevelOrTimeout :
    ({ withActive 1 with timeout := 1 } : State).ready ∧ ({ withActive 1 with timeout := 1 } : State).active ≠ 0 ∧
      ({ withActive 1 with timeout := 1 } : State).timeout ≠ 0 := by decide

/-- No channel; no timeout; no budget. -/
theorem witness_ComparatorCommandsRefuseBadParameters :
    State.reset.ready ∧ State.reset.fsm = .idle ∧ State.reset.active = 0 ∧ (withActive 1).active ≠ 0 ∧
      (withActive 1).timeout = 0 ∧ (withActive 1).budget = 0 := by decide

theorem witness_RetryMakesAtMostBudgetAttempts :
    attemptOf (.rxcmp true) = some rxcmpAttempt ∧ retried (.rxcmp true) = true ∧
      (rm (all 6) (all 0xF9)).ready ∧ (rm (all 6) (all 0xF9)).legal (.rxcmp true) = true ∧
      ∃ t, exec (.rxcmp true) (rm (all 6) (all 0xF9)) = .next t := ⟨rfl, rfl, ⟨rfl, rfl⟩, rfl, _, rfl⟩

theorem witness_WaitlvlBudgetsNest :
    ({ withActive 1 with timeout := 1, budget := 1 } : State).ready ∧
      ({ withActive 1 with timeout := 1, budget := 1 } : State).active ≠ 0 ∧
      ({ withActive 1 with timeout := 1, budget := 1 } : State).timeout ≠ 0 ∧
      ({ withActive 1 with timeout := 1, budget := 1 } : State).budget ≠ 0 := by decide

/-- The buffers of `rm` as lists. -/
theorem rm_holds (v cs : Lanes) : (rm v cs).holds .rx [0x06] ∧ (rm v cs).holds .ign [0x00] := by
  constructor <;> intro i h <;> (obtain rfl : i = 0 := by simpa using h) <;> rfl

theorem witness_CompareCommandsComplete :
    (rm (all 6) (all 0)).ready ∧ (rm (all 6) (all 0)).params.wf ∧ (rm (all 6) (all 0)).rxlen.toNat = 1 ∧
      (rm (all 6) (all 0)).holds .rx [0x06] ∧ (rm (all 6) (all 0)).holds .ign [0x00] ∧
      (rm (all 6) (all 0)).rxcmpLegal true = true ∧ (rm (all 6) (all 0)).holds .tx [] ∧
      (rm (all 6) (all 0)).txlen.toNat = 0 ∧ (rm (all 6) (all 0)).xcmpLegal true = true :=
  ⟨⟨rfl, rfl⟩, by decide, rfl, (rm_holds _ _).1, (rm_holds _ _).2, rfl, fun i h => by simp at h, rfl, rfl⟩

/-- TXBUF of `tx2` as a list. -/
theorem tx2_holds : tx2.holds .tx [0x11, 0x22, 0x33] := by
  intro i h
  have : i = 0 ∨ i = 1 ∨ i = 2 := by simp at h; omega
  rcases this with rfl | rfl | rfl <;> rfl

/-- A payload of three bytes, the empty one, and the longest length. -/
theorem witness_TxframeSendsTheFrame :
    tx2.ready ∧ tx2.active ≠ 0 ∧ tx2.params.wf ∧ tx2.txlen.toNat ≤ tx2.params.pageMax ∧ tx2.txlen.toNat = 3 ∧
      tx2.holds .tx [0x11, 0x22, 0x33] ∧ (withActive 1).txlen.toNat = 0 ∧ (withActive 1).holds .tx [] ∧
      ({ tx2 with txlen := 256 } : State).txlen.toNat ≤ tx2.params.pageMax :=
  ⟨⟨rfl, rfl⟩, by decide, by decide, by decide, rfl, tx2_holds, rfl, fun i h => by simp at h, by decide⟩

/-- Each kind of bad parameter, at the first value that is bad. -/
theorem witness_FrameCommandsRefuseBadParameters :
    State.reset.ready ∧ State.reset.fsm = .idle ∧ State.reset.active = 0 ∧
      State.reset.params.pageMax < (257 : Half).toNat ∧
      ((3 : Mask) ≠ 1 ∧ (3 : Mask) ≠ 2 ∧ (3 : Mask) ≠ 4 ∧ (3 : Mask) ≠ 8) ∧
      State.reset.params.bufSize < (1000 : Half).toNat + (25 : Half).toNat ∧ State.reset.budget = 0 := by decide

theorem witness_TxframeStopsAtAnUnwrittenByte :
    ({ tx2 with txlen := 4 } : State).ready ∧ ({ tx2 with txlen := 4 } : State).txframeLegal = true ∧
      ({ tx2 with txlen := 4 } : State).params.wf ∧ [(0x11 : Byte), 0x22, 0x33].length < (4 : Half).toNat ∧
      ({ tx2 with txlen := 4 } : State).holds .tx [0x11, 0x22, 0x33] ∧
      ({ tx2 with txlen := 4 } : State).mem.read (Buf.tx.addr 3) = none :=
  ⟨⟨rfl, rfl⟩, rfl, by decide, by decide, tx2_holds, rfl⟩

/-- A first byte, and a third byte, that is not the expected one. -/
theorem witness_RxcapStopsAtAStructuralMismatch :
    ({ rc 0 with samples := [all 0x81] } : State).ready ∧
      ({ rc 0 with samples := [all 0x81] } : State).rxcapLegal = true ∧
      ({ rc 0 with samples := [all 0x81] } : State).captureAhead 1 = [0x81] ∧
      ({ rc 0 with samples := [all 0x01, all 0x00, all 0x02] } : State).captureAhead 3 = [0x01, 0x00, 0x02] :=
  ⟨⟨rfl, rfl⟩, rfl, rfl, rfl⟩

/-- A whole frame captured: right, with a wrong checksum byte, and with a wrong end marker. -/
theorem witness_RxcapCapturesTheFrame :
    (rc 0xD5).ready ∧ (rc 0xD5).rxcapLegal = true ∧ (rc 0xD5).params.wf ∧ (rc 0xD5).rxctl.ackEn.toNat = 0 ∧
      (rc 0xD5).rxlen.toNat = 1 ∧ (rc 0xD5).captureAhead 6 = [0x01, 0x00, 0x01, 0x2A, 0xD5, 0x03] ∧
      (rc 0xD6).captureAhead 6 = [0x01, 0x00, 0x01, 0x2A, 0xD6, 0x03] ∧
      ({ rc 0 with samples := [all 1, all 0, all 1, all 7, all 9, all 0x17] } : State).captureAhead 6 =
        [0x01, 0x00, 0x01, 0x07, 0x09, 0x17] :=
  ⟨⟨rfl, rfl⟩, rfl, by decide, rfl, rfl, rfl, rfl, rfl⟩

/-- A sender and a receiver of the frame `01 00 01 2A D5 03`. -/
theorem witness_CapturedTransmissionHasAValidChecksum :
    ({ withActive 0xF with txlen := 1, mem := [(0x1000, 0x2A)] } : State).ready ∧
      ({ withActive 0xF with txlen := 1, mem := [(0x1000, 0x2A)] } : State).txframeLegal = true ∧
      ({ withActive 0xF with txlen := 1, mem := [(0x1000, 0x2A)] } : State).mem.read (Buf.tx.addr 0) = some 0x2A ∧
      nextHas (exec .txframe { withActive 0xF with txlen := 1, mem := [(0x1000, 0x2A)] }) (fun t =>
        t.trace == [(0x01 : Byte), 0x00, 0x01, 0x2A, 0xD5, 0x03].map (.send 0xF)) = true ∧
      (rc 0xD5).ready ∧ (rc 0xD5).rxcapLegal = true ∧ (rc 0xD5).rxlen = 1 ∧ (rc 0xD5).rxctl.kind = false ∧
      (rc 0xD5).rxctl.ackEn = false ∧ (rc 0xD5).rxctl.endBit = false ∧
      (rc 0xD5).captureAhead 6 = [0x01, 0x00, 0x01, 0x2A, 0xD5, 0x03] :=
  ⟨⟨rfl, rfl⟩, rfl, rfl, by decide, ⟨rfl, rfl⟩, rfl, rfl, rfl, rfl, rfl, rfl⟩

/-- The frame `01 00 01 2A D5 03`, with its checksum byte, its first and its last byte changed. -/
theorem witness_OneChangedByteIsAlwaysDetected :
    (Frame.mk false none [0x2A] false).bytes = [0x01, 0x00, 0x01, 0x2A, 0xD5, 0x03] ∧
      (rc 0xD6).captureAhead 6 = (Frame.mk false none [0x2A] false).bytes.set 4 0xD6 ∧
      ({ rc 0 with samples := [all 0x81, all 0, all 1, all 0x2A, all 0xD5, all 3] } : State).captureAhead 6 =
        (Frame.mk false none [0x2A] false).bytes.set 0 0x81 ∧
      ({ rc 0 with samples := [all 1, all 0, all 1, all 0x2A, all 0xD5, all 0x17] } : State).captureAhead 6 =
        (Frame.mk false none [0x2A] false).bytes.set 5 0x17 := ⟨rfl, rfl, rfl, rfl⟩

theorem witness_RxcmpComparesTheWholeFrame :
    (rm (all 6) (all 0)).ready ∧ (rm (all 6) (all 0)).rxcmpLegal false = true ∧ (rm (all 6) (all 0)).params.wf ∧
      [(0x06 : Byte)].length = (rm (all 6) (all 0)).rxlen.toNat ∧ (rm (all 6) (all 0)).holds .rx [0x06] ∧
      (rm (all 6) (all 0)).holds .ign [0x00] :=
  ⟨⟨rfl, rfl⟩, rfl, by decide, rfl, (rm_holds _ _).1, (rm_holds _ _).2⟩

theorem witness_XcapIsTxframeThenRxcap :
    (rc 0xD5).ready ∧ (rc 0xD5).xcapLegal = true ∧ (rc 0xD5).params.wf ∧ (rc 0xD5).txlen.toNat = 0 ∧
      (rc 0xD5).holds .tx [] := ⟨⟨rfl, rfl⟩, rfl, by decide, rfl, fun i h => by simp at h⟩

theorem witness_XcmpIsTxframeThenRxcmp :
    (rm (all 6) (all 0)).ready ∧ (rm (all 6) (all 0)).xcmpLegal false = true ∧ (rm (all 6) (all 0)).params.wf ∧
      (rm (all 6) (all 0)).txlen.toNat = 0 ∧ (rm (all 6) (all 0)).holds .tx [] ∧
      (rm (all 6) (all 0)).rxlen.toNat = 1 ∧ (rm (all 6) (all 0)).holds .rx [0x06] ∧
      (rm (all 6) (all 0)).holds .ign [0x00] :=
  ⟨⟨rfl, rfl⟩, rfl, by decide, rfl, fun i h => by simp at h, rfl, (rm_holds _ _).1, (rm_holds _ _).2⟩

/-- A command of each kind that ends in a next state. -/
theorem witness_CommandsEndOnlyInTheirOwnErrors :
    (rc 0xD6).ready ∧ (∃ t, exec .rxcap (rc 0xD6) = .next t) ∧ (∃ t, exec .xcap (rc 0xD5) = .next t) ∧
      (∃ t, exec .txframe tx2 = .next t) ∧ (∃ t, exec (.xcmp true) (rm (all 6) (all 0xF9)) = .next t) ∧
      ∃ t, exec (.waitlvl true true) { withActive 1 with timeout := 1, budget := 1, levels := [1] } = .next t :=
  ⟨⟨rfl, rfl⟩, ⟨_, rfl⟩, ⟨_, rfl⟩, ⟨_, rfl⟩, ⟨_, rfl⟩, ⟨_, rfl⟩⟩

/-- The running TXFRAME, and the block held by `rst`. -/
theorem witness_StepKeepsControlInvariant :
    running.ControlInv ∧ (∃ t, step running = .next t) ∧
      ({ State.reset with rst := true } : State).ControlInv ∧ ∃ t, step { State.reset with rst := true } = .next t :=
  ⟨⟨by decide, by decide, fun _ => ⟨rfl, rfl, rfl⟩, fun _ => rfl, fun h => (by cases h)⟩, ⟨_, rfl⟩,
    ⟨by decide, by decide, fun _ => ⟨rfl, rfl, rfl⟩, fun h => (by cases h), fun _ => ⟨rfl, rfl⟩⟩, ⟨_, rfl⟩⟩

/-- A capture at its last payload byte, which is the last byte of RXBUF. -/
def capturing : State :=
  { rc 0xD5 with
    busy := true
    fsm := .rxPayload
    opr := 0x31
    rxctl := ⟨false, false, false, true, 0⟩
    rpos := 1023 }

theorem witness_StepKeepsBufferInvariant :
    capturing.ControlInv ∧ capturing.BufferInv ∧ ∃ t, step capturing = .next t :=
  ⟨⟨by decide, by decide, fun _ => ⟨rfl, rfl, rfl⟩, fun _ => rfl, fun h => (by cases h)⟩,
    ⟨by decide, rfl, fun _ h => (by cases h), by decide, fun h => (by cases h), fun h => (by cases h),
      fun _ _ => ⟨fun h => absurd rfl h, fun _ => by decide, by decide⟩⟩, _, rfl⟩

theorem witness_RstResetsAndHoldsTheBlock :
    ({ running with port := [.rst true] } : State).port = .rst true :: [] ∧
      ({ State.reset with rst := true, port := [.read 0x0004 .four] } : State).rst = true ∧
      ({ State.reset with rst := true, port := [.write 0x0000 .four 0] } : State).rst = true ∧
      ({ State.reset with rst := true, port := [.post 0] } : State).rst = true ∧
      ({ State.reset with rst := true } : State).port = [] ∧
      ({ State.reset with rst := true, port := [.quiet] } : State).port = .quiet :: [] ∧
      ({ State.reset with rst := true, port := [.rst false] } : State).port = .rst false :: [] := by decide

/-- A misaligned and an unmapped word, a byte past each window and below the first, a read-only register. -/
theorem witness_BusErrorsChangeNothing :
    ¬ ((0x0002 : Half).toNat % 4 = 0) ∧ ¬ ((0x003C : Half).toNat ≤ 0x38) ∧ ¬ (0x1000 ≤ (0x0FFF : Half).toNat) ∧
      ¬ ((0x1400 : Half).toNat < 0x1000 + State.reset.params.bufSize) ∧
      ¬ ((0x3400 : Half).toNat < 0x3000 + State.reset.params.bufSize) ∧ 0x24 ≤ (0x0024 : Half).toNat := by decide

theorem witness_BusyRefusesAllAccessesButStatus :
    running.busy = true ∧ running.rst = false ∧ (0x0000 : Half) ≠ 0x0004 ∧ (0x0038 : Half).toNat ≤ 0x38 ∧
      (0x0020 : Half).toNat ≤ 0x20 ∧ inWindow running.params (0x1000 : Half).toNat = true ∧
      inWindow running.params (0x33FF : Half).toNat = true := by decide

theorem witness_RegisterReadsReturnTheirFields :
    tx2.busy = false ∧ tx2.rst = false ∧ ({ tx2 with port := [.read 0x0038 .four] } : State).port =
      .read 0x0038 .four :: [] := by decide

theorem witness_RegisterWritesReadBackTheirFields :
    tx2.busy = false ∧ tx2.rst = false ∧
      ((0x0020 : Half), (0xFFFFFFFF : Word)) ∈ [((0x0008 : Half), (0x0000000F : Word)), (0x0020, 0xFFFFFFFF)] ∧
      ({ tx2 with port := [.write 0x0020 .four 9, .read 0x0020 .four] } : State).port =
        .write 0x0020 .four 9 :: .read 0x0020 .four :: [] := by decide

theorem witness_HostReadsChangeNothing :
    ({ running with port := [.read 0x2000 .one] } : State).port = .read 0x2000 .one :: [] ∧
      ({ State.reset with port := [.read 0x2000 .one] } : State).port = .read 0x2000 .one :: [] := by decide

/-- The first byte of TXBUF and the last of IGNBUF. -/
theorem witness_BufferWritesReadBack :
    State.reset.busy = false ∧ State.reset.rst = false ∧ inWindow State.reset.params (0x1000 : Half).toNat = true ∧
      inWindow State.reset.params (0x33FF : Half).toNat = true := by decide

/-- A command of each shape the frame names, SEQ set before. -/
theorem witness_CommandsKeepWhatIsNotTheirs :
    (∃ t, exec (.csadd 1) { State.reset with seq := true } = .next t) ∧ (∃ t, exec .txframe tx2 = .next t) ∧
      (∃ t, exec (.cmp false 8 0 0) { withActive 1 with samples := [all 0] } = .next t) ∧
      (∃ t, exec (.rxcmp true) (rm (all 6) (all 0xF9)) = .next t) ∧ Instr.csadd 1 ≠ .srst ∧
      retried .txframe = false ∧ isTransport (.csadd 1) = false :=
  ⟨⟨_, rfl⟩, ⟨_, rfl⟩, ⟨_, rfl⟩, ⟨_, rfl⟩, by decide, rfl, rfl⟩

/-- The bytes just below and just above the stored one. -/
theorem witness_CapturesStoreOnlyTheirPayload :
    (rc 0xD5).params.wf ∧ (∃ t, exec .rxcap (rc 0xD5) = .next t) ∧
      ¬ (Buf.rx.addr (rc 0xD5).captureBase ≤ 0x1FFF) ∧
      ¬ (0x2001 < Buf.rx.addr (rc 0xD5).captureBase + (rc 0xD5).rxlen.toNat) :=
  ⟨by decide, ⟨_, rfl⟩, by decide, by decide⟩

/-- Both endings: a next state, and the fault at an unwritten byte; an accepted command and an illegal one. -/
theorem witness_CommandEventsAreBounded :
    (∃ t, exec (.rxcmp true) (rm (all 6) (all 0xF9)) = .next t) ∧ tx2.ready ∧ tx2.legal .txframe = true ∧
      State.reset.legal .txframe = false ∧
      exec .txframe { withActive 1 with txlen := 1 } = .fault (.unwrittenByte .tx 0) :=
  ⟨⟨_, rfl⟩, ⟨rfl, rfl⟩, rfl, rfl, rfl⟩

/-- Another answer on the channels that are not active: to a command that runs to its end, and to one that stops. -/
theorem witness_InactiveChannelsAreNeverRead :
    List.Forall₂ (Lanes.agree 1) [⟨0, 1, 2, 3⟩] [⟨0, 9, 9, 9⟩] ∧
      List.Forall₂ (fun lv lv' : Mask => 1 &&& lv = 1 &&& lv') [0x1] [0xF] ∧
      (∃ t, exec (.cmp false 8 0 0) { withActive 1 with samples := [⟨0, 1, 2, 3⟩], levels := [0x1] } = .next t) ∧
      ∃ f, exec .txframe { withActive 1 with txlen := 1, samples := [⟨0, 1, 2, 3⟩], levels := [0x1] } = .fault f :=
  ⟨.cons ⟨fun _ => rfl, fun h => absurd h (by decide), fun h => absurd h (by decide),
      fun h => absurd h (by decide)⟩ .nil, .cons (by decide) .nil, ⟨_, rfl⟩, _, rfl⟩

/-- The first length that does not fit, sent and received, and the last one that does; commands that end. -/
theorem witness_LenFieldNeverWraps :
    unbounded.ready ∧ unbounded.fsm = .idle ∧
      0xFFFF < unbounded.txlen.toNat + (⟨false, true, false, 6⟩ : TxCtl).ackEn.toNat ∧
      0xFFFF < unbounded.rxlen.toNat + (⟨false, true, false, false, 6⟩ : RxCtl).ackEn.toNat ∧
      unbounded.legal .txframe = true ∧ unbounded.legal .rxcap = true ∧
      tx2.legal .txframe = true ∧ (∃ t, exec .txframe tx2 = .next t) ∧
      (rm (all 6) (all 0xF9)).legal (.xcmp true) = true ∧
      ∃ t, exec (.xcmp true) (rm (all 6) (all 0xF9)) = .next t :=
  ⟨⟨rfl, rfl⟩, rfl, by decide, by decide, rfl, rfl, rfl, ⟨_, rfl⟩, rfl, _, rfl⟩

end Sys2Proof.Tests
end

section
/-! SUPPORT. The host port case by case (spec/20_memory.md rules R61 to R66): what an access reaches, and what it is
answered where it reaches nothing, where it writes a read-only register, and while BUSY = 1. -/

namespace Sys2Proof.Machine

/-! ### What an access reaches (R61, R62) -/

theorem inWindow_iff (p : Params) (a : Nat) :
    inWindow p a = true ↔
      (0x1000 ≤ a ∧ a < 0x1000 + p.bufSize) ∨ (0x2000 ≤ a ∧ a < 0x2000 + p.bufSize) ∨
        (0x3000 ≤ a ∧ a < 0x3000 + p.bufSize) := by
  simp only [inWindow, Bool.or_eq_true, Bool.and_eq_true, decide_eq_true_eq, or_assoc]

theorem target_four_eq_none (p : Params) (a : Half) (h : ¬ (a.toNat % 4 = 0 ∧ a.toNat ≤ 0x38)) :
    target p a .four = none := by
  simp only [target, regAt_none a h, Option.map_none]

theorem target_four_of_regAt (p : Params) {a : Half} {r : Reg} (h : regAt a = some r) :
    target p a .four = some (.reg r) := by
  simp only [target, h, Option.map_some]

theorem target_one_eq_none (p : Params) (a : Half) (h : ¬ inWindow p a.toNat = true) : target p a .one = none :=
  if_neg h

theorem target_one_of_inWindow (p : Params) (a : Half) (h : inWindow p a.toNat = true) :
    target p a .one = some (.byte a.toNat) :=
  if_pos h

/-! ### Bus errors (R63) -/

theorem hostRead_of_target_none {s : State} {a : Half} {sz : AccessSize} (h : target s.params a sz = none) :
    hostRead a sz s = s.busError := by
  simp only [hostRead, h, ite_self]

theorem hostWrite_of_target_none {s : State} {a : Half} {sz : AccessSize} (d : Word)
    (h : target s.params a sz = none) : hostWrite a sz d s = .next s.busError := by
  simp only [hostWrite, h, ite_self]

theorem hostWrite_readOnly {s : State} {a : Half} {sz : AccessSize} {r : Reg} (d : Word)
    (h : target s.params a sz = some (.reg r)) (hr : r.readOnly = true) :
    hostWrite a sz d s = .next s.busError := by
  have hcmd : r ≠ .cmd := by rintro rfl; cases hr
  simp only [hostWrite, h, hcmd, hr, if_true, if_false, ite_self]

/-! ### Commands while BUSY = 1 (R250 line 1) -/

theorem State.acceptAlways_busy (s : State) (run : State → State) (h : s.busy = true) :
    s.acceptAlways run = .next s.refuse :=
  if_pos h

theorem exec_of_busy (i : Instr) (s : State) (h : s.busy = true) : exec i s = .next s.refuse := by
  cases i with
  | nop | clrerr | srst => simp only [exec, execNop, execClrerr, execSrst, s.acceptAlways_busy _ h]
  | csclr | csadd _ | csget | cschk =>
    simp only [exec, execCsclr, execCsadd, execCsget, execCschk, s.accept_busy _ _ _ h]
  | cmp _ _ _ _ | waitlvl _ _ => simp only [exec, execCmp, execWaitlvl, s.accept_busy _ _ _ h]
  | txframe | rxcap | rxcmp _ | xcap | xcmp _ =>
    simp only [exec, execTxframe, execRxcap, execRxcmp, execXcap, execXcmp, s.accept_busy _ _ _ h]

/-- At the command level a word is refused, whether a command or ill-formed. -/
theorem runWord_of_busy (w : Word) (s : State) (h : s.busy = true) : runWord w s = .next s.refuse := by
  unfold runWord
  split
  · exact exec_of_busy _ s h
  · exact s.accept_busy _ _ _ h

/-- At the byte level a word is refused, whether a command or ill-formed. -/
theorem startWord_of_busy (w : Word) (s : State) (h : s.busy = true) : startWord w s = .next s.refuse := by
  unfold startWord
  split
  · split
    · exact s.accept_busy _ _ _ h
    · exact exec_of_busy _ s h
  · exact s.accept_busy _ _ _ h

/-! ### Accesses while BUSY = 1 (R66) -/

theorem hostRead_status (s : State) (hrst : s.rst = false) :
    hostRead 0x0004 .four s = s.answer true s.statusReg := by
  have ht : target s.params 0x0004 .four = some (.reg .status) := target_four_of_regAt _ rfl
  unfold hostRead
  rw [ht]
  simp [hrst, State.readReg]

theorem hostRead_of_busy {s : State} {a : Half} {sz : AccessSize} {t : Target} (hb : s.busy = true)
    (hrst : s.rst = false) (ht : target s.params a sz = some t) (hne : t ≠ .reg .status) :
    hostRead a sz s = s.refuseAccess := by
  cases t with
  | reg r =>
    have hr : r ≠ .status := fun e => hne (congrArg Target.reg e)
    simp [hostRead, hrst, ht, hb, hr]
  | byte k => simp [hostRead, hrst, ht, hb]

/-- CMD and the other writable registers and the buffer bytes alike. -/
theorem hostWrite_of_busy {s : State} {a : Half} {sz : AccessSize} {t : Target} (d : Word) (hb : s.busy = true)
    (hrst : s.rst = false) (ht : target s.params a sz = some t) (hrw : ∀ r, t = .reg r → r.readOnly = false) :
    hostWrite a sz d s = .next s.refuseAccess := by
  cases t with
  | reg r =>
    by_cases hcmd : r = .cmd
    · simp only [hostWrite, hrst, ht, hcmd, if_true, Bool.false_eq_true, if_false]
      exact runWord_of_busy d (s.answer true 0) hb
    · simp [hostWrite, hrst, ht, hcmd, hrw r rfl, hb]
  | byte k => simp [hostWrite, hrst, ht, hb]

theorem hostPost_of_busy (w : Word) (s : State) (hb : s.busy = true) (hrst : s.rst = false) :
    hostPost w s = .next s.refuseAccess := by
  simp only [hostPost, hrst, Bool.false_eq_true, if_false]
  exact startWord_of_busy w (s.answer true 0) hb

/-! ### The host's acts as steps (R60) -/

theorem step_of_port {s : State} {e : PortEvent} {rest : List PortEvent} (h : s.port = e :: rest) :
    step s = portStep e { s with port := rest } := by
  simp only [step, machineStep, h]

theorem step_read {s t : State} {rest : List PortEvent} {a : Half} {sz : AccessSize}
    (h : s.port = .read a sz :: rest) (ht : hostRead a sz { s with port := rest } = t) : step s = .next t :=
  (step_of_port h).trans (congrArg Host.Outcome.next ht)

theorem step_write {s : State} {x : Host.Outcome State Fault Refusal} {rest : List PortEvent} {a : Half}
    {sz : AccessSize} {d : Word} (h : s.port = .write a sz d :: rest)
    (hx : hostWrite a sz d { s with port := rest } = x) : step s = x :=
  (step_of_port h).trans hx

theorem step_post {s : State} {x : Host.Outcome State Fault Refusal} {rest : List PortEvent} {w : Word}
    (h : s.port = .post w :: rest) (hx : hostPost w { s with port := rest } = x) : step s = x :=
  (step_of_port h).trans hx

end Sys2Proof.Machine
end

section
/-! The statements about the host port (spec/20_memory.md). -/

namespace Sys2Proof.Machine

/-- Settles O46: what the statement calls unmapped is what `target` answers `none` to, and the one other bus error is a
write to a read-only register. -/
theorem busErrorsChangeNothing : Obligations.BusErrorsChangeNothing := by
  intro s rest a sz d inBuffer mapped readOnly h
  have hnone : ¬ mapped → target s.params a sz = none := by
    intro hm
    cases sz with
    | one => exact target_one_eq_none _ a fun hw => hm ((inWindow_iff _ _).1 hw)
    | four => exact target_four_eq_none _ a hm
  have hro : mapped → readOnly → ∃ r, target s.params a sz = some (.reg r) ∧ r.readOnly = true := by
    rintro hm ⟨rfl, ha⟩
    obtain ⟨r, hr, hiff, -⟩ := regAt_some a hm
    exact ⟨r, target_four_of_regAt _ hr, hiff.2 ha⟩
  rcases h with ⟨hp, hm⟩ | ⟨hp, hw⟩
  · exact step_read hp (hostRead_of_target_none (hnone hm))
  · by_cases hm : mapped
    · obtain ⟨r, ht, hr⟩ := hro hm (hw.resolve_left (not_not_intro hm))
      exact step_write hp (hostWrite_readOnly d ht hr)
    · exact step_write hp (hostWrite_of_target_none d (hnone hm))

/-- Settles O47: an access that reaches something other than STATUS is refused, a command at either level by its own
acceptance, which comes to the same state. -/
theorem busyRefusesAllAccessesButStatus : Obligations.BusyRefusesAllAccessesButStatus := by
  intro s rest hb hrst
  refine ⟨fun hp => ?readStatus, fun a h4 h38 hne hp => ?readReg, fun a d h4 h20 hne hp => ?writeReg,
    fun d hp => ?post, fun a hw hp => ?readByte, fun a d hw hp => ?writeByte⟩
  case readStatus => exact step_read hp (hostRead_status _ hrst)
  case readReg =>
    obtain ⟨r, hr, -, -, hstatus⟩ := regAt_some a ⟨h4, h38⟩
    have hne' : Target.reg r ≠ .reg .status := fun e => hne (hstatus.1 (Target.reg.inj e))
    exact step_read hp (hostRead_of_busy hb hrst (target_four_of_regAt _ hr) hne')
  case writeReg =>
    obtain ⟨r, hr, hro, -, -⟩ := regAt_some a ⟨h4, by omega⟩
    have ha : a.toNat ≠ 4 := fun e => hne (BitVec.eq_of_toNat_eq e)
    have hrw : r.readOnly = false := Bool.eq_false_iff.2 fun h => by
      have := hro.1 h
      omega
    exact step_write hp
      (hostWrite_of_busy d hb hrst (target_four_of_regAt _ hr) fun _ e => Target.reg.inj e ▸ hrw)
  case post => exact step_post hp (hostPost_of_busy d _ hb hrst)
  case readByte => exact step_read hp (hostRead_of_busy hb hrst (target_one_of_inWindow _ a hw) nofun)
  case writeByte => exact step_write hp (hostWrite_of_busy d hb hrst (target_one_of_inWindow _ a hw) nofun)

end Sys2Proof.Machine
end

section
/-! SUPPORT. What CMP reads of its word and of OPR (spec/30_encoding.md rule R104, spec/41_compare.md rules R150, R152):
the bits of the operands below the bit count, and nothing of OPR. -/

namespace Sys2Proof

theorem bitCountOk_of_bounds {n : BitVec 4} (h1 : 1 ≤ n.toNat) (h8 : n.toNat ≤ 8) : bitCountOk n = true := by
  simp only [bitCountOk, h1, h8, decide_true, Bool.and_self]

/-- CMP's word has no operand bits that must be 0: with a bit count in range, every A and B are read back (R104). -/
theorem decode_encode_cmp (r : Bool) {n : BitVec 4} (a b : Byte) (hn : bitCountOk n = true) :
    decode (encode (.cmp r n a b)) = .ok (.cmp r n a b) := by
  simp [decode, encode, decodeCmp, hn]

end Sys2Proof

namespace Sys2Proof.Machine

/-! ### The comparator looks below the bit count only (R150) -/

theorem getLsbD_lowBits (n i : Nat) : (lowBits n).getLsbD i = (decide (i < 8) && decide (i < n)) := by
  rw [lowBits, BitVec.getLsbD_ofNat, Nat.testBit_two_pow_sub_one]

section
variable {a a' b b' : Byte} {n : Nat}
  (h : ∀ i, i < n → a.getLsbD i = a'.getLsbD i ∧ b.getLsbD i = b'.getLsbD i)
include h

theorem laneDiverges_congr (v : Byte) : laneDiverges v a b n = laneDiverges v a' b' n := by
  have hbits : (v ^^^ a) &&& ~~~b &&& lowBits n = (v ^^^ a') &&& ~~~b' &&& lowBits n := by
    apply BitVec.eq_of_getLsbD_eq
    intro i _
    simp only [BitVec.getLsbD_and, BitVec.getLsbD_xor, BitVec.getLsbD_not, getLsbD_lowBits]
    by_cases hi : i < n
    · obtain ⟨ha, hb⟩ := h i hi
      rw [ha, hb]
    · simp only [hi, decide_false, Bool.and_false]
  rw [laneDiverges, laneDiverges, hbits]

theorem diverge_congr (o : Lanes) : diverge o a b n = diverge o a' b' n := by
  simp only [diverge, laneDiverges_congr h]

theorem cmpAttempt_congr : cmpAttempt n a b = cmpAttempt n a' b' := by
  funext s
  simp only [cmpAttempt, State.cmpMask, diverge_congr h]

end

/-! ### Bodies that do not read OPR -/

/-- The same flow with another word in OPR. -/
def Flow.withOpr (w : Word) : Flow → Flow
  | .go s => .go { s with opr := w }
  | .raised s => .raised { s with opr := w }
  | .stop f => .stop f

/-- A flow that ends in a next state ends, with another word in OPR, in that state but for OPR. -/
theorem Flow.withOpr_outcome_of_next {x : Flow} {t : State} (w : Word) (h : x.outcome = .next t) :
    (x.withOpr w).outcome = .next { t with opr := w } := by
  rcases Flow.outcome_eq_next h with rfl | rfl <;> rfl

/-- A part of a command's body neither reads nor writes OPR. -/
def IgnoresOpr (k : State → Flow) : Prop :=
  ∀ (w : Word) (s : State), k { s with opr := w } = (k s).withOpr w

theorem IgnoresOpr.andThen {f g : State → Flow} (hf : IgnoresOpr f) (hg : IgnoresOpr g) :
    IgnoresOpr fun s => (f s).andThen g := by
  intro w s
  simp only [hf w s]
  cases f s with
  | go u => exact hg w u
  | raised u => rfl
  | stop e => rfl

/-- The retry loop's own test is of RESULT.MASK and RREM (R230). -/
theorem IgnoresOpr.retryLoop {attempt : State → Flow} (h : IgnoresOpr attempt) (k : Nat) :
    IgnoresOpr (retryLoop attempt k) := by
  induction k with
  | zero => exact fun _ _ => rfl
  | succ k ih =>
    have hnext : IgnoresOpr fun t =>
        if t.resMask = 0 ∨ t.rrem = 0 then .go t else Machine.retryLoop attempt k t := by
      intro w t
      by_cases hend : t.resMask = 0 ∨ t.rrem = 0
      · simp only [hend, if_true]; rfl
      · simp only [hend, if_false]; exact ih w t
    exact fun w s => h.andThen hnext w { s with rrem := s.rrem - 1 }

theorem IgnoresOpr.runAttempts {attempt : State → Flow} (h : IgnoresOpr attempt) (r : Bool) :
    IgnoresOpr (runAttempts r attempt) := by
  intro w s
  cases r with
  | false => exact h w s
  | true => exact h.retryLoop s.budget.toNat w { s with rrem := s.budget }

theorem cmpAttempt_ignoresOpr (n : Nat) (a b : Byte) : IgnoresOpr (cmpAttempt n a b) := fun _ _ => rfl

theorem finish_ignoresOpr (k : ErrKind) (p : Half) : IgnoresOpr fun s => .go (s.finish k p) := by
  intro w s
  simp only [State.finish]
  split
  · rfl
  · rfl

/-! ### CMP (R152) -/

/-- What CMP does between its command start and its end: the attempts, then the error of the last one's mask. -/
def cmpBody (r : Bool) (n : Nat) (a b : Byte) (s : State) : Flow :=
  (runAttempts r (cmpAttempt n a b) s).andThen fun u => .go (u.finish .compareMismatch 0)

theorem cmpBody_ignoresOpr (r : Bool) (n : Nat) (a b : Byte) : IgnoresOpr (cmpBody r n a b) :=
  ((cmpAttempt_ignoresOpr n a b).runAttempts r).andThen (finish_ignoresOpr _ _)

theorem cmpBody_congr {a a' b b' : Byte} {n : Nat}
    (h : ∀ i, i < n → a.getLsbD i = a'.getLsbD i ∧ b.getLsbD i = b'.getLsbD i) (r : Bool) :
    cmpBody r n a b = cmpBody r n a' b' := by
  funext s
  rw [cmpBody, cmpBody, cmpAttempt_congr h]

/-- An accepted CMP latches its word and runs its body. -/
theorem exec_cmp_of_legal {s : State} {r : Bool} {n : BitVec 4} (a b : Byte) (hs : s.ready)
    (hl : s.cmpLegal r n = true) :
    exec (.cmp r n a b) s = (cmpBody r n.toNat a b (s.beginCommand (encode (.cmp r n a b)))).outcome := by
  simp only [exec, execCmp, hl, s.accept_run _ _ hs, cmpBody]

end Sys2Proof.Machine
end

section
/-! The statements about the command word (spec/30_encoding.md). -/

namespace Sys2Proof.Machine

/-- Settles O22: with operands that agree below the bit count the two bodies are one, and it ignores OPR, in which alone
the two command starts differ. -/
theorem cmpIgnoresBitsAboveTheCount : Obligations.CmpIgnoresBitsAboveTheCount := by
  intro s t r n a b a' b' h1 h8 hagree
  refine ⟨decode_encode_cmp r a' b' (bitCountOk_of_bounds h1 h8), fun hs hl ht => ?_⟩
  rw [exec_cmp_of_legal _ _ hs hl, cmpBody_congr hagree] at ht
  have hstart : s.beginCommand (encode (.cmp r n a' b')) =
      { s.beginCommand (encode (.cmp r n a b)) with opr := encode (.cmp r n a' b') } := rfl
  rw [exec_cmp_of_legal _ _ hs hl, hstart, cmpBody_ignoresOpr]
  exact Flow.withOpr_outcome_of_next _ ht

end Sys2Proof.Machine
end

section
/-! SUPPORT. A captured frame (spec/43_frame_rx.md rules R193 to R195): what each part of a capture leaves, and what
RXCAP comes to on a frame whose header is the expected one. -/

namespace Sys2Proof.Machine

/-! ### Runs of samples put together (R8) -/

theorem State.afterSamples_one (s : State) (n : Nat) : s.afterSamples n 1 = s.afterSample n := by
  rw [← Nat.zero_add 1, State.afterSamples_succ, State.afterSamples_zero]

theorem State.afterSamples_add (s : State) (n j k : Nat) :
    s.afterSamples n (j + k) = (s.afterSamples n j).afterSamples n k := by
  induction j generalizing s with
  | zero => rw [Nat.zero_add, State.afterSamples_zero]
  | succ j ih => rw [Nat.add_right_comm, State.afterSamples_succ, ih, ← State.afterSamples_succ]

@[simp] theorem State.captureAhead_zero (s : State) : s.captureAhead 0 = [] := rfl

theorem State.captureAhead_add (s : State) (j k : Nat) :
    s.captureAhead (j + k) = s.captureAhead j ++ (s.afterSamples 8 j).captureAhead k := by
  induction j generalizing s with
  | zero => simp
  | succ j ih =>
    rw [Nat.add_right_comm, State.captureAhead_succ, ih, State.captureAhead_succ, State.afterSamples_succ,
      List.cons_append]

/-- The bytes a capture reads next begin with these. -/
abbrev State.Sees (s : State) (bs : List Byte) : Prop := s.captureAhead bs.length = bs

/-- Where a capture sees two lists put together, it sees the first list and after it the second. -/
theorem State.Sees.append {s : State} {us vs : List Byte} (h : s.Sees (us ++ vs)) :
    s.Sees us ∧ (s.afterSamples 8 us.length).Sees vs := by
  rw [State.Sees, List.length_append, State.captureAhead_add] at h
  exact List.append_inj h (State.captureAhead_length _ _)

theorem State.Sees.captureValue {s : State} {v : Byte} (h : s.Sees [v]) : s.captureValue = v := by
  simpa [State.Sees, State.captureAhead_succ] using h

/-! ### The header (R193, R194) -/

/-- A structural byte that is the expected one lets the capture go on. -/
theorem capStructural_andThen {e : Byte} {s : State} (idx : Half) (covered : Bool) (K : State → Flow)
    (h : s.captureValue = e) :
    (capStructural e idx covered s).andThen K =
      K { s.afterSample 8 with csum := if covered then s.csum + e else s.csum } := by
  subst h; rw [capStructural, if_pos rfl, Flow.go_andThen]

/-- The three bytes a captured frame must begin with, as RXCTL and RXLEN give them (R91, R94). -/
def State.capHeader (s : State) : List Byte :=
  [startMarker s.rxctl.kind, hiByte s.rxLenField, loByte s.rxLenField]

/-- What a capture leaves once its header was found right. -/
def State.afterCapHeader (s : State) : State :=
  { s.capBegin.afterSamples 8 3 with csum := byteSum [hiByte s.rxLenField, loByte s.rxLenField] }

/-- What a capture does once its header was found right. -/
def capAfterHeader (s : State) : Flow :=
  (capStructural (endMarker s.rxctl.endBit) (4 + s.lenr) false
    (capPayload s.rxlen.toNat s.capAckIfAny).capCsum).andThen capCheckSum

theorem capBody_of_header {s : State} (h : s.Sees s.capHeader) :
    capBody s = capAfterHeader s.afterCapHeader := by
  have hb : s.capBegin.captureAhead 3 = s.capHeader := h
  simp only [State.captureAhead_succ, State.capHeader, List.cons.injEq] at hb
  obtain ⟨hstart, hhi, hlo, -⟩ := hb
  refine (capStructural_andThen 0 false _ hstart).trans ?_
  refine (capStructural_andThen 1 true _ ?_).trans ?_
  · exact hhi
  refine (capStructural_andThen 2 true _ ?_).trans ?_
  · exact hlo
  have hsum : (0x00 : Byte) + hiByte s.rxLenField + loByte s.rxLenField =
      byteSum [hiByte s.rxLenField, loByte s.rxLenField] := by
    simp [byteSum]
  simp only [State.afterCapHeader, ← hsum, State.afterSamples_succ, State.afterSamples_zero]
  rfl

/-! ### Ack byte, payload and checksum byte (R193) -/

/-- The ack byte is the next sample, or there is none. -/
theorem State.capAckIfAny_eq {s : State} {ack : List Byte} (hlen : ack.length = s.rxctl.ackEn.toNat)
    (h : s.Sees ack) :
    s.capAckIfAny =
      { s.afterSamples 8 ack.length with ackc := ack.headD s.ackc, csum := s.csum + byteSum ack } := by
  unfold State.capAckIfAny
  rcases Bool.eq_false_or_eq_true s.rxctl.ackEn with ha | ha
  · obtain ⟨a, rfl⟩ := List.length_eq_one_iff.1 (hlen.trans (by rw [ha]; rfl))
    obtain rfl := h.captureValue
    simp [ha, State.capAck, byteSum, State.afterSamples_one]
  · obtain rfl := List.length_eq_zero_iff.1 (hlen.trans (by rw [ha]; rfl))
    simp [ha, byteSum]

/-- What sampling an ack byte, a payload and a checksum byte leaves. -/
def State.afterCapCsum (s : State) (ack payload : List Byte) (cs : Byte) : State :=
  { s.afterSamples 8 (ack.length + (payload.length + 1)) with
    csum := s.csum + byteSum (ack ++ (payload ++ [cs]))
    ackc := ack.headD s.ackc
    pos := s.pos + BitVec.ofNat 16 payload.length
    rpos := s.rpos + BitVec.ofNat 16 payload.length
    rsum := s.rsum + byteSum payload
    mem := storeBytes (Buf.rx.addr s.rpos.toNat) payload s.mem }

theorem capCsum_capPayload_capAckIfAny {s : State} {ack payload : List Byte} {cs : Byte}
    (hack : ack.length = s.rxctl.ackEn.toNat) (hpay : payload.length = s.rxlen.toNat)
    (hroom : s.rpos.toNat + payload.length < 65536)
    (h : s.Sees (ack ++ (payload ++ [cs]))) :
    (capPayload s.rxlen.toNat s.capAckIfAny).capCsum = s.afterCapCsum ack payload cs := by
  obtain ⟨ha, h⟩ := h.append
  obtain ⟨hp, h⟩ := h.append
  have hcs := h.captureValue
  have hp' : s.capAckIfAny.captureAhead payload.length = payload := by rwa [State.capAckIfAny_eq hack ha]
  have hroom' : s.capAckIfAny.rpos.toNat + payload.length < 65536 := by rwa [State.capAckIfAny_eq hack ha]
  have hsum : s.csum + byteSum ack + byteSum payload + cs = s.csum + byteSum (ack ++ (payload ++ [cs])) := by
    simp [byteSum_append, byteSum, BitVec.add_assoc]
  rw [← hpay, capPayload_eq _ _ hroom', hp', State.capAckIfAny_eq hack ha, State.afterCapCsum, ← hsum, ← hcs]
  simp only [State.afterSamples_add, State.afterSamples_one]
  rfl

/-! ### The tests of a whole frame (R195) -/

/-- The tests that end a capture, of the end marker `e` and then of the sum. -/
def State.capTests (s : State) (e : Byte) : Flow :=
  if e = endMarker s.rxctl.endBit then capCheckSum s
  else .raised (s.raiseInCapture .frameDecodeError (4 + s.lenr) e)

theorem capStructural_endMarker (s : State) :
    (capStructural (endMarker s.rxctl.endBit) (4 + s.lenr) false s).andThen capCheckSum =
      (s.afterSample 8).capTests s.captureValue := by
  rcases capStructural_cases (endMarker s.rxctl.endBit) (4 + s.lenr) false s with ⟨h, hgo⟩ | ⟨h, hraised⟩
  · rw [hgo, Flow.go_andThen]
    exact (if_pos h).symm
  · rw [hraised, Flow.raised_andThen]
    exact (if_neg h).symm

/-- The state in which a capture tests a frame of which it has sampled every byte. -/
def State.captured (s : State) (ack payload : List Byte) (cs : Byte) : State :=
  (s.afterCapHeader.afterCapCsum ack payload cs).afterSample 8

theorem State.captured_csum (s : State) (ack payload : List Byte) (cs : Byte) :
    (s.captured ack payload cs).csum =
      byteSum (hiByte s.rxLenField :: loByte s.rxLenField :: (ack ++ (payload ++ [cs]))) :=
  (byteSum_append [hiByte s.rxLenField, loByte s.rxLenField] (ack ++ (payload ++ [cs]))).symm

theorem State.capBegin_rpos_toNat (s : State) : s.capBegin.rpos.toNat = s.captureBase := by
  simp only [State.capBegin, State.captureBase]
  split <;> rfl

theorem State.captured_mem (s : State) (ack payload : List Byte) (cs : Byte) :
    (s.captured ack payload cs).mem = storeBytes (Buf.rx.addr s.captureBase) payload s.mem := by
  rw [← s.capBegin_rpos_toNat]
  rfl

/-- A captured payload reads back from RXBUF. -/
theorem State.captured_read (s : State) (ack : List Byte) {payload : List Byte} (cs : Byte) {i : Nat}
    (hi : i < payload.length) :
    (s.captured ack payload cs).mem.read (Buf.rx.addr (s.captureBase + i)) = some payload[i] := by
  have haddr : Buf.rx.addr (s.captureBase + i) = Buf.rx.addr s.captureBase + i := (Nat.add_assoc _ _ _).symm
  rw [State.captured_mem, haddr]
  exact storeBytes_read payload _ i _ hi

/-- A capture that samples a frame with the header it expects ends by its tests. -/
theorem capBody_of_frame {s : State} {ack payload : List Byte} {cs e : Byte}
    (hack : ack.length = s.rxctl.ackEn.toNat) (hpay : payload.length = s.rxlen.toNat)
    (hroom : s.captureBase + payload.length < 65536)
    (h : s.Sees (s.capHeader ++ ((ack ++ (payload ++ [cs])) ++ [e]))) :
    capBody s = (s.captured ack payload cs).capTests e := by
  obtain ⟨hhdr, h⟩ := h.append
  obtain ⟨hmid, he⟩ := h.append
  have hcsum := capCsum_capPayload_capAckIfAny (s := s.afterCapHeader) (cs := cs) hack hpay
    (by rwa [← s.capBegin_rpos_toNat] at hroom) hmid
  have hend : ((s.afterSamples 8 3).afterSamples 8 (ack.length + (payload.length + 1))).captureValue = e := by
    simpa [State.capHeader] using he.captureValue
  rw [capBody_of_header hhdr, capAfterHeader, hcsum]
  exact (capStructural_endMarker _).trans (congrArg _ hend)

/-! ### RXCAP of a right frame (R135, R193) -/

/-- With the parameters in their range an accepted capture stays inside RXBUF. -/
theorem State.captureBase_room {s : State} (hl : s.rxcapLegal = true) (hwf : s.params.wf) :
    s.captureBase + s.rxlen.toNat < 65536 := by
  simp only [State.rxcapLegal, State.captureOk, Bool.and_eq_true, decide_eq_true_eq] at hl
  obtain ⟨-, -, hroom⟩ := hl
  obtain ⟨-, -, hbuf⟩ := hwf
  omega

/-- An accepted RXCAP that samples a frame with the header it expects ends by its tests. -/
theorem exec_rxcap_of_frame {s : State} {ack payload : List Byte} {cs e : Byte} (hs : s.ready)
    (hl : s.rxcapLegal = true) (hwf : s.params.wf) (hack : ack.length = s.rxctl.ackEn.toNat)
    (hpay : payload.length = s.rxlen.toNat) (h : s.Sees (s.capHeader ++ ((ack ++ (payload ++ [cs])) ++ [e]))) :
    exec .rxcap s =
      ((((s.beginCommand (encode .rxcap)).captured ack payload cs).capTests e).andThen fun u =>
        .go u.capEnd).outcome := by
  have hroom := State.captureBase_room hl hwf
  rw [← hpay] at hroom
  simp only [exec, execRxcap, hl, s.accept_run _ _ hs]
  rw [capBody_of_frame (s := s.beginCommand (encode .rxcap)) hack hpay hroom h]

/-- The tests pass a frame with the end marker expected and sum 0. -/
theorem State.capTests_of_valid {s : State} {e : Byte} (hsum : s.csum = 0x00) (he : e = endMarker s.rxctl.endBit) :
    s.capTests e = .go s := by
  rw [State.capTests, if_pos he, capCheckSum, if_pos hsum]

/-- A frame's checksum byte brings the sum of its covered bytes to 0 (R96, R130). -/
theorem Frame.byteSum_covered_checksum (f : Frame) : byteSum (f.covered ++ [f.checksum]) = 0x00 := by
  simp [byteSum_append, Frame.checksum, byteSum]

/-- The bytes of a frame by their parts. -/
theorem Frame.bytes_eq (f : Frame) :
    f.bytes = [startMarker f.kind, hiByte f.len, loByte f.len] ++
      ((f.ack.toList ++ (f.payload ++ [f.checksum])) ++ [endMarker f.endBit]) := by
  simp [Frame.bytes, Frame.covered]

/-- The sum of a captured frame whose checksum byte is right is 0. -/
theorem State.captured_csum_of_frame {s : State} {f : Frame} (hlen : f.len = s.rxLenField) :
    (s.captured f.ack.toList f.payload f.checksum).csum = 0x00 := by
  rw [State.captured_csum, ← f.byteSum_covered_checksum, Frame.covered, hlen]
  simp only [List.cons_append, List.append_assoc]

/-- An accepted RXCAP of a frame that RXCTL and RXLEN describe ends without error. -/
theorem exec_rxcap_of_valid_frame {s : State} {f : Frame} (hs : s.ready) (hl : s.rxcapLegal = true)
    (hwf : s.params.wf) (hkind : f.kind = s.rxctl.kind) (hack : f.ack.toList.length = s.rxctl.ackEn.toNat)
    (hend : f.endBit = s.rxctl.endBit) (hpay : f.payload.length = s.rxlen.toNat) (hlen : f.len = s.rxLenField)
    (h : s.Sees f.bytes) :
    exec .rxcap s =
      .next ((s.beginCommand (encode .rxcap)).captured f.ack.toList f.payload f.checksum).capEnd := by
  have hbytes : f.bytes = s.capHeader ++ ((f.ack.toList ++ (f.payload ++ [f.checksum])) ++ [endMarker f.endBit]) := by
    rw [f.bytes_eq, State.capHeader, hkind, hlen]
  rw [hbytes] at h
  rw [exec_rxcap_of_frame hs hl hwf hack hpay h,
    State.capTests_of_valid (State.captured_csum_of_frame (s := s.beginCommand _) hlen) (congrArg endMarker hend)]
  rfl

/-! ### TXFRAME (R170) -/

/-- An accepted TXFRAME whose payload TXBUF holds sends the bytes of its frame. -/
theorem exec_txframe_trace {s : State} {payload : List Byte} (hs : s.ready) (hl : s.txframeLegal = true)
    (hlen : payload.length = s.txlen.toNat) (hold : s.holds .tx payload) :
    ∃ u, exec .txframe s = .next u ∧ u.trace = s.trace ++ (s.txFrame payload).bytes.map (.send s.active) := by
  simp only [exec, execTxframe, hl, s.accept_run _ _ hs]
  rw [txBody_go (s.beginCommand (encode .txframe)) payload hlen hold]
  exact ⟨_, rfl, rfl⟩

end Sys2Proof.Machine
end

section
/-! SUPPORT. A command word as a number (spec/30_encoding.md rule R100), and a result without a mask (R30). -/

namespace Sys2Proof

/-- A packed word as a number, its fields at the places R100 gives them. -/
theorem toNat_packWord (b a : Byte) (n : BitVec 4) (r : Bool) (op : Byte) :
    (packWord b a n r op).toNat =
      b.toNat * 2 ^ 24 + a.toNat * 2 ^ 16 + n.toNat * 2 ^ 12 + r.toNat * 2 ^ 8 + op.toNat := by
  have happ : ∀ {v w : Nat} (x : BitVec v) (y : BitVec w), (x ++ y).toNat = x.toNat * 2 ^ w + y.toNat := by
    intro v w x y
    rw [BitVec.toNat_append, ← Nat.shiftLeft_add_eq_or_of_lt y.isLt, Nat.shiftLeft_eq]
  simp only [packWord, happ, BitVec.toNat_ofNat, BitVec.toNat_ofBool]
  omega

end Sys2Proof

namespace Sys2Proof.Machine

/-- A result with mask 0 clears ALLF (R30). -/
theorem State.writeResult_zero (s : State) (v : Byte) :
    s.writeResult 0 v = { s with resMask := 0, resValue := v, allf := false } := rfl

end Sys2Proof.Machine
end

section
/-! The statements about the checksum generator (spec/40_checksum.md). -/

namespace Sys2Proof.Machine

/-- Settles O33: the bytes sent are those of the frame that TXCTL and the payload describe, RXCTL describes the same
frame, and its checksum byte brings the sum to 0. -/
theorem capturedTransmissionHasAValidChecksum : Obligations.CapturedTransmissionHasAValidChecksum := by
  intro s t r payload sent hs hsl _ hlen hold ht htrace hr hrl hrwf hrxlen hkind hack hend hahead
  obtain ⟨t', ht', htrace'⟩ := exec_txframe_trace hs hsl hlen hold
  obtain rfl : t' = t := by rw [ht'] at ht; exact Host.Outcome.next.inj ht
  have hsent : sent = (s.txFrame payload).bytes := by
    rw [htrace'] at htrace
    exact (List.map_injective_iff.2 (fun _ _ h => (Event.send.inj h).2) (List.append_cancel_left htrace)).symm
  subst hsent
  have hflen : (s.txFrame payload).len = r.rxLenField := by
    rw [s.txFrame_len payload hlen, State.txLenField, State.rxLenField, hrxlen, hack]
  have hfack : (s.txFrame payload).ack.toList.length = r.rxctl.ackEn.toNat := by
    rw [hack, State.txFrame]
    cases s.txctl.ackEn <;> rfl
  have hpay : payload.length = r.rxlen.toNat := by rw [hrxlen]; exact hlen
  exact ⟨_, exec_rxcap_of_valid_frame hr hrl hrwf hkind.symm hfack hend.symm hpay hflen hahead, hr.2,
    State.captured_csum_of_frame (s := r.beginCommand _) hflen,
    fun i hi => (r.beginCommand _).captured_read (s.txFrame payload).ack.toList (s.txFrame payload).checksum hi⟩

/-- Settles O12: acceptance runs the command, which writes CSUM only. -/
theorem csclrClearsTheSum : Obligations.CsclrClearsTheSum :=
  ⟨rfl, fun s hs => by simp only [exec, execCsclr, s.accept_run _ _ hs]⟩

/-- Settles O13: the word by its fields as a number, the run by acceptance. -/
theorem csaddAddsItsByte : Obligations.CsaddAddsItsByte := by
  intro a
  refine ⟨BitVec.eq_of_toNat_eq ?_, fun s hs => by simp only [exec, execCsadd, s.accept_run _ _ hs]⟩
  have ha := a.isLt
  simp only [encode, toNat_packWord, BitVec.toNat_add, BitVec.toNat_shiftLeft, BitVec.toNat_setWidth,
    BitVec.ofNat_eq_ofNat, BitVec.toNat_ofNat, BitVec.natCast_eq_ofNat, Nat.shiftLeft_eq, Bool.toNat_false]
  omega

/-- Settles O14: CSGET's result has mask 0, which clears ALLF. -/
theorem csgetFormsTheChecksumByte : Obligations.CsgetFormsTheChecksumByte := by
  refine ⟨rfl, fun s hs => ?_⟩
  simp only [exec, execCsget, s.accept_run _ _ hs, s.writeResult_zero]

/-- Settles O15: CSCHK's result has mask 0, which clears ALLF. -/
theorem cschkTestsTheSum : Obligations.CschkTestsTheSum := by
  refine ⟨rfl, fun s hs => ?_⟩
  simp only [exec, execCschk, s.accept_run _ _ hs, s.writeResult_zero]

end Sys2Proof.Machine
end

section
/-! SUPPORT. The divergence mask bit by bit (spec/41_compare.md rule R150), and a command whose parameter tests fail
(spec/45_control.md rule R250 line 4). -/

namespace Sys2Proof

/-- The value seen on channel `c`. -/
def Lanes.lane (o : Lanes) (c : Fin 4) : Byte :=
  match c with
  | 0 => o.o0
  | 1 => o.o1
  | 2 => o.o2
  | 3 => o.o3

end Sys2Proof

namespace Sys2Proof.Machine

/-! ### The divergence mask bit by bit (R150) -/

theorem byte_ne_zero_iff (x : Byte) : x ≠ 0 ↔ ∃ i, x.getLsbD i = true := by
  have h : x = 0 ↔ ∀ i, x.getLsbD i = false := BitVec.zero_iff_eq_false
  simp only [ne_eq, h, not_forall, Bool.not_eq_false]

theorem laneDiverges_iff (v e ign : Byte) {n : Nat} (hn : n ≤ 8) :
    laneDiverges v e ign n = true ↔ ∃ i, i < n ∧ ign.getLsbD i = false ∧ v.getLsbD i ≠ e.getLsbD i := by
  have hbit : ∀ i, ((v ^^^ e) &&& ~~~ign &&& lowBits n).getLsbD i = true ↔
      i < n ∧ ign.getLsbD i = false ∧ v.getLsbD i ≠ e.getLsbD i := by
    intro i
    simp only [BitVec.getLsbD_and, BitVec.getLsbD_xor, BitVec.getLsbD_not, getLsbD_lowBits, Bool.and_eq_true,
      decide_eq_true_eq, Bool.not_eq_true', bne_iff_ne]
    constructor
    · rintro ⟨⟨hne, -, hign⟩, -, hi⟩
      exact ⟨hi, hign, hne⟩
    · rintro ⟨hi, hign, hne⟩
      have h8 : i < 8 := by omega
      exact ⟨⟨hne, h8, hign⟩, h8, hi⟩
  rw [laneDiverges, bne_iff_ne, byte_ne_zero_iff]
  exact exists_congr hbit

/-- A mask put together from its four bits, channel 3's first. -/
theorem getLsbD_ofBools (b3 b2 b1 b0 : Bool) (c : Fin 4) :
    (BitVec.ofBool b3 ++ BitVec.ofBool b2 ++ BitVec.ofBool b1 ++ BitVec.ofBool b0 : Mask).getLsbD c.val =
      ![b0, b1, b2, b3] c := by
  revert b3 b2 b1 b0 c
  decide

theorem getLsbD_diverge (o : Lanes) (e ign : Byte) (n : Nat) (c : Fin 4) :
    (diverge o e ign n).getLsbD c.val = laneDiverges (o.lane c) e ign n := by
  rw [diverge, getLsbD_ofBools]
  match c with
  | 0 | 1 | 2 | 3 => rfl

/-! ### A command whose parameter tests fail (R250 line 4) -/

/-- Error entry from a state that is idle and accepts commands writes the error registers only. -/
theorem State.raiseError_of_idle {s : State} (hs : s.ready) (hf : s.fsm = .idle) (k : ErrKind) (p : Half) (m : Mask)
    (b : Byte) : s.raiseError k p m b = { s with err := k.code, errPos := p, errMask := m, errByte := b } := by
  obtain ⟨hb, he⟩ := hs
  rw [s.raiseError_of_clear k p m b he, ← hb, ← hf]

theorem State.accept_illegal_of_idle {s : State} (hs : s.ready) (hf : s.fsm = .idle) (w : Word)
    (run : State → Host.Outcome State Fault Refusal) :
    s.accept w false run = .next { s with err := 7, errPos := 0, errMask := 0, errByte := wordOp w } := by
  rw [s.accept_illegal w run hs, State.raiseError_of_idle hs hf]
  rfl

/-! ### The comparator's parameter tests (R154, R231) -/

theorem State.someActive_eq_false {s : State} : s.someActive = false ↔ s.active = 0 := by
  simp [State.someActive]

theorem State.budgetOk_eq_false {s : State} {r : Bool} : s.budgetOk r = false ↔ r = true ∧ s.budget = 0 := by
  simp [State.budgetOk]

theorem State.cmpLegal_eq_false {s : State} {r : Bool} (n : BitVec 4)
    (h : s.active = 0 ∨ (r = true ∧ s.budget = 0)) : s.cmpLegal r n = false := by
  simp only [State.cmpLegal, Bool.and_eq_false_iff, State.someActive_eq_false, State.budgetOk_eq_false]
  exact h.imp_left .inl

theorem State.waitlvlLegal_eq_false {s : State} {r : Bool}
    (h : s.active = 0 ∨ s.timeout = 0 ∨ (r = true ∧ s.budget = 0)) : s.waitlvlLegal r = false := by
  simp only [State.waitlvlLegal, Bool.and_eq_false_iff, State.someActive_eq_false, State.budgetOk_eq_false,
    bne_eq_false_iff_eq, or_assoc]
  exact h

end Sys2Proof.Machine
end

section
/-! The statements about the comparator (spec/41_compare.md). -/

namespace Sys2Proof.Machine

/-- Settles O20: bit c of the mask is channel c's own comparison, which looks at each bit below the bit count. -/
theorem divergeComparesTheSelectedBits : Obligations.DivergeComparesTheSelectedBits := by
  intro o e ign n _ h8 c
  rw [getLsbD_diverge, laneDiverges_iff _ _ _ h8]
  match c with
  | 0 | 1 | 2 | 3 => rfl

/-- Settles O24: each listed parameter fails the command's tests, and acceptance ends it as IllegalCommand with the code
of its word. -/
theorem comparatorCommandsRefuseBadParameters : Obligations.ComparatorCommandsRefuseBadParameters := by
  intro s r l n a b hs hf
  constructor
  · intro h
    rw [exec, execCmp, State.cmpLegal_eq_false n h, State.accept_illegal_of_idle hs hf, encode, wordOp_packWord]
  · intro h
    rw [exec, execWaitlvl, State.waitlvlLegal_eq_false h, State.accept_illegal_of_idle hs hf, encode, wordOp_packWord]

end Sys2Proof.Machine
end

section
/-! SUPPORT. The number of bytes of a frame (spec/30_encoding.md rules R90, R94), an accepted TXFRAME as a whole next
state (spec/42_frame_tx.md rule R170), and when the tests of the frame commands fail (rules R171, R192). -/

namespace Sys2Proof.Machine

/-! ### The bytes of a transmitted frame (R90, R94, R170) -/

/-- Where its Len field does not wrap, a frame takes five bytes more than Len: two markers, Len itself and the checksum
byte. -/
theorem Frame.bytes_length {f : Frame} (h : f.len.toNat = f.payload.length + f.ack.toList.length) :
    f.bytes.length = f.len.toNat + 5 := by
  simp only [h, f.bytes_eq, List.length_append, List.length_cons, List.length_nil]
  omega

theorem State.txFrame_ack_length (s : State) (payload : List Byte) :
    (s.txFrame payload).ack.toList.length = s.txctl.ackEn.toNat := by
  rw [State.txFrame]
  cases s.txctl.ackEn <;> rfl

theorem State.txFrame_bytes_length {s : State} {payload : List Byte} (hfits : s.txLenOk = true)
    (hlen : payload.length = s.txlen.toNat) :
    (s.txFrame payload).bytes.length = (s.txFrame payload).len.toNat + 5 := by
  apply Frame.bytes_length
  rw [s.txFrame_len payload hlen, State.txLenField_toNat hfits, s.txFrame_ack_length, ← hlen, State.txFrame]

/-- An accepted TXFRAME whose payload TXBUF holds, by the parts of its run. -/
theorem exec_txframe_of_holds {s : State} {payload : List Byte} (hs : s.ready) (hl : s.txframeLegal = true)
    (hlen : payload.length = s.txlen.toNat) (hold : s.holds .tx payload) :
    exec .txframe s = .next
      { s with
        opr := encode .txframe
        fsm := .idle
        busy := false
        csum := byteSum (s.txFrame payload).covered
        pos := s.txlen
        lenr := s.txLenField
        resMask := 0
        resValue := (s.txFrame payload).checksum
        allf := false
        trace := s.trace ++ (s.txFrame payload).bytes.map (.send s.active) } := by
  simp only [exec, execTxframe, hl, s.accept_run _ _ hs]
  rw [txBody_go (s.beginCommand (encode .txframe)) payload hlen hold, Flow.go_andThen, State.writeResult_zero]
  rfl

/-! ### The frame commands' parameter tests (R171, R192, R231) -/

theorem State.txLenOk_eq_false {s : State} (h : s.params.pageMax < s.txlen.toNat) : s.txLenOk = false := by
  rw [Bool.eq_false_iff, ne_eq, State.txLenOk_iff]
  omega

theorem State.rxLenOk_eq_false {s : State} (h : s.params.pageMax < s.rxlen.toNat) : s.rxLenOk = false := by
  rw [Bool.eq_false_iff, ne_eq, State.rxLenOk_iff]
  omega

theorem onehot_eq_false (m : Mask) : onehot m = false ↔ m ≠ 1 ∧ m ≠ 2 ∧ m ≠ 4 ∧ m ≠ 8 := by
  revert m
  decide

theorem State.captureOk_eq_false {s : State} :
    s.captureOk = false ↔
      (s.active ≠ 1 ∧ s.active ≠ 2 ∧ s.active ≠ 4 ∧ s.active ≠ 8) ∨
      s.params.bufSize < s.captureBase + s.rxlen.toNat := by
  rw [State.captureOk, Bool.and_eq_false_iff, onehot_eq_false, decide_eq_false_iff_not, not_le]

theorem State.txframeLegal_eq_false {s : State} (h : s.active = 0 ∨ s.txLenOk = false) :
    s.txframeLegal = false := by
  rwa [State.txframeLegal, Bool.and_eq_false_iff, State.someActive_eq_false]

theorem State.rxcapLegal_eq_false {s : State} (h : s.active = 0 ∨ s.rxLenOk = false ∨ s.captureOk = false) :
    s.rxcapLegal = false := by
  rwa [State.rxcapLegal, Bool.and_eq_false_iff, Bool.and_eq_false_iff, State.someActive_eq_false, or_assoc]

theorem State.xcapLegal_eq_false {s : State}
    (h : s.active = 0 ∨ s.rxLenOk = false ∨ s.txLenOk = false ∨ s.captureOk = false) : s.xcapLegal = false := by
  simpa only [State.xcapLegal, Bool.and_eq_false_iff, State.someActive_eq_false, or_assoc] using h

theorem State.rxcmpLegal_eq_false {s : State} {r : Bool}
    (h : s.active = 0 ∨ s.rxLenOk = false ∨ s.rxctl.cont = true ∨ (r = true ∧ s.budget = 0)) :
    s.rxcmpLegal r = false := by
  simpa only [State.rxcmpLegal, Bool.and_eq_false_iff, State.someActive_eq_false, State.budgetOk_eq_false,
    Bool.not_eq_false', or_assoc] using h

theorem State.xcmpLegal_eq_false {s : State} {r : Bool}
    (h : s.active = 0 ∨ s.rxLenOk = false ∨ s.txLenOk = false ∨ s.rxctl.cont = true ∨ (r = true ∧ s.budget = 0)) :
    s.xcmpLegal r = false := by
  simpa only [State.xcmpLegal, Bool.and_eq_false_iff, State.someActive_eq_false, State.budgetOk_eq_false,
    Bool.not_eq_false', or_assoc] using h

end Sys2Proof.Machine
end

section
/-! The statements about sending a frame (spec/42_frame_tx.md) and the frame commands' parameters. -/

namespace Sys2Proof.Machine

/-- Settles O28: TXLEN within PAGE_MAX passes TXFRAME's tests, its run sends the frame's bytes, and the Len field, which
does not wrap, counts all of them but five. -/
theorem txframeSendsTheFrame : Obligations.TxframeSendsTheFrame := by
  refine ⟨rfl, ⟨_, rfl⟩, fun s payload hs hact hwf hmax hlen hold => ?_⟩
  have hfits : s.txLenOk = true := (State.txLenOk_of_wf hwf).trans (decide_eq_true hmax)
  have hl : s.txframeLegal = true := by
    rw [State.txframeLegal, hfits, Bool.and_true, State.someActive, bne_iff_ne]
    exact hact
  refine ⟨State.txFrame_bytes_length hfits hlen, ?_⟩
  rw [exec_txframe_of_holds hs hl hlen hold, s.txFrame_len payload hlen]
  rfl

/-- Settles O29: each listed parameter fails the command's tests, and acceptance ends it as IllegalCommand with the code
of its word. -/
theorem frameCommandsRefuseBadParameters : Obligations.FrameCommandsRefuseBadParameters := by
  intro s r hs hf
  refine ⟨fun h => ?txframe, fun h => ?rxcap, fun h => ?rxcmp, fun h => ?xcap, fun h => ?xcmp⟩
  case txframe =>
    rw [exec, execTxframe, State.txframeLegal_eq_false (h.imp_right State.txLenOk_eq_false),
      State.accept_illegal_of_idle hs hf, encode, wordOp_packWord]
  case rxcap =>
    have hcap := h.imp_right (Or.imp State.rxLenOk_eq_false State.captureOk_eq_false.2)
    rw [exec, execRxcap, State.rxcapLegal_eq_false hcap, State.accept_illegal_of_idle hs hf, encode, wordOp_packWord]
  case rxcmp =>
    have hcmp := h.imp_right (Or.imp_left State.rxLenOk_eq_false)
    rw [exec, execRxcmp, State.rxcmpLegal_eq_false hcmp, State.accept_illegal_of_idle hs hf, encode, wordOp_packWord]
  case xcap =>
    have hcap := h.imp_right (Or.imp State.rxLenOk_eq_false (Or.imp State.txLenOk_eq_false State.captureOk_eq_false.2))
    rw [exec, execXcap, State.xcapLegal_eq_false hcap, State.accept_illegal_of_idle hs hf, encode, wordOp_packWord]
  case xcmp =>
    have hcmp := h.imp_right (Or.imp State.rxLenOk_eq_false (Or.imp_left State.txLenOk_eq_false))
    rw [exec, execXcmp, State.xcmpLegal_eq_false hcmp, State.accept_illegal_of_idle hs hf, encode, wordOp_packWord]

end Sys2Proof.Machine
end

section
/-! SUPPORT. A capture as the second half of an exchange (spec/43_frame_rx.md rule R201): it always ends in a next state,
and of OPR, FSM, RESULT and ALLF, in which the start of an RXCAP differs from an XCAP that has sent its request, it reads
nothing. -/

namespace Sys2Proof.Machine

/-- The capture of an RXCAP or XCAP from its first sample to the end of the command (R193). -/
def capRun (s : State) : Flow := (capBody s).andThen fun u => .go u.capEnd

/-- An accepted RXCAP latches its word and captures. -/
theorem exec_rxcap_of_legal {s : State} (hs : s.ready) (hl : s.rxcapLegal = true) :
    exec .rxcap s = (capRun (s.beginCommand (encode .rxcap))).outcome := by
  simp only [exec, execRxcap, hl, s.accept_run _ _ hs, capRun]

/-- An accepted XCAP whose request goes out captures from the state in which it was sent. -/
theorem exec_xcap_of_txBody {s v : State} (hs : s.ready) (hl : s.xcapLegal = true)
    (hv : txBody (s.beginCommand (encode .xcap)) = .go v) : exec .xcap s = (capRun v).outcome := by
  simp only [exec, execXcap, hl, s.accept_run _ _ hs, hv, Flow.go_andThen, capRun]

/-! ### A capture ends in a next state (R193) -/

theorem capStructural_andThen_ends {g : State → Flow} (hg : ∀ t, ∃ u, (g t).outcome = .next u) (e : Byte) (idx : Half)
    (covered : Bool) (s : State) : ∃ u, ((capStructural e idx covered s).andThen g).outcome = .next u := by
  rcases capStructural_cases e idx covered s with ⟨-, hgo⟩ | ⟨-, hraised⟩
  · rw [hgo, Flow.go_andThen]
    exact hg _
  · rw [hraised, Flow.raised_andThen]
    exact ⟨_, rfl⟩

theorem capCheckSum_andThen_capEnd_ends (s : State) :
    ∃ u, ((capCheckSum s).andThen fun u => .go u.capEnd).outcome = .next u := by
  rcases capCheckSum_cases s with ⟨-, hgo⟩ | ⟨-, hraised⟩
  · exact ⟨_, by rw [hgo, Flow.go_andThen, Flow.go_outcome]⟩
  · exact ⟨_, by rw [hraised, Flow.raised_andThen, Flow.raised_outcome]⟩

/-- No byte of a capture comes from a buffer, so nothing of it can stop the machine (R69). -/
theorem capRun_ends (s : State) : ∃ u, (capRun s).outcome = .next u := by
  simp only [capRun, capBody, Flow.andThen_assoc]
  exact capStructural_andThen_ends (fun _ => capStructural_andThen_ends (fun _ => capStructural_andThen_ends
    (fun _ => capStructural_andThen_ends capCheckSum_andThen_capEnd_ends _ _ _ _) _ _ _ _) _ _ _ _) _ _ _ _

/-! ### What a capture does not read (R25, R26, R30, R41) -/

/-- The same state with the OPR, FSM, RESULT and ALLF of `z`: a capture reads none of them, and writes all but OPR when
it ends. -/
def State.withEndFields (s z : State) : State :=
  { s with opr := z.opr, fsm := z.fsm, resMask := z.resMask, resValue := z.resValue, allf := z.allf }

/-- A flow under `State.withEndFields`; one that was ended by a `raise` has written all of the fields but OPR. -/
def Flow.withEndFields (z : State) : Flow → Flow
  | .go s => .go (s.withEndFields z)
  | .raised s => .raised { s with opr := z.opr }
  | .stop f => .stop f

/-- A part of a capture reads none of the fields it writes at its end, and leaves them where it goes on. -/
def IgnoresEndFields (k : State → Flow) : Prop :=
  ∀ z s, k (s.withEndFields z) = (k s).withEndFields z

theorem Flow.withEndFields_andThen {g : State → Flow} (hg : IgnoresEndFields g) (z : State) (x : Flow) :
    (x.withEndFields z).andThen g = (x.andThen g).withEndFields z := by
  cases x with
  | go s => exact hg z s
  | raised s => rfl
  | stop f => rfl

theorem capStructural_ignoresEndFields (e : Byte) (idx : Half) (covered : Bool) :
    IgnoresEndFields (capStructural e idx covered) := by
  intro z s
  have hv : (s.withEndFields z).captureValue = s.captureValue := rfl
  simp only [capStructural, hv]
  split
  · rfl
  · rfl

theorem capStructural_andThen_withEndFields {g : State → Flow} (hg : IgnoresEndFields g) (e : Byte) (idx : Half)
    (covered : Bool) (z s : State) :
    (capStructural e idx covered (s.withEndFields z)).andThen g =
      ((capStructural e idx covered s).andThen g).withEndFields z := by
  rw [capStructural_ignoresEndFields, Flow.withEndFields_andThen hg]

theorem capCheckSum_ignoresEndFields : IgnoresEndFields capCheckSum := by
  intro z s
  have hsum : (s.withEndFields z).csum = s.csum := rfl
  simp only [capCheckSum, hsum]
  split
  · rfl
  · rfl

theorem capAckIfAny_withEndFields (z s : State) :
    (s.withEndFields z).capAckIfAny = s.capAckIfAny.withEndFields z := by
  have hack : (s.withEndFields z).rxctl.ackEn = s.rxctl.ackEn := rfl
  simp only [State.capAckIfAny, hack]
  split
  · rfl
  · rfl

theorem capPayload_withEndFields (k : Nat) (z s : State) :
    capPayload k (s.withEndFields z) = (capPayload k s).withEndFields z := by
  induction k generalizing s with
  | zero => rfl
  | succ k ih => exact ih s.capPayloadByte

/-- The part of a capture after its header. -/
theorem capTrailer_ignoresEndFields (e : Byte) :
    IgnoresEndFields fun s =>
      (capStructural e (4 + s.lenr) false (capPayload s.rxlen.toNat s.capAckIfAny).capCsum).andThen capCheckSum := by
  intro z s
  have hmid : (capPayload s.rxlen.toNat (s.withEndFields z).capAckIfAny).capCsum =
      (capPayload s.rxlen.toNat s.capAckIfAny).capCsum.withEndFields z := by
    rw [capAckIfAny_withEndFields, capPayload_withEndFields]
    rfl
  exact (congrArg (fun t => (capStructural e (4 + s.lenr) false t).andThen capCheckSum) hmid).trans
    (capStructural_andThen_withEndFields capCheckSum_ignoresEndFields _ _ _ z _)

theorem capBody_ignoresEndFields : IgnoresEndFields capBody := fun z s =>
  capStructural_andThen_withEndFields
    (fun z s1 => capStructural_andThen_withEndFields
      (fun z s2 => capStructural_andThen_withEndFields
        (capTrailer_ignoresEndFields _) (loByte s2.lenr) 2 true z s2) (hiByte s1.lenr) 1 true z s1)
    (startMarker s.rxctl.kind) 0 false z s.capBegin

/-- At its end a capture has written every field it does not read but OPR. -/
theorem capRun_withEndFields (z s : State) : capRun (s.withEndFields z) = (capRun s).withOpr z.opr := by
  rw [capRun, capRun, capBody_ignoresEndFields]
  cases capBody s with
  | go u => rfl
  | raised u => rfl
  | stop f => rfl

/-! ### The tests of an exchange are those of its halves (R192) -/

theorem State.xcapLegal_iff (s : State) : s.xcapLegal = true ↔ s.txframeLegal = true ∧ s.rxcapLegal = true := by
  simp only [State.xcapLegal, State.txframeLegal, State.rxcapLegal, Bool.and_eq_true]
  constructor
  · rintro ⟨⟨⟨hact, hrx⟩, htx⟩, hcap⟩
    exact ⟨⟨hact, htx⟩, ⟨hact, hrx⟩, hcap⟩
  · rintro ⟨⟨hact, htx⟩, ⟨-, hrx⟩, hcap⟩
    exact ⟨⟨⟨hact, hrx⟩, htx⟩, hcap⟩

/-! ### The request of an exchange (R201) -/

/-- Once an XCAP has sent its request it stands where an RXCAP started after the TXFRAME would, but for OPR and the
fields that TXFRAME's own end writes, which an XCAP has kept. -/
theorem txBody_xcap_of_exec_txframe {s : State} {req : List Byte} (hs : s.ready) (hl : s.txframeLegal = true)
    (hlen : req.length = s.txlen.toNat) (hold : s.holds .tx req) :
    ∃ t, exec .txframe s = .next t ∧ t.ready ∧ t.rxcapLegal = s.rxcapLegal ∧
      txBody (s.beginCommand (encode .xcap)) =
        .go ((t.beginCommand (encode .rxcap)).withEndFields (s.beginCommand (encode .xcap))) :=
  ⟨_, exec_txframe_of_holds hs hl hlen hold, ⟨rfl, hs.2⟩, rfl, txBody_go _ req hlen hold⟩

end Sys2Proof.Machine
end

section
/-! The statements about receiving a frame (spec/43_frame_rx.md). -/

namespace Sys2Proof.Machine

/-- Settles O36: the request leaves the state in which RXCAP starts after TXFRAME, but for fields that a capture does not
read, and all of these but OPR the capture writes at its end. -/
theorem xcapIsTxframeThenRxcap : Obligations.XcapIsTxframeThenRxcap := by
  refine ⟨rfl, ⟨_, rfl⟩, fun s req hs hl _ hlen hold => ?_⟩
  obtain ⟨hltx, hlrx⟩ := s.xcapLegal_iff.1 hl
  obtain ⟨t, htx, ht, hlegal, hreq⟩ := txBody_xcap_of_exec_txframe hs hltx hlen hold
  obtain ⟨u, hu⟩ := capRun_ends (t.beginCommand (encode .rxcap))
  refine ⟨t, u, htx, (exec_rxcap_of_legal ht (hlegal.trans hlrx)).trans hu, ?_⟩
  rw [exec_xcap_of_txBody hs hl hreq, capRun_withEndFields]
  exact Flow.withOpr_outcome_of_next _ hu

end Sys2Proof.Machine
end

section
/-! SUPPORT. A retried command as a whole (spec/44_retry.md rules R230, R231, R232): an attempt leaves RREM and ERR as
it found them and is never ended by a `raise`, and an accepted command with R = 1 is the retry loop over its attempt. -/

namespace Sys2Proof.Machine

/-! ### An attempt leaves RREM and ERR alone (R230) -/

/-- No `raise` ended the flow, and where it goes on RREM is `n` and ERR is `e`. -/
def Flow.LeavesRetry (n : Word) (e : BitVec 4) : Flow → Prop
  | .go t => t.rrem = n ∧ t.err = e
  | .raised _ => False
  | .stop _ => True

theorem Flow.LeavesRetry.andThen {n : Word} {e : BitVec 4} {x : Flow} {k : State → Flow} (hx : x.LeavesRetry n e)
    (hk : ∀ t, (k t).LeavesRetry t.rrem t.err) : (x.andThen k).LeavesRetry n e := by
  cases x with
  | go t =>
    obtain ⟨rfl, rfl⟩ := hx
    exact hk t
  | raised t => exact hx
  | stop f => exact hx

theorem cmpAttempt_leavesRetry (n : Nat) (a b : Byte) (s : State) :
    (cmpAttempt n a b s).LeavesRetry s.rrem s.err :=
  ⟨rfl, rfl⟩

theorem pollLoop_keeps_retry (l : Bool) (k : Nat) (s : State) :
    (pollLoop l k s).rrem = s.rrem ∧ (pollLoop l k s).err = s.err := by
  induction k generalizing s with
  | zero => exact ⟨rfl, rfl⟩
  | succ k ih =>
    rw [pollLoop]
    split
    · exact ⟨rfl, rfl⟩
    · exact ih s.afterPoll

theorem waitlvlAttempt_leavesRetry (l : Bool) (s : State) : (waitlvlAttempt l s).LeavesRetry s.rrem s.err :=
  pollLoop_keeps_retry l s.timeout.toNat { s with trem := s.timeout }

theorem sendPayload_leavesRetry (k : Nat) (s : State) : (sendPayload k s).LeavesRetry s.rrem s.err := by
  induction k generalizing s with
  | zero => exact ⟨rfl, rfl⟩
  | succ k ih =>
    rw [sendPayload]
    split
    · exact ih _
    · trivial

theorem State.txHeader_keeps_retry (s : State) :
    s.txBegin.sendHeader.rrem = s.rrem ∧ s.txBegin.sendHeader.err = s.err := by
  rw [State.sendHeader_eq]
  exact ⟨rfl, rfl⟩

theorem txBody_leavesRetry (s : State) : (txBody s).LeavesRetry s.rrem s.err := by
  obtain ⟨hrrem, herr⟩ := s.txHeader_keeps_retry
  have hsent := sendPayload_leavesRetry s.txlen.toNat s.txBegin.sendHeader
  rw [hrrem, herr] at hsent
  exact hsent.andThen fun _ => ⟨rfl, rfl⟩

theorem hitPayload_leavesRetry (k : Nat) (s : State) : (hitPayload k s).LeavesRetry s.rrem s.err := by
  induction k generalizing s with
  | zero => exact ⟨rfl, rfl⟩
  | succ k ih =>
    rw [hitPayload]
    split
    · trivial
    · split
      · trivial
      · exact ih _

theorem State.hitAckIfAny_keeps_retry (s : State) : s.hitAckIfAny.rrem = s.rrem ∧ s.hitAckIfAny.err = s.err := by
  rw [State.hitAckIfAny]
  split
  · exact ⟨rfl, rfl⟩
  · exact ⟨rfl, rfl⟩

theorem State.rxHeader_keeps_retry (s : State) :
    s.rxcmpBegin.hitHeader.rrem = s.rrem ∧ s.rxcmpBegin.hitHeader.err = s.err :=
  State.hitAckIfAny_keeps_retry _

theorem rxcmpAttempt_leavesRetry (s : State) : (rxcmpAttempt s).LeavesRetry s.rrem s.err := by
  obtain ⟨hrrem, herr⟩ := s.rxHeader_keeps_retry
  have hcompared := hitPayload_leavesRetry s.rxlen.toNat s.rxcmpBegin.hitHeader
  rw [hrrem, herr] at hcompared
  exact hcompared.andThen fun _ => ⟨rfl, rfl⟩

theorem xcmpAttempt_leavesRetry (s : State) : (xcmpAttempt s).LeavesRetry s.rrem s.err :=
  (txBody_leavesRetry s).andThen rxcmpAttempt_leavesRetry

/-- Each of the four attempts leaves RREM to the retry loop, and the errors to the command's end. -/
theorem attemptOf_leavesRetry {i : Instr} {attempt : State → Flow} (h : attemptOf i = some attempt) (s : State) :
    (attempt s).LeavesRetry s.rrem s.err := by
  cases i with
  | nop | clrerr | srst | csclr | csadd _ | csget | cschk | txframe | rxcap | xcap => cases h
  | cmp r n a b => cases h; exact cmpAttempt_leavesRetry n.toNat a b s
  | waitlvl r l => cases h; exact waitlvlAttempt_leavesRetry l s
  | rxcmp r => cases h; exact rxcmpAttempt_leavesRetry s
  | xcmp r => cases h; exact xcmpAttempt_leavesRetry s

/-! ### Chains of such attempts (R230) -/

section
variable {attempt : State → Flow} (hkeep : ∀ s, (attempt s).LeavesRetry s.rrem s.err)
include hkeep

theorem leavesRetry_of_go {s t : State} (h : attempt s = .go t) : t.rrem = s.rrem ∧ t.err = s.err := by
  have hs := hkeep s
  rwa [h] at hs

theorem leavesRetry_ne_raised (s t : State) : attempt s ≠ .raised t := by
  intro h
  have hs := hkeep s
  rwa [h] at hs

/-- However many attempts were made, ERR is what it was before the first. -/
theorem Attempts.err_eq {k : Nat} {s u : State} (h : Attempts attempt k s u) : u.err = s.err := by
  induction h with
  | one ht => exact (leavesRetry_of_go hkeep ht).2
  | more _ _ hu ih => exact (leavesRetry_of_go hkeep hu).2.trans ih

end

/-! ### A command with R = 1 (R231, R232) -/

/-- With no budget a command with R = 1 fails its tests. -/
theorem State.budget_ne_zero_of_legal {s : State} {i : Instr} (hret : retried i = true) (hl : s.legal i = true) :
    s.budget ≠ 0 := by
  intro h0
  have hillegal : s.legal i = false := by
    cases i with
    | nop | clrerr | srst | csclr | csadd _ | csget | cschk | txframe | rxcap | xcap => cases hret
    | cmp r n a b => exact State.cmpLegal_eq_false n (.inr ⟨hret, h0⟩)
    | waitlvl r l => exact State.waitlvlLegal_eq_false (.inr (.inr ⟨hret, h0⟩))
    | rxcmp r => exact State.rxcmpLegal_eq_false (.inr (.inr (.inr ⟨hret, h0⟩)))
    | xcmp r => exact State.xcmpLegal_eq_false (.inr (.inr (.inr (.inr ⟨hret, h0⟩))))
  exact Bool.false_ne_true (hillegal.symm.trans hl)

/-- The kind of error that a mask that is not 0 ends a retried command with (R273, R274). -/
def failKind : Instr → ErrKind
  | .waitlvl _ _ => .timeoutError
  | _ => .compareMismatch

/-- The state in which an accepted command with R = 1 enters its retry loop (R29, R230). -/
def State.retryStart (s : State) (i : Instr) : State := { s with opr := encode i, busy := true, rrem := s.budget }

/-- An accepted command with R = 1 is the retry loop over its attempt, then the error of the last mask. -/
theorem exec_of_retried {s : State} {i : Instr} {attempt : State → Flow} (hatt : attemptOf i = some attempt)
    (hret : retried i = true) (hs : s.ready) (hl : s.legal i = true) :
    ∃ pos : State → Half, exec i s =
      ((retryLoop attempt s.budget.toNat (s.retryStart i)).andThen fun u =>
        .go (u.finish (failKind i) (pos u))).outcome := by
  cases i with
  | nop | clrerr | srst | csclr | csadd _ | csget | cschk | txframe | rxcap | xcap => cases hatt
  | cmp r n a b =>
    cases hatt
    obtain rfl : r = true := hret
    exact ⟨fun _ => 0, exec_cmp_of_legal a b hs hl⟩
  | waitlvl r l =>
    cases hatt
    obtain rfl : r = true := hret
    have hlegal : s.waitlvlLegal true = true := hl
    exact ⟨fun _ => 0, by rw [exec, execWaitlvl, hlegal, s.accept_run _ _ hs]; rfl⟩
  | rxcmp r =>
    cases hatt
    obtain rfl : r = true := hret
    have hlegal : s.rxcmpLegal true = true := hl
    exact ⟨State.first, by rw [exec, execRxcmp, hlegal, s.accept_run _ _ hs]; rfl⟩
  | xcmp r =>
    cases hatt
    obtain rfl : r = true := hret
    have hlegal : s.xcmpLegal true = true := hl
    exact ⟨State.first, by rw [exec, execXcmp, hlegal, s.accept_run _ _ hs]; rfl⟩

end Sys2Proof.Machine
end

section
/-! The statements about retry (spec/44_retry.md). -/

namespace Sys2Proof.Machine

/-- Settles O25: the command is a retry loop over an attempt that leaves RREM and ERR alone, so the loop either stops
with an attempt, which answers no next state, or leaves a chain of attempts, whose last mask is the command's error. -/
theorem retryMakesAtMostBudgetAttempts : Obligations.RetryMakesAtMostBudgetAttempts := by
  intro i attempt s t hatt hret hs hl hexec
  have hkeep := attemptOf_leavesRetry hatt
  have hbudget : 1 ≤ s.budget.toNat :=
    Nat.one_le_iff_ne_zero.2 fun h => State.budget_ne_zero_of_legal hret hl (BitVec.eq_of_toNat_eq h)
  obtain ⟨pos, hrun⟩ := exec_of_retried hatt hret hs hl
  rw [hrun] at hexec
  rcases retryLoop_cases attempt (fun _ _ h => (leavesRetry_of_go hkeep h).1) (leavesRetry_ne_raised hkeep)
    s.budget.toNat (s.retryStart i) rfl hbudget with ⟨f, hstop⟩ | ⟨k, u, hu, hk1, hkN, hchain, hlast, hrrem⟩
  · rw [hstop] at hexec
    cases hexec
  · have herr : u.err = 0 := (hchain.err_eq hkeep).trans hs.2
    rw [hu, Flow.go_andThen, Flow.go_outcome, State.finish_of_clear u _ _ herr] at hexec
    obtain rfl := Host.Outcome.next.inj hexec
    exact ⟨k, u, hk1, hkN, hchain, hlast, hrrem, rfl, rfl, fun hm => if_pos hm,
      fun hm => ⟨(if_neg hm).trans (by cases i <;> rfl), if_neg hm⟩⟩

end Sys2Proof.Machine
end

section
/-! SUPPORT. NOP, CLRERR and SRST while BUSY = 0 (spec/45_control.md rule R250 line 2): they run whatever ERR is. -/

namespace Sys2Proof.Machine

/-- With BUSY = 0 nothing refuses these commands (R250 line 2); with BUSY = 1 see `State.acceptAlways_busy`. -/
theorem State.acceptAlways_idle (s : State) (run : State → State) (h : s.busy = false) :
    s.acceptAlways run = .next (run s) :=
  if_neg (Bool.eq_false_iff.1 h)

theorem exec_nop_of_idle {s : State} (h : s.busy = false) : exec .nop s = .next s :=
  s.acceptAlways_idle (fun t => t) h

theorem exec_clrerr_of_idle {s : State} (h : s.busy = false) : exec .clrerr s = .next s.clearError :=
  s.acceptAlways_idle _ h

theorem exec_srst_of_idle {s : State} (h : s.busy = false) : exec .srst s = .next s.resetRegisters :=
  s.acceptAlways_idle _ h

end Sys2Proof.Machine

namespace Sys2Proof

/-- R = 1 on a command that takes no R (R102 (c)). -/
theorem checkFields_of_retry {w : Word} (aOk : Bool) (i : Instr) (h : wordR w = true) :
    checkFields w false aOk i = .error .retryNotAllowed :=
  if_pos (by rw [h]; rfl)

/-- NOP's code with R = 1 is ill-formed, whatever the operand fields hold (R102 (c)). -/
theorem decode_nop_with_retry (b a : Byte) (n : BitVec 4) :
    decode (packWord b a n true 0x00) = .error .retryNotAllowed := by
  simp [decode, checkFields_of_retry]

end Sys2Proof
end

section
/-! The statements about the control commands (spec/45_control.md). -/

namespace Sys2Proof.Machine

/-- Settles O17: 0x00000100 is NOP's code with R = 1, which R102 (c) refuses. -/
theorem nopDoesNothing : Obligations.NopDoesNothing :=
  ⟨rfl, ⟨_, decode_nop_with_retry 0 0 0⟩, fun s => ⟨exec_nop_of_idle, exec_of_busy _ s⟩⟩

/-- Settles O18: accepted, CLRERR is `State.clearError`. -/
theorem clrerrClearsTheErrorRecord : Obligations.ClrerrClearsTheErrorRecord :=
  ⟨rfl, fun s => ⟨exec_clrerr_of_idle, exec_of_busy _ s⟩⟩

/-- Settles O19: accepted, SRST is `State.resetRegisters`, the reset state but for the buffers and the model's own
fields. -/
theorem srstResetsRegistersKeepsBuffers : Obligations.SrstResetsRegistersKeepsBuffers :=
  ⟨rfl, fun s => ⟨exec_of_busy _ s, exec_srst_of_idle⟩⟩

end Sys2Proof.Machine
end

section
/-! SUPPORT. The registers put together from several fields at their reset value (spec/70_reset_and_hazards.md rule
R321), and the idle block left to itself. -/

namespace Sys2Proof.Machine

/-! ### The reset state as the host reads it (R33, R35, R37, R41, R44, R321) -/

theorem State.reset_statusReg : State.reset.statusReg = 0 := by decide

theorem State.reset_txctl_pack : State.reset.txctl.pack = 0 := by decide

theorem State.reset_rxctl_pack : State.reset.rxctl.pack = 0 := by decide

theorem State.reset_resultReg : State.reset.resultReg = 0 := by decide

theorem State.reset_errinfoReg : State.reset.errinfoReg = 0 := by decide

/-! ### The idle block (R26, R321) -/

theorem State.fsmFlow_of_idle {s : State} (h : s.fsm = .idle) : s.fsmFlow = .go s := by
  simp only [State.fsmFlow, h]

/-- In IDLE the block waits for the host (R26), whatever its registers hold. -/
theorem step_of_idle {s : State} (hs : s.silent) (h : s.fsm = .idle) : step s = .next s :=
  (step_silent s hs).trans (congrArg Flow.outcome (State.fsmFlow_of_idle h))

end Sys2Proof.Machine
end

section
/-! The statement about reset (spec/70_reset_and_hazards.md). -/

namespace Sys2Proof.Machine

/-- Settles O44: SRST leaves every register and flag as `State.reset` has it, so what the reset state holds decides both
halves. -/
theorem resetStateHoldsTheResetValues : Obligations.ResetStateHoldsTheResetValues := by
  unfold Obligations.ResetStateHoldsTheResetValues
  intro cleared
  have hreset : cleared State.reset := by
    simp only [cleared, State.reset_statusReg, State.reset_txctl_pack, State.reset_rxctl_pack, State.reset_resultReg,
      State.reset_errinfoReg]
    simp [State.reset]
  have hsrst (s : State) : cleared s.resetRegisters := hreset
  exact ⟨hreset, step_of_idle ⟨rfl, rfl⟩ rfl, fun s h =>
    ⟨s.resetRegisters, exec_srst_of_idle h, hsrst s, s.resetRegisters_mem⟩⟩

end Sys2Proof.Machine
end

section
/-! SUPPORT. Which words the decoder lets pass (spec/30_encoding.md rules R100 to R102): what the field checks leave of a
word, when they reject one, and the fields of a word as numbers. -/

namespace Sys2Proof

/-! ### The field checks (R102 (c) to (f)) -/

/-- A word that the field checks let pass is the packed word of the fields its command uses. -/
theorem checkFields_ok_word {w : Word} {rOk aOk : Bool} {i j : Instr} (hrsv : ¬ wordReserved w ≠ 0)
    (h : checkFields w rOk aOk i = .ok j) :
    i = j ∧ packWord 0 (if aOk then wordA w else 0) 0 (if rOk then wordR w else false) (wordOp w) = w := by
  obtain ⟨hij, hr, hn, hb, ha⟩ := checkFields_ok h
  have hw := packWord_fields w (not_not.1 hrsv)
  have hr' : (if rOk then wordR w else false) = wordR w := by
    cases rOk
    · exact (hr rfl).symm
    · rfl
  have ha' : (if aOk then wordA w else 0) = wordA w := by
    cases aOk
    · exact (ha rfl).symm
    · rfl
  rw [hn, hb] at hw
  exact ⟨hij, by rw [hr', ha', hw]⟩

theorem checkFields_error_iff (w : Word) (rOk aOk : Bool) (i : Instr) :
    (∃ r, checkFields w rOk aOk i = .error r) ↔
      (wordR w = true ∧ rOk = false) ∨ wordN w ≠ 0 ∨ wordB w ≠ 0 ∨ (wordA w ≠ 0 ∧ aOk = false) := by
  unfold checkFields
  split_ifs with hr hn hb ha
  · simpa using .inl (by simpa using hr)
  · simpa using .inr (.inl hn)
  · simpa using .inr (.inr (.inl hb))
  · simpa using .inr (.inr (.inr ha))
  · simp_all

/-! ### Decoding and encoding (R100, R101) -/

theorem decode_encode {i : Instr} (h : i.wellFormed = true) : decode (encode i) = .ok i := by
  cases i with
  | nop | clrerr | srst | csclr | csadd _ | csget | cschk => simp [decode, encode, checkFields]
  | txframe | rxcap | rxcmp _ | xcap | xcmp _ => simp [decode, encode, checkFields]
  | cmp r n a b => exact decode_encode_cmp r a b h
  | waitlvl r l =>
    have hhigh : (BitVec.setWidth 8 (BitVec.ofBool l)).extractLsb' 1 7 = 0 := by cases l <;> rfl
    have hlow : (BitVec.setWidth 8 (BitVec.ofBool l)).getLsbD 0 = l := by cases l <;> rfl
    simp only [decode, encode, decodeWaitlvl, checkFields, wordReserved_packWord, wordOp_packWord, wordA_packWord,
      wordR_packWord, wordN_packWord, wordB_packWord, hhigh, hlow]
    simp

/-- WAITLVL's word is rebuilt from its level bit, the other bits of A being 0 (R102 (g)). -/
theorem levelByte_of_high_zero {a : Byte} (h : ¬ a.extractLsb' 1 7 ≠ 0) :
    BitVec.setWidth 8 (BitVec.ofBool (a.getLsbD 0)) = a := by
  revert a
  decide

/-- A command whose word is put together from the fields its checks leave is well formed and encodes to that word. -/
theorem encode_of_checkFields {w : Word} {rOk aOk : Bool} {op : Byte} {i j : Instr} (hrsv : ¬ wordReserved w ≠ 0)
    (hop : wordOp w = op) (h : checkFields w rOk aOk i = .ok j) (hwf : i.wellFormed = true)
    (hi : encode i = packWord 0 (if aOk then wordA w else 0) 0 (if rOk then wordR w else false) op) :
    j.wellFormed = true ∧ encode j = w := by
  obtain ⟨rfl, hw⟩ := checkFields_ok_word hrsv h
  exact ⟨hwf, by rw [hi, ← hop, hw]⟩

theorem encode_of_decodeCmp {w : Word} {i : Instr} (hrsv : ¬ wordReserved w ≠ 0) (hop : wordOp w = 0x20)
    (h : decodeCmp w = .ok i) : i.wellFormed = true ∧ encode i = w := by
  unfold decodeCmp at h
  split at h
  · next hn =>
    cases h
    exact ⟨hn, by rw [encode, ← hop, packWord_fields w (not_not.1 hrsv)]⟩
  · cases h

theorem encode_of_decodeWaitlvl {w : Word} {i : Instr} (hrsv : ¬ wordReserved w ≠ 0) (hop : wordOp w = 0x21)
    (h : decodeWaitlvl w = .ok i) : i.wellFormed = true ∧ encode i = w := by
  unfold decodeWaitlvl at h
  split at h
  · cases h
  · next hhigh =>
    exact encode_of_checkFields hrsv hop h rfl (by rw [encode, levelByte_of_high_zero hhigh]; rfl)

/-- The commands without an operand, each with its code (R101). -/
def operandless : List (Byte × Instr) :=
  [(0x00, .nop), (0x01, .clrerr), (0x02, .srst), (0x10, .csclr), (0x12, .csget), (0x13, .cschk), (0x30, .txframe),
    (0x31, .rxcap), (0x33, .xcap)]

/-- The decoder, code by code: what holds of the reading of a word with reserved bits, of each code's checks, and of a
word with none of the codes, holds of the word's decoding. -/
theorem decode_cases {P : Except Reject Instr → Prop} {w : Word}
    (reserved : wordReserved w ≠ 0 → P (.error .reservedBits))
    (plain : ∀ op i, (op, i) ∈ operandless → ¬ wordReserved w ≠ 0 → wordOp w = op → P (checkFields w false false i))
    (csadd : ¬ wordReserved w ≠ 0 → wordOp w = 0x11 → P (checkFields w false true (.csadd (wordA w))))
    (cmp : ¬ wordReserved w ≠ 0 → wordOp w = 0x20 → P (decodeCmp w))
    (waitlvl : ¬ wordReserved w ≠ 0 → wordOp w = 0x21 → P (decodeWaitlvl w))
    (compare : ∀ op i, (op, i) ∈ [((0x32 : Byte), Instr.rxcmp (wordR w)), (0x34, .xcmp (wordR w))] →
      ¬ wordReserved w ≠ 0 → wordOp w = op → P (checkFields w true false i))
    (unknown : ¬ wordReserved w ≠ 0 →
      wordOp w ∉ [(0x00 : Byte), 0x01, 0x02, 0x10, 0x11, 0x12, 0x13, 0x20, 0x21, 0x30, 0x31, 0x32, 0x33, 0x34] →
      P (.error .unknownOp)) : P (decode w) := by
  unfold decode
  refine iteInduction reserved fun hrsv => ?_
  refine iteInduction (plain _ _ (by simp [operandless]) hrsv) fun h00 => ?_
  refine iteInduction (plain _ _ (by simp [operandless]) hrsv) fun h01 => ?_
  refine iteInduction (plain _ _ (by simp [operandless]) hrsv) fun h02 => ?_
  refine iteInduction (plain _ _ (by simp [operandless]) hrsv) fun h10 => ?_
  refine iteInduction (csadd hrsv) fun h11 => ?_
  refine iteInduction (plain _ _ (by simp [operandless]) hrsv) fun h12 => ?_
  refine iteInduction (plain _ _ (by simp [operandless]) hrsv) fun h13 => ?_
  refine iteInduction (cmp hrsv) fun h20 => ?_
  refine iteInduction (waitlvl hrsv) fun h21 => ?_
  refine iteInduction (plain _ _ (by simp [operandless]) hrsv) fun h30 => ?_
  refine iteInduction (plain _ _ (by simp [operandless]) hrsv) fun h31 => ?_
  refine iteInduction (compare _ _ (by simp) hrsv) fun h32 => ?_
  refine iteInduction (plain _ _ (by simp [operandless]) hrsv) fun h33 => ?_
  refine iteInduction (compare _ _ (by simp) hrsv) fun h34 => ?_
  exact unknown hrsv (by simp [h00, h01, h02, h10, h11, h12, h13, h20, h21, h30, h31, h32, h33, h34])

theorem encode_of_mem_operandless {op : Byte} {i : Instr} (h : (op, i) ∈ operandless) :
    i.wellFormed = true ∧ encode i = packWord 0 0 0 false op := by
  simp only [operandless, List.mem_cons, Prod.mk.injEq, List.not_mem_nil, or_false] at h
  rcases h with ⟨rfl, rfl⟩ | ⟨rfl, rfl⟩ | ⟨rfl, rfl⟩ | ⟨rfl, rfl⟩ | ⟨rfl, rfl⟩ | ⟨rfl, rfl⟩ | ⟨rfl, rfl⟩ |
    ⟨rfl, rfl⟩ | ⟨rfl, rfl⟩ <;> exact ⟨rfl, rfl⟩

theorem encode_of_decode {w : Word} {i : Instr} (h : decode w = .ok i) : i.wellFormed = true ∧ encode i = w := by
  revert h
  refine decode_cases (P := fun x => x = .ok i → _) (fun _ => nofun) ?plain ?csadd ?cmp ?waitlvl ?compare
    (fun _ _ => nofun)
  case plain =>
    intro op j hj hrsv hop h
    obtain ⟨hwf, hj⟩ := encode_of_mem_operandless hj
    exact encode_of_checkFields hrsv hop h hwf hj
  case csadd => exact fun hrsv hop h => encode_of_checkFields hrsv hop h rfl rfl
  case cmp => exact encode_of_decodeCmp
  case waitlvl => exact encode_of_decodeWaitlvl
  case compare =>
    intro op j hj hrsv hop h
    simp only [List.mem_cons, Prod.mk.injEq, List.not_mem_nil, or_false] at hj
    rcases hj with ⟨rfl, rfl⟩ | ⟨rfl, rfl⟩
    · exact encode_of_checkFields hrsv hop h rfl rfl
    · exact encode_of_checkFields hrsv hop h rfl rfl

/-! ### The fields of a word as numbers (R100) -/

theorem toNat_wordOp (w : Word) : (wordOp w).toNat = w.toNat % 256 := by
  simp [wordOp]

theorem toNat_wordR (w : Word) : (wordR w).toNat = w.toNat / 256 % 2 := by
  rw [wordR, BitVec.getLsbD, Nat.testBit_eq_decide_div_mod_eq]
  rcases Nat.mod_two_eq_zero_or_one (w.toNat / 2 ^ 8) with h | h <;> simp_all

theorem toNat_wordReserved (w : Word) : (wordReserved w).toNat = w.toNat / 512 % 8 := by
  simp [wordReserved, Nat.shiftRight_eq_div_pow]

theorem toNat_wordN (w : Word) : (wordN w).toNat = w.toNat / 4096 % 16 := by
  simp [wordN, Nat.shiftRight_eq_div_pow]

theorem toNat_wordA (w : Word) : (wordA w).toNat = w.toNat / 65536 % 256 := by
  simp [wordA, Nat.shiftRight_eq_div_pow]

theorem toNat_wordB (w : Word) : (wordB w).toNat = w.toNat / 16777216 := by
  have := w.isLt
  simp [wordB, Nat.shiftRight_eq_div_pow]
  omega

/-! ### Which words are rejected (R102) -/

theorem bitCountOk_iff (n : BitVec 4) : bitCountOk n = true ↔ 1 ≤ n.toNat ∧ n.toNat ≤ 8 := by
  simp [bitCountOk]

theorem decodeCmp_error_iff (w : Word) :
    (∃ r, decodeCmp w = .error r) ↔ ¬ (1 ≤ (wordN w).toNat ∧ (wordN w).toNat ≤ 8) := by
  rw [← bitCountOk_iff, decodeCmp]
  split <;> simp_all

theorem decodeWaitlvl_error_iff (w : Word) :
    (∃ r, decodeWaitlvl w = .error r) ↔ (wordA w).toNat / 2 ≠ 0 ∨ wordN w ≠ 0 ∨ wordB w ≠ 0 := by
  have hhigh : (wordA w).extractLsb' 1 7 = 0 ↔ (wordA w).toNat / 2 = 0 := by
    generalize wordA w = a
    revert a
    decide
  rw [decodeWaitlvl]
  split
  · next h => simp [hhigh.not.1 h]
  · next h =>
    rw [checkFields_error_iff]
    simp [hhigh.1 (not_not.1 h)]

/-- A field is 0 exactly where its number is. -/
theorem ne_zero_iff_toNat {k : Nat} (x : BitVec k) : x ≠ 0 ↔ x.toNat ≠ 0 := by
  rw [ne_eq, ← BitVec.toNat_inj]
  rfl

/-- R102 on the fields of a word, its clauses (a) to (h) in order. -/
def IllFormed (op r rsv n a b : Nat) : Prop :=
  op ∉ [0x00, 0x01, 0x02, 0x10, 0x11, 0x12, 0x13, 0x20, 0x21, 0x30, 0x31, 0x32, 0x33, 0x34] ∨
  rsv ≠ 0 ∨
  (r = 1 ∧ op ∉ [0x20, 0x21, 0x32, 0x34]) ∨
  (n ≠ 0 ∧ op ≠ 0x20) ∨
  (b ≠ 0 ∧ op ≠ 0x20) ∨
  (a ≠ 0 ∧ op ∉ [0x11, 0x20, 0x21]) ∨
  (op = 0x21 ∧ a / 2 ≠ 0) ∨
  (op = 0x20 ∧ ¬ (1 ≤ n ∧ n ≤ 8))

theorem decode_error_iff (w : Word) :
    (∃ r, decode w = .error r) ↔
      IllFormed (wordOp w).toNat (wordR w).toNat (wordReserved w).toNat (wordN w).toNat (wordA w).toNat
        (wordB w).toNat := by
  refine decode_cases (P := fun x => (∃ r, x = .error r) ↔ _) ?reserved ?plain ?csadd ?cmp ?waitlvl ?compare ?unknown
  case reserved =>
    intro hrsv
    exact iff_of_true ⟨_, rfl⟩ (.inr (.inl ((ne_zero_iff_toNat _).1 hrsv)))
  case plain =>
    intro op i hi hrsv hop
    rw [checkFields_error_iff, ne_zero_iff_toNat, ne_zero_iff_toNat, ne_zero_iff_toNat]
    rw [ne_zero_iff_toNat, not_not] at hrsv
    simp only [operandless, List.mem_cons, Prod.mk.injEq, List.not_mem_nil, or_false] at hi
    rcases hi with ⟨rfl, rfl⟩ | ⟨rfl, rfl⟩ | ⟨rfl, rfl⟩ | ⟨rfl, rfl⟩ | ⟨rfl, rfl⟩ | ⟨rfl, rfl⟩ | ⟨rfl, rfl⟩ |
      ⟨rfl, rfl⟩ | ⟨rfl, rfl⟩ <;> simp [IllFormed, hop, hrsv]
  case csadd =>
    intro hrsv hop
    rw [checkFields_error_iff, ne_zero_iff_toNat, ne_zero_iff_toNat, ne_zero_iff_toNat]
    rw [ne_zero_iff_toNat, not_not] at hrsv
    simp [IllFormed, hop, hrsv]
  case cmp =>
    intro hrsv hop
    rw [ne_zero_iff_toNat, not_not] at hrsv
    rw [decodeCmp_error_iff]
    simp [IllFormed, hop, hrsv]
  case waitlvl =>
    intro hrsv hop
    rw [ne_zero_iff_toNat, not_not] at hrsv
    rw [decodeWaitlvl_error_iff, ne_zero_iff_toNat, ne_zero_iff_toNat]
    simp [IllFormed, hop, hrsv, or_assoc, or_comm]
  case compare =>
    intro op i hi hrsv hop
    rw [checkFields_error_iff, ne_zero_iff_toNat, ne_zero_iff_toNat, ne_zero_iff_toNat]
    rw [ne_zero_iff_toNat, not_not] at hrsv
    simp only [List.mem_cons, Prod.mk.injEq, List.not_mem_nil, or_false] at hi
    rcases hi with ⟨rfl, rfl⟩ | ⟨rfl, rfl⟩ <;> simp [IllFormed, hop, hrsv]
  case unknown =>
    intro _ hop
    refine iff_of_true ⟨_, rfl⟩ (.inl fun hmem => hop ?_)
    simp only [List.mem_cons, List.not_mem_nil, or_false] at hmem ⊢
    simp only [← BitVec.toNat_inj]
    exact hmem

end Sys2Proof
end

section
/-! The statements about the decoder and the encoder (spec/30_encoding.md). -/

namespace Sys2Proof.Machine

/-- Settles O1: the fields of a packed word are read back, WAITLVL's level out of A[0]. -/
theorem decodeOfEncodeIsTheCommand : Obligations.DecodeOfEncodeIsTheCommand := fun _ => decode_encode

/-- Settles O2: the checks leave of a word the fields its command uses, and the word is put together from them. -/
theorem encodeOfDecodeIsTheWord : Obligations.EncodeOfDecodeIsTheWord := fun _ _ => encode_of_decode

/-- Settles O3: code by code the checks reject what the clauses name, the fields read as numbers. -/
theorem rejectedWordsAreTheIllFormedOnes : Obligations.RejectedWordsAreTheIllFormedOnes := by
  intro w
  have h := decode_error_iff w
  rw [toNat_wordOp, toNat_wordR, toNat_wordReserved, toNat_wordN, toNat_wordA, toNat_wordB] at h
  exact h

/-- Settles O4: each word is the packed word of its command. -/
theorem listedWordsDecode : Obligations.ListedWordsDecode :=
  ⟨rfl, rfl, rfl, rfl, rfl, rfl, rfl⟩

end Sys2Proof.Machine
end

section
/-! SUPPORT. What every command comes to, said once (spec/45_control.md rule R250): it is refused, or ends as
IllegalCommand, or completes at once, or runs its body from the command start on. -/

namespace Sys2Proof.Machine

/-- What the seven commands that complete at once do where they are accepted (R131 to R134, R251 to R253). -/
def immediate : Instr → State → State
  | .clrerr, s => s.clearError
  | .srst, s => s.resetRegisters
  | .csclr, s => { s with csum := 0x00 }
  | .csadd a, s => { s with csum := s.csum + a }
  | .csget, s => s.writeResult 0 (0 - s.csum)
  | .cschk, s => s.writeResult 0 (if s.csum = 0x00 then 0x01 else 0x00)
  | _, s => s

/-- What a transport command does between its command start and its end. -/
def commandBody : Instr → State → Flow
  | .cmp r n a b, s => cmpBody r n.toNat a b s
  | .waitlvl r l, s => (runAttempts r (waitlvlAttempt l) s).andThen fun u => .go (u.finish .timeoutError 0)
  | .txframe, s => (txBody s).andThen fun u => .go (u.writeResult 0 (0 - u.csum)).endCommand
  | .rxcap, s => capRun s
  | .rxcmp r, s => (runAttempts r rxcmpAttempt s).andThen fun u => .go (u.finish .compareMismatch u.first)
  | .xcap, s => (txBody s).andThen capRun
  | .xcmp r, s => (runAttempts r xcmpAttempt s).andThen fun u => .go (u.finish .compareMismatch u.first)
  | _, s => .go s

theorem exec_eq_accept {i : Instr} (h : isTransport i = true) (s : State) :
    exec i s = s.accept (encode i) (s.legal i) fun t => (commandBody i (t.beginCommand (encode i))).outcome := by
  cases i with
  | nop | clrerr | srst | csclr | csadd _ | csget | cschk => cases h
  | cmp _ _ _ _ | waitlvl _ _ | txframe | rxcap | rxcmp _ | xcap | xcmp _ => rfl

theorem exec_of_legal {i : Instr} {s : State} (hs : s.ready) (hl : s.legal i = true) (h : isTransport i = true) :
    exec i s = (commandBody i (s.beginCommand (encode i))).outcome := by
  rw [exec_eq_accept h, hl, s.accept_run _ _ hs]

theorem acceptAlways_cases (s : State) (run : State → State) :
    (s.acceptAlways run = .next s.refuse ∧ ¬ s.ready) ∨
    (s.busy = false ∧ s.acceptAlways run = .next (run s)) := by
  rcases Bool.eq_false_or_eq_true s.busy with hb | hb
  · exact .inl ⟨s.acceptAlways_busy run hb, fun h => Bool.false_ne_true (h.1.symm.trans hb)⟩
  · exact .inr ⟨hb, s.acceptAlways_idle run hb⟩

/-- Of the commands that complete at once only NOP, CLRERR and SRST are accepted whatever ERR is (R250 line 2). -/
theorem exec_immediate {i : Instr} (h : isTransport i = false) (s : State) :
    ((i = .nop ∨ i = .clrerr ∨ i = .srst) ∧ exec i s = s.acceptAlways (immediate i)) ∨
    exec i s = s.accept (encode i) true fun t => .next (immediate i t) := by
  cases i with
  | nop | clrerr | srst => exact .inl ⟨by simp, rfl⟩
  | csclr | csadd _ | csget | cschk => exact .inr rfl
  | cmp _ _ _ _ | waitlvl _ _ | txframe | rxcap | rxcmp _ | xcap | xcmp _ => cases h

/-- What a command can come to. -/
theorem exec_cases (i : Instr) (s : State) :
    (exec i s = .next s.refuse ∧ ¬ s.ready) ∨
    (exec i s = .next (s.raiseError .illegalCommand 0 0 (wordOp (encode i))) ∧ s.ready ∧ s.legal i = false) ∨
    (isTransport i = false ∧ s.busy = false ∧ exec i s = .next (immediate i s)) ∨
    (isTransport i = true ∧ s.ready ∧ s.legal i = true ∧
      exec i s = (commandBody i (s.beginCommand (encode i))).outcome) := by
  rcases Bool.eq_false_or_eq_true (isTransport i) with hi | hi
  · rw [exec_eq_accept hi]
    exact (s.accept_cases _ _ _).imp_right (Or.imp_right fun ⟨h, hs, hl⟩ => .inr ⟨hi, hs, hl, h⟩)
  · rcases exec_immediate hi s with ⟨-, he⟩ | he
    · rw [he]
      exact (acceptAlways_cases s _).imp_right fun h => .inr (.inl ⟨hi, h⟩)
    · rw [he]
      rcases s.accept_cases (encode i) true (fun t => .next (immediate i t)) with h | ⟨-, -, h⟩ | ⟨h, hs, -⟩
      · exact .inl h
      · cases h
      · exact .inr (.inr (.inl ⟨hi, hs.1, h⟩))

/-- Line 3 of acceptance spares the control commands only. -/
theorem exec_of_error {i : Instr} {s : State} (he : s.err ≠ 0) (hi : ¬ (i = .nop ∨ i = .clrerr ∨ i = .srst)) :
    exec i s = .next s.refuse := by
  rcases Bool.eq_false_or_eq_true (isTransport i) with ht | ht
  · rw [exec_eq_accept ht, s.accept_error _ _ _ he]
  · rcases exec_immediate ht s with ⟨hc, -⟩ | h
    · exact absurd hc hi
    · rw [h, s.accept_error _ _ _ he]

/-! ### A word written to CMD (R32, R250) -/

theorem hostWrite_cmd {s : State} (w : Word) (hrst : s.rst = false) :
    hostWrite 0x0000 .four w s = runWord w (s.answer true 0) := by
  have ht : target s.params 0x0000 .four = some (.reg .cmd) := target_four_of_regAt _ rfl
  unfold hostWrite
  rw [ht]
  simp [hrst]

theorem runWord_of_ok {w : Word} {i : Instr} (h : decode w = .ok i) (s : State) : runWord w s = exec i s := by
  rw [runWord, h]

theorem runWord_of_error {w : Word} (h : ∃ r, decode w = .error r) (s : State) : runWord w s = s.illegalWord w := by
  obtain ⟨r, h⟩ := h
  rw [runWord, h]

/-! ### The sum of a run of CSADD (R130) -/

theorem exec_csadd_of_ready {s : State} (a : Byte) (hs : s.ready) :
    exec (.csadd a) s = .next { s with csum := s.csum + a } := by
  rw [exec, execCsadd, s.accept_run _ _ hs]

theorem byteSum_perm {us vs : List Byte} (h : us.Perm vs) : byteSum us = byteSum vs := by
  induction h with
  | nil => rfl
  | cons _ _ ih => rw [byteSum, byteSum, ih]
  | swap a b l => simp only [byteSum, ← BitVec.add_assoc, BitVec.add_comm]
  | trans _ _ ih1 ih2 => exact ih1.trans ih2

/-- One byte exactly brings a sum to 0. -/
theorem sum_add_eq_zero_iff (x c : Byte) : x + c = 0x00 ↔ c = 0 - x := by
  constructor
  · intro h
    rw [← h, BitVec.add_comm, BitVec.add_sub_cancel]
  · rintro rfl
    rw [BitVec.add_comm, BitVec.sub_add_cancel]

/-! ### The reset input (R320 to R322) -/

theorem step_rst {s : State} {b : Bool} {rest : List PortEvent} (h : s.port = .rst b :: rest) :
    step s = .next (({ s with port := rest } : State).setRst b) :=
  step_of_port h

theorem hostRead_of_rst {s : State} (a : Half) (sz : AccessSize) (h : s.rst = true) : hostRead a sz s = s.busError :=
  if_pos h

theorem hostWrite_of_rst {s : State} (a : Half) (sz : AccessSize) (d : Word) (h : s.rst = true) :
    hostWrite a sz d s = .next s.busError :=
  if_pos h

theorem hostPost_of_rst {s : State} (w : Word) (h : s.rst = true) : hostPost w s = .next s.busError :=
  if_pos h

theorem blockStep_of_rst {s : State} (h : s.rst = true) : blockStep s = .next s :=
  if_pos h

end Sys2Proof.Machine
end

section
/-! The statements about acceptance, error entry, the reset state and the reset input (spec/45_control.md,
spec/60_exceptions.md, spec/70_reset_and_hazards.md), and the order of a sum (spec/40_checksum.md). -/

namespace Sys2Proof.Machine

/-- Settles O5: the address 0x0000 is CMD's, and the word is run by the command it decodes to. -/
theorem stepRunsTheDecodedCommand : Obligations.StepRunsTheDecodedCommand := by
  intro s w i rest hrst hport hw
  exact step_write hport ((hostWrite_cmd (s := { s with port := rest }) w hrst).trans (runWord_of_ok hw _))

/-- Settles O6: at line 4 of acceptance error entry finds the block idle, so that it writes the error registers only. -/
theorem illFormedWordEndsAsIllegalCommand : Obligations.IllFormedWordEndsAsIllegalCommand := by
  intro s w rest hrst hport hs hf hw
  refine step_write hport ((hostWrite_cmd (s := { s with port := rest }) w hrst).trans ((runWord_of_error hw _).trans ?_))
  exact State.accept_illegal_of_idle (s := ({ s with port := rest } : State).answer true 0) hs hf w _

/-- Settles O7: line 1 of acceptance. -/
theorem busyRefusesEveryCommand : Obligations.BusyRefusesEveryCommand := exec_of_busy

/-- Settles O8: line 3 of acceptance. -/
theorem errorRefusesAllButControlCommands : Obligations.ErrorRefusesAllButControlCommands :=
  fun _ _ _ he hnop hclrerr hsrst => exec_of_error he (by simp [hnop, hclrerr, hsrst])

/-- Settles O16: each CSADD adds its byte and leaves the state ready for the next one, and a sum of bytes does not depend
on their order. -/
theorem csaddRunsSumAnyOrderToOneChecksum : Obligations.CsaddRunsSumAnyOrderToOneChecksum := by
  intro bs cs s hs hperm
  constructor
  · rw [← byteSum_perm hperm]
    clear hperm
    induction bs generalizing s with
    | nil => simp [byteSum]
    | cons b rest ih =>
      simp only [List.foldl_cons, exec_csadd_of_ready b hs]
      rw [ih { s with csum := s.csum + b } hs, byteSum, BitVec.add_assoc]
  · intro c
    have hc : byteSum [c] = c := BitVec.add_zero c
    rw [byteSum_append, hc, byteSum_perm hperm, ← BitVec.add_assoc, sum_add_eq_zero_iff]

/-- Settles O38: both sides of the test of R280. -/
theorem errorEntryKeepsTheFirstError : Obligations.ErrorEntryKeepsTheFirstError :=
  fun s k p m b => ⟨s.raiseError_of_clear k p m b, s.raiseError_of_set k p m b⟩

/-- Settles O40: the reset state is idle, without an error, and `rst` is released in it. -/
theorem resetMeetsControlInvariant : Obligations.ResetMeetsControlInvariant where
  busy_iff := by decide
  err_code := .inl rfl
  errinfo_clear := fun _ => ⟨rfl, rfl, rfl⟩
  busy_no_error := fun _ => rfl
  held := nofun

/-- Settles O42: no byte is written in the reset state and no command runs in it. -/
theorem resetMeetsBufferInvariant : Obligations.ResetMeetsBufferInvariant where
  params_wf := by decide
  mem_wf := State.reset_mem_wf
  in_windows := nofun
  rpos_le := by decide
  aux_not_capture := nofun
  room_before := nofun
  room_during := nofun

/-- Settles O45: `rst` is tested before anything else, by the host's accesses and by the block's own step alike. -/
theorem rstResetsAndHoldsTheBlock : Obligations.RstResetsAndHoldsTheBlock := by
  refine ⟨fun s rest h => step_rst h, fun s rest a sz d hrst h => ?access, fun s hrst h => ?held,
    fun s rest hrst h => ?quiet, fun s rest h => step_rst h⟩
  case access =>
    rcases h with h | h | h
    · exact step_read h (hostRead_of_rst a sz hrst)
    · exact step_write h (hostWrite_of_rst a sz d hrst)
    · exact step_post h (hostPost_of_rst d hrst)
  case held => exact (by simp only [step, machineStep, h] : step s = blockStep s).trans (blockStep_of_rst hrst)
  case quiet => exact (step_of_port h).trans (blockStep_of_rst hrst)

end Sys2Proof.Machine
end

section
/-! SUPPORT. The host port while BUSY = 0 (spec/20_memory.md rules R61, R64; spec/10_state.md rules R31 to R46): what each
register reads as a number, what a write of it stores, and what a read can come to. -/

namespace Sys2Proof.Machine

/-! ### The register layouts as numbers (R33 to R44) -/

theorem toNat_append_eq {v w : Nat} (x : BitVec v) (y : BitVec w) : (x ++ y).toNat = x.toNat * 2 ^ w + y.toNat := by
  rw [BitVec.toNat_append, ← Nat.shiftLeft_add_eq_or_of_lt y.isLt, Nat.shiftLeft_eq]

/-- A register reads as the number its layout gives. -/
theorem eq_ofNat_of_toNat {x : Word} {v : Nat} (h : x.toNat = v) : x = BitVec.ofNat 32 v := by
  rw [← h, BitVec.ofNat_toNat, BitVec.setWidth_eq]

theorem State.toNat_statusReg {s : State} (hb : s.busy = false) :
    s.statusReg.toNat = s.allf.toNat * 4 + s.seq.toNat * 2 + s.err.toNat * 16 + s.fsm.code.toNat * 256 := by
  simp only [State.statusReg, toNat_append_eq, BitVec.toNat_ofBool, BitVec.toNat_ofNat, hb, Bool.toNat_false]
  omega

theorem TxCtl.toNat_pack (c : TxCtl) :
    c.pack.toNat = c.kind.toNat + c.ackEn.toNat * 2 + c.endBit.toNat * 4 + c.ackVal.toNat * 256 := by
  simp only [TxCtl.pack, toNat_append_eq, BitVec.toNat_ofBool, BitVec.toNat_ofNat]
  omega

theorem RxCtl.toNat_pack (c : RxCtl) :
    c.pack.toNat =
      c.kind.toNat + c.ackEn.toNat * 2 + c.endBit.toNat * 4 + c.cont.toNat * 8 + c.ackVal.toNat * 256 := by
  simp only [RxCtl.pack, toNat_append_eq, BitVec.toNat_ofBool, BitVec.toNat_ofNat]
  omega

theorem State.toNat_resultReg (s : State) : s.resultReg.toNat = s.resMask.toNat + s.resValue.toNat * 256 := by
  simp only [State.resultReg, toNat_append_eq, BitVec.toNat_ofNat]
  omega

theorem State.toNat_sumsReg (s : State) : s.sumsReg.toNat = s.csum.toNat + s.rsum.toNat * 256 := by
  simp only [State.sumsReg, toNat_append_eq, BitVec.toNat_ofNat]
  omega

theorem State.toNat_rposReg (s : State) : s.rposReg.toNat = s.rpos.toNat := by
  simp only [State.rposReg, toNat_append_eq, BitVec.toNat_ofNat]
  omega

theorem State.toNat_errinfoReg (s : State) :
    s.errinfoReg.toNat = s.errPos.toNat + s.errMask.toNat * 65536 + s.errByte.toNat * 16777216 := by
  simp only [State.errinfoReg, toNat_append_eq, BitVec.toNat_ofNat]
  omega

theorem toNat_setWidth_word {w : Nat} (x : BitVec w) (h : w ≤ 32) : (x.setWidth 32).toNat = x.toNat :=
  BitVec.toNat_setWidth_of_le h

/-! ### Registers and their addresses (R31) -/

/-- The host address of a register. -/
def Reg.addr : Reg → Half
  | .cmd => 0x0000
  | .status => 0x0004
  | .active => 0x0008
  | .txctl => 0x000C
  | .txlen => 0x0010
  | .rxctl => 0x0014
  | .rxlen => 0x0018
  | .budget => 0x001C
  | .timeout => 0x0020
  | .result => 0x0024
  | .sums => 0x0028
  | .rpos => 0x002C
  | .errinfo => 0x0030
  | .rrem => 0x0034
  | .trem => 0x0038

theorem eq_addr_of_regAt {a : Half} {r : Reg} (h : regAt a = some r) : a = r.addr := by
  have ha : a.toNat % 4 = 0 ∧ a.toNat ≤ 0x38 := by
    by_contra hn
    rw [regAt_none a hn] at h
    cases h
  obtain ⟨n, hn, rfl⟩ : ∃ n, n < 15 ∧ a = BitVec.ofNat 16 (4 * n) :=
    ⟨a.toNat / 4, by omega, by apply BitVec.eq_of_toNat_eq; simp; omega⟩
  interval_cases n <;> (cases h; rfl)

/-! ### Writes of a register (R34 to R39, R46) -/

/-- A write of one register leaves what every other register reads as. -/
theorem State.readReg_writeReg_other (s : State) (w : Word) {r q : Reg} (h : q ≠ r) :
    (s.writeReg w r).readReg q = s.readReg q := by
  cases r with
  | cmd | status | result | sums | rpos | errinfo | rrem | trem => rfl
  | active => cases q with | active => exact absurd rfl h | _ => rfl
  | txctl => cases q with | txctl => exact absurd rfl h | _ => rfl
  | txlen => cases q with | txlen => exact absurd rfl h | _ => rfl
  | rxctl => cases q with | rxctl => exact absurd rfl h | _ => rfl
  | rxlen => cases q with | rxlen => exact absurd rfl h | _ => rfl
  | budget => cases q with | budget => exact absurd rfl h | _ => rfl
  | timeout => cases q with | timeout => exact absurd rfl h | _ => rfl

theorem TxCtl.pack_unpack (w : Word) : (TxCtl.unpack w).pack = w &&& 0x0000FF07 := by
  have h : (TxCtl.unpack w).pack =
      (0#16 ++ w.extractLsb' 8 8 ++ 0#5 ++ BitVec.ofBool (w.getLsbD 2) ++ BitVec.ofBool (w.getLsbD 1) ++
        BitVec.ofBool (w.getLsbD 0) : BitVec (16 + 8 + 5 + 1 + 1 + 1)) := rfl
  rw [h]
  apply BitVec.eq_of_getLsbD_eq
  intro i hi
  simp only [BitVec.getLsbD_append, BitVec.getLsbD_ofBool, BitVec.getLsbD_extractLsb', BitVec.getLsbD_and,
    BitVec.getLsbD_zero, Nat.sub_sub]
  interval_cases i <;> simp

theorem RxCtl.pack_unpack (w : Word) : (RxCtl.unpack w).pack = w &&& 0x0000FF0F := by
  have h : (RxCtl.unpack w).pack =
      (0#16 ++ w.extractLsb' 8 8 ++ 0#4 ++ BitVec.ofBool (w.getLsbD 3) ++ BitVec.ofBool (w.getLsbD 2) ++
        BitVec.ofBool (w.getLsbD 1) ++ BitVec.ofBool (w.getLsbD 0) : BitVec (16 + 8 + 4 + 1 + 1 + 1 + 1)) := rfl
  rw [h]
  apply BitVec.eq_of_getLsbD_eq
  intro i hi
  simp only [BitVec.getLsbD_append, BitVec.getLsbD_ofBool, BitVec.getLsbD_extractLsb', BitVec.getLsbD_and,
    BitVec.getLsbD_zero, Nat.sub_sub]
  interval_cases i <;> simp

/-- The seven registers that a write stores in, with their stored bits (R34 to R39, R46). -/
def storedBits : List (Reg × Word) :=
  [(.active, 0x0000000F), (.txctl, 0x0000FF07), (.txlen, 0x0000FFFF), (.rxctl, 0x0000FF0F), (.rxlen, 0x0000FFFF),
    (.budget, 0xFFFFFFFF), (.timeout, 0xFFFFFFFF)]

theorem setWidth_setWidth_word (w : Word) {k : Nat} {mask : Word} (h : mask = BitVec.ofNat 32 (2 ^ k - 1)) :
    (w.setWidth k).setWidth 32 = w &&& mask := by
  subst h
  apply BitVec.eq_of_getLsbD_eq
  intro i hi
  simp only [BitVec.getLsbD_setWidth, BitVec.getLsbD_and, BitVec.getLsbD_ofNat, Nat.testBit_two_pow_sub_one, hi,
    decide_true, Bool.true_and]
  rw [Bool.and_comm]

/-- What a write stores reads back with every other bit 0. -/
theorem State.readReg_writeReg_same (s : State) (w : Word) {r : Reg} {mask : Word} (h : (r, mask) ∈ storedBits) :
    (s.writeReg w r).readReg r = w &&& mask := by
  simp only [storedBits, List.mem_cons, Prod.mk.injEq, List.not_mem_nil, or_false] at h
  rcases h with ⟨rfl, rfl⟩ | ⟨rfl, rfl⟩ | ⟨rfl, rfl⟩ | ⟨rfl, rfl⟩ | ⟨rfl, rfl⟩ | ⟨rfl, rfl⟩ | ⟨rfl, rfl⟩
  · exact setWidth_setWidth_word w (k := 4) rfl
  · exact TxCtl.pack_unpack w
  · exact setWidth_setWidth_word w (k := 16) rfl
  · exact RxCtl.pack_unpack w
  · exact setWidth_setWidth_word w (k := 16) rfl
  · exact BitVec.and_allOnes.symm
  · exact BitVec.and_allOnes.symm

/-! ### Accesses while BUSY = 0 (R64) -/

/-- The host's own records once an access has been answered: the events left, and one more reply. -/
def State.accessed (s : State) (rest : List PortEvent) (data : Word) : State :=
  { s with port := rest, replies := s.replies ++ [⟨true, data⟩] }

/-- One more byte stored. -/
def State.stored (s : State) (a : Nat) (v : Byte) : State := { s with mem := s.mem.write a v }

@[simp] theorem State.accessed_replies (s : State) (rest : List PortEvent) (data : Word) :
    (s.accessed rest data).replies = s.replies ++ [⟨true, data⟩] := rfl

theorem State.readReg_accessed (s : State) (rest : List PortEvent) (data : Word) (r : Reg) :
    (s.accessed rest data).readReg r = s.readReg r := by
  cases r <;> rfl

theorem State.writeReg_busy (s : State) (w : Word) (r : Reg) : (s.writeReg w r).busy = s.busy := by
  cases r <;> rfl

theorem State.writeReg_replies (s : State) (w : Word) (r : Reg) : (s.writeReg w r).replies = s.replies := by
  cases r <;> rfl

theorem State.writeReg_rst (s : State) (w : Word) (r : Reg) : (s.writeReg w r).rst = s.rst := by
  cases r <;> rfl

section
variable {s : State} {a : Half} {rest : List PortEvent} (hb : s.busy = false) (hrst : s.rst = false)
include hb hrst

theorem hostRead_reg {r : Reg} (hr : regAt a = some r) : hostRead a .four s = s.answer true (s.readReg r) := by
  simp [hostRead, hrst, target_four_of_regAt s.params hr, hb]

theorem hostWrite_reg {r : Reg} (d : Word) (hr : regAt a = some r) (hcmd : r ≠ .cmd) (hro : r.readOnly = false) :
    hostWrite a .four d s = .next ((s.writeReg d r).answer true 0) := by
  simp [hostWrite, hrst, target_four_of_regAt s.params hr, hb, hcmd, hro]

theorem hostRead_byte {v : Byte} (hw : inWindow s.params a.toNat = true) (hv : s.mem.read a.toNat = some v) :
    hostRead a .one s = s.answer true (v.setWidth 32) := by
  simp [hostRead, hrst, target_one_of_inWindow s.params a hw, hb, State.readByte, hv]

theorem hostWrite_byte (d : Word) (hw : inWindow s.params a.toNat = true) :
    hostWrite a .one d s = .next ((s.stored a.toNat (d.extractLsb' 0 8)).answer true 0) := by
  simp [hostWrite, hrst, target_one_of_inWindow s.params a hw, hb, State.stored]

theorem step_read_reg {r : Reg} (hp : s.port = .read a .four :: rest) (hr : regAt a = some r) :
    step s = .next (s.accessed rest (s.readReg r)) :=
  (step_read hp (hostRead_reg (s := { s with port := rest }) hb hrst hr)).trans (by cases r <;> rfl)

theorem step_write_reg {r : Reg} {d : Word} (hp : s.port = .write a .four d :: rest) (hr : regAt a = some r)
    (hcmd : r ≠ .cmd) (hro : r.readOnly = false) : step s = .next ((s.writeReg d r).accessed rest 0) :=
  (step_write hp (hostWrite_reg (s := { s with port := rest }) hb hrst d hr hcmd hro)).trans (by cases r <;> rfl)

theorem step_read_byte {v : Byte} (hp : s.port = .read a .one :: rest) (hw : inWindow s.params a.toNat = true)
    (hv : s.mem.read a.toNat = some v) : step s = .next (s.accessed rest (v.setWidth 32)) :=
  step_read hp (hostRead_byte (s := { s with port := rest }) hb hrst hw hv)

theorem step_write_byte {d : Word} (hp : s.port = .write a .one d :: rest) (hw : inWindow s.params a.toNat = true) :
    step s = .next ((s.stored a.toNat (d.extractLsb' 0 8)).accessed rest 0) :=
  step_write hp (hostWrite_byte (s := { s with port := rest }) hb hrst d hw)

end

/-- What a read can come to: it is answered, a free value drawn at most, or it is refused because BUSY = 1. -/
theorem hostRead_cases (a : Half) (sz : AccessSize) (s : State) :
    (∃ ok d n, hostRead a sz s = ({ s with draws := n } : State).answer ok d) ∨
    (s.busy = true ∧ hostRead a sz s = s.refuseAccess) := by
  have hbus : ∃ ok d n, s.busError = ({ s with draws := n } : State).answer ok d := ⟨_, _, s.draws, rfl⟩
  have hbyte (k : Nat) : ∃ ok d n, s.readByte k = ({ s with draws := n } : State).answer ok d := by
    unfold State.readByte
    split
    · exact ⟨_, _, s.draws, rfl⟩
    · exact ⟨_, _, _, rfl⟩
  unfold hostRead
  split
  · exact .inl hbus
  split
  · exact .inl hbus
  · split
    · next h => exact .inr ⟨(Bool.and_eq_true_iff.1 h).1, rfl⟩
    · exact .inl ⟨_, _, s.draws, rfl⟩
  · split
    · next h => exact .inr ⟨h, rfl⟩
    · exact .inl (hbyte _)

theorem run_two {s t u : State} (ht : step s = .next t) (hu : step t = .next u) :
    Host.Core.run Sys2Proof.core 2 s = .next u := by
  have hs : Sys2Proof.core.step s = .next t := ht
  have ht' : Sys2Proof.core.step t = .next u := hu
  simp only [Host.Core.run, hs, ht']

end Sys2Proof.Machine
end

section
/-! The statements about the registers and the buffer windows (spec/10_state.md, spec/20_memory.md). -/

namespace Sys2Proof.Machine

/-- Settles O48: each address is that of its register, and each layout is the number the statement gives. -/
theorem registerReadsReturnTheirFields : Obligations.RegisterReadsReturnTheirFields := by
  intro s rest a v hb hrst hp hmem
  have hreg : ∃ r, regAt a = some r ∧ (s.readReg r).toNat = v := by
    simp only [List.mem_cons, Prod.mk.injEq, List.not_mem_nil, or_false] at hmem
    rcases hmem with ⟨rfl, rfl⟩ | ⟨rfl, rfl⟩ | ⟨rfl, rfl⟩ | ⟨rfl, rfl⟩ | ⟨rfl, rfl⟩ | ⟨rfl, rfl⟩ | ⟨rfl, rfl⟩ |
      ⟨rfl, rfl⟩ | ⟨rfl, rfl⟩ | ⟨rfl, rfl⟩ | ⟨rfl, rfl⟩ | ⟨rfl, rfl⟩ | ⟨rfl, rfl⟩ | ⟨rfl, rfl⟩ | ⟨rfl, rfl⟩
    · exact ⟨.cmd, rfl, rfl⟩
    · exact ⟨.status, rfl, s.toNat_statusReg hb⟩
    · exact ⟨.active, rfl, toNat_setWidth_word _ (by decide)⟩
    · exact ⟨.txctl, rfl, s.txctl.toNat_pack⟩
    · exact ⟨.txlen, rfl, toNat_setWidth_word _ (by decide)⟩
    · exact ⟨.rxctl, rfl, s.rxctl.toNat_pack⟩
    · exact ⟨.rxlen, rfl, toNat_setWidth_word _ (by decide)⟩
    · exact ⟨.budget, rfl, rfl⟩
    · exact ⟨.timeout, rfl, rfl⟩
    · exact ⟨.result, rfl, s.toNat_resultReg⟩
    · exact ⟨.sums, rfl, s.toNat_sumsReg⟩
    · exact ⟨.rpos, rfl, s.toNat_rposReg⟩
    · exact ⟨.errinfo, rfl, s.toNat_errinfoReg⟩
    · exact ⟨.rrem, rfl, rfl⟩
    · exact ⟨.trem, rfl, rfl⟩
  obtain ⟨r, hr, hv⟩ := hreg
  rw [← eq_ofNat_of_toNat hv]
  exact step_read_reg hb hrst hp hr

/-- Settles O49: the write stores in its register only, which reads back its stored bits, and no two addresses reach one
register. -/
theorem registerWritesReadBackTheirFields : Obligations.RegisterWritesReadBackTheirFields := by
  intro s rest a d mask hb hrst hmem hp
  have hreg : ∃ r, regAt a = some r ∧ r ≠ .cmd ∧ r.readOnly = false ∧ (r, mask) ∈ storedBits := by
    simp only [List.mem_cons, Prod.mk.injEq, List.not_mem_nil, or_false] at hmem
    rcases hmem with ⟨rfl, rfl⟩ | ⟨rfl, rfl⟩ | ⟨rfl, rfl⟩ | ⟨rfl, rfl⟩ | ⟨rfl, rfl⟩ | ⟨rfl, rfl⟩ | ⟨rfl, rfl⟩
    · exact ⟨.active, rfl, by decide⟩
    · exact ⟨.txctl, rfl, by decide⟩
    · exact ⟨.txlen, rfl, by decide⟩
    · exact ⟨.rxctl, rfl, by decide⟩
    · exact ⟨.rxlen, rfl, by decide⟩
    · exact ⟨.budget, rfl, by decide⟩
    · exact ⟨.timeout, rfl, by decide⟩
  obtain ⟨r, hr, hcmd, hro, hbits⟩ := hreg
  have hread := step_read_reg (s := (s.writeReg d r).accessed (.read a .four :: rest) 0)
    ((s.writeReg_busy d r).trans hb) ((s.writeReg_rst d r).trans hrst) rfl hr
  rw [State.readReg_accessed, s.readReg_writeReg_same d hbits] at hread
  have hrun := run_two (step_write_reg hb hrst hp hr hcmd hro) hread
  refine ⟨_, hrun, ?replies, rfl, ?frame, ?other⟩
  case replies => simp [s.writeReg_replies]
  case frame =>
    obtain ⟨act, tc, tl, rc, rl, bu, ti, hw⟩ := s.writeReg_frame d r
    rw [hw]
    rfl
  case other =>
    rintro b hne ⟨q, hq⟩
    have hqr : q ≠ r := fun e => hne ((eq_addr_of_regAt hq).trans (e ▸ (eq_addr_of_regAt hr).symm))
    refine ⟨q, hq, ?_⟩
    rw [State.readReg_accessed, State.readReg_accessed, s.readReg_writeReg_other d hqr]

/-- Settles O50: a read that is not refused changes nothing but the counter of free values. -/
theorem hostReadsChangeNothing : Obligations.HostReadsChangeNothing := by
  intro s rest a sz hp
  rcases hostRead_cases a sz { s with port := rest } with ⟨ok, d, n, h⟩ | ⟨hb, h⟩
  · exact ⟨_, ⟨ok, d⟩, step_read hp h, rfl, rfl, rfl, .inl rfl⟩
  · exact ⟨_, ⟨true, 0⟩, step_read hp h, rfl, rfl, rfl, .inr ⟨hb, rfl⟩⟩

/-- Settles O51: the byte written is the one the read finds, and the write stores no other. -/
theorem bufferWritesReadBack : Obligations.BufferWritesReadBack := by
  intro s rest a d hb hrst hw hp
  have hsame := Memory.read_write_same s.mem a.toNat (d.extractLsb' 0 8)
  have hread := step_read_byte (s := (s.stored a.toNat (d.extractLsb' 0 8)).accessed (.read a .one :: rest) 0)
    hb hrst rfl hw hsame
  have hrun := run_two (step_write_byte hb hrst hp hw) hread
  exact ⟨_, hrun, by simp [State.stored], hsame, fun b hne => Memory.read_write_other _ _ _ _ hne,
    by simp only [State.accessed, State.stored]⟩

end Sys2Proof.Machine
end

section
/-! SUPPORT. What a flow can come to, as a predicate that goes through `andThen` and the retry loop, and the bodies that
read a buffer as whole states: the request of a frame (spec/42_frame_tx.md rule R170) and one compare of a frame
(spec/43_frame_rx.md rule R197), each with the byte it stops at where one is missing (spec/20_memory.md rule R69). -/

namespace Sys2Proof.Machine

/-! ### What a flow comes to -/

/-- The flow goes on in a state of the first kind, was ended by a `raise` in one of the second, or stops with such a
fault. -/
def Flow.Sat (go raised : State → Prop) (stop : Fault → Prop) : Flow → Prop
  | .go t => go t
  | .raised t => raised t
  | .stop f => stop f

theorem Flow.Sat.andThen {P P' Q : State → Prop} {F : Fault → Prop} {x : Flow} {k : State → Flow} (hx : x.Sat P Q F)
    (hk : ∀ t, P t → (k t).Sat P' Q F) : (x.andThen k).Sat P' Q F := by
  cases x with
  | go t => exact hk t hx
  | raised t => exact hx
  | stop f => exact hx

theorem Flow.Sat.imp {P P' Q Q' : State → Prop} {F F' : Fault → Prop} {x : Flow} (hx : x.Sat P Q F)
    (hP : ∀ t, P t → P' t) (hQ : ∀ t, Q t → Q' t) (hF : ∀ f, F f → F' f) : x.Sat P' Q' F' := by
  cases x with
  | go t => exact hP t hx
  | raised t => exact hQ t hx
  | stop f => exact hF f hx

theorem Flow.Sat.outcome {P : State → Prop} {F : Fault → Prop} {x : Flow} (hx : x.Sat P P F) :
    (∃ t, x.outcome = .next t ∧ P t) ∨ ∃ f, x.outcome = .fault f ∧ F f := by
  cases x with
  | go t => exact .inl ⟨t, rfl, hx⟩
  | raised t => exact .inl ⟨t, rfl, hx⟩
  | stop f => exact .inr ⟨f, rfl, hx⟩

theorem Flow.Sat.of_next {P : State → Prop} {F : Fault → Prop} {x : Flow} {t : State} (hx : x.Sat P P F)
    (h : x.outcome = .next t) : P t := by
  rcases Flow.outcome_eq_next h with rfl | rfl
  · exact hx
  · exact hx

/-! ### Attempts (R230) -/

section
variable {attempt : State → Flow} {I : Nat → State → Prop} {F : Fault → Prop}
  (hrrem : ∀ j t w, I j t → I j { t with rrem := w })
  (hstep : ∀ j t, I j t → (attempt t).Sat (I (j + 1)) (fun _ => False) F)
include hrrem hstep

/-- What holds after no attempt, is kept by one, and does not speak of RREM, holds after the retry loop. -/
theorem retryLoop_sat (k j : Nat) (s : State) (hs : I j s) :
    (retryLoop attempt k s).Sat (fun t => ∃ n, n ≤ k ∧ (k ≠ 0 → n ≠ 0) ∧ I (j + n) t) (fun _ => False) F := by
  induction k generalizing j s with
  | zero => exact ⟨0, le_refl 0, fun h => absurd rfl h, hs⟩
  | succ k ih =>
    refine (hstep j _ (hrrem j s (s.rrem - 1) hs)).andThen fun t ht => ?_
    split
    · exact ⟨1, by omega, fun _ => one_ne_zero, ht⟩
    · refine (ih (j + 1) t ht).imp ?_ (fun _ h => h) fun _ h => h
      rintro u ⟨n, hn, -, hu⟩
      exact ⟨n + 1, by omega, fun _ => n.succ_ne_zero, by rwa [Nat.add_right_comm, Nat.add_assoc] at hu⟩

/-- The same for a command's attempts: at least one is made, unless R = 1 and BUDGET = 0. -/
theorem runAttempts_sat {r : Bool} {s : State} (hs : I 0 s) :
    (runAttempts r attempt s).Sat (fun t => ∃ n, n ≤ s.attemptBound r ∧ (s.attemptBound r ≠ 0 → n ≠ 0) ∧ I n t)
      (fun _ => False) F := by
  cases r with
  | false => exact (hstep 0 s hs).imp (fun t ht => ⟨1, le_refl 1, fun _ => one_ne_zero, ht⟩) (fun _ h => h) fun _ h => h
  | true =>
    refine (retryLoop_sat hrrem hstep s.budget.toNat 0 _ (hrrem 0 s s.budget hs)).imp ?_ (fun _ h => h) fun _ h => h
    rintro t ⟨n, hn, hn0, ht⟩
    exact ⟨n, hn, hn0, by rwa [Nat.zero_add] at ht⟩

end

/-- A legal command may make an attempt. -/
theorem State.attemptBound_ne_zero {s : State} {r : Bool} (h : s.budgetOk r = true) : s.attemptBound r ≠ 0 := by
  cases r with
  | false => exact one_ne_zero
  | true =>
    intro h0
    have hb : s.budget = 0 := BitVec.eq_of_toNat_eq h0
    exact Bool.false_ne_true ((State.budgetOk_eq_false.2 ⟨rfl, hb⟩).symm.trans h)

/-! ### The request of a frame (R170, R69) -/

/-- What sending the frame of a payload leaves (R170). -/
def State.sent (s : State) (payload : List Byte) : State :=
  { s with
    csum := byteSum (s.txFrame payload).covered
    lenr := s.txLenField
    pos := s.txlen
    trace := s.trace ++ (s.txFrame payload).bytes.map (.send s.active) }

theorem toNat_add_one {x : Half} (h : x.toNat + 1 < 65536) : (x + 1).toNat = x.toNat + 1 := by
  rw [BitVec.toNat_add]
  exact Nat.mod_eq_of_lt h

/-- The next `k` payload bytes are written, or the transmission stops at one that is not. -/
theorem sendPayload_cases (k : Nat) (s : State) (hroom : s.pos.toNat + k < 65536) :
    (∃ bytes : List Byte, bytes.length = k ∧
      ∀ i (h : i < bytes.length), s.mem.read (Buf.tx.addr (s.pos.toNat + i)) = some bytes[i]) ∨
    ∃ off, off < s.pos.toNat + k ∧ s.mem.read (Buf.tx.addr off) = none ∧
      sendPayload k s = .stop (.unwrittenByte .tx off) := by
  induction k generalizing s with
  | zero => exact .inl ⟨[], rfl, nofun⟩
  | succ k ih =>
    have hp := toNat_add_one (x := s.pos) (by omega)
    rw [sendPayload]
    cases hb : s.bufAtPos .tx with
    | none => exact .inr ⟨s.pos.toNat, by omega, hb, rfl⟩
    | some v =>
      rcases ih { s.sendCovered v with pos := s.pos + 1 } (by simp only [hp]; omega) with
        ⟨rest, hlen, hrest⟩ | ⟨off, hoff, hnone, hstop⟩
      · refine .inl ⟨v :: rest, by rw [List.length_cons, hlen], fun i hi => ?_⟩
        cases i with
        | zero => exact hb
        | succ i =>
          have := hrest i (by simpa using hi)
          simp only [hp, State.sendCovered_mem] at this
          rw [List.getElem_cons_succ, ← this]
          congr 2
          omega
      · exact .inr ⟨off, by simp only [hp] at hoff; omega, hnone, hstop⟩

theorem txBody_eq_sent {s : State} {payload : List Byte} (hlen : payload.length = s.txlen.toNat)
    (hold : s.holds .tx payload) : txBody s = .go (s.sent payload) :=
  txBody_go s payload hlen hold

theorem State.txHeader_frame (s : State) : s.txBegin.sendHeader.pos = 0 ∧ s.txBegin.sendHeader.mem = s.mem := by
  rw [State.sendHeader_eq]
  exact ⟨rfl, rfl⟩

/-- TXBUF holds the payload of a request, or the request stops at a byte of it that is not written (R69). -/
theorem txBody_cases (s : State) :
    (∃ payload : List Byte, payload.length = s.txlen.toNat ∧ s.holds .tx payload) ∨
    ∃ off, off < s.txlen.toNat ∧ s.mem.read (Buf.tx.addr off) = none ∧
      txBody s = .stop (.unwrittenByte .tx off) := by
  obtain ⟨hpos, hmem⟩ := s.txHeader_frame
  have hlt := s.txlen.isLt
  have h0 : s.txBegin.sendHeader.pos.toNat = 0 := by rw [hpos]; rfl
  rcases sendPayload_cases s.txlen.toNat s.txBegin.sendHeader (by omega) with
    ⟨payload, hlen, hold⟩ | ⟨off, hoff, hnone, hstop⟩
  · refine .inl ⟨payload, hlen, fun i hi => ?_⟩
    have := hold i hi
    rwa [h0, hmem, Nat.zero_add] at this
  · refine .inr ⟨off, by omega, hmem ▸ hnone, ?_⟩
    rw [txBody, hstop, Flow.stop_andThen]

/-- A request stops at the first byte of its payload that is not written (R69). -/
theorem txBody_stop {s : State} {written : List Byte} (hlen : written.length < s.txlen.toNat)
    (hold : s.holds .tx written) (hnone : s.mem.read (Buf.tx.addr written.length) = none) :
    txBody s = .stop (.unwrittenByte .tx written.length) := by
  obtain ⟨hpos, hmem⟩ := s.txHeader_frame
  have hlt := s.txlen.isLt
  have h0 : s.txBegin.sendHeader.pos.toNat = 0 := by rw [hpos]; rfl
  have hstop := sendPayload_stop written s.txlen.toNat s.txBegin.sendHeader hlen (by omega)
    (by intro i hi; rw [h0, hmem, Nat.zero_add]; exact hold i hi) (by rwa [h0, hmem, Nat.zero_add])
  rw [h0, Nat.zero_add] at hstop
  rw [txBody, hstop, Flow.stop_andThen]

/-! ### One compare of a frame (R197, R69) -/

/-- The masks of the byte positions of an expected frame (R197). -/
def State.frameMasks (s : State) (payload ign : List Byte) : List Mask :=
  hitMasks s.active (s.samplesAhead 8 (s.rxFrame payload).bytes.length) (s.rxFrame payload).bytes
    ((s.rxFrame payload).ignores ign)

/-- What one compare of an expected frame leaves (R197). -/
def State.compared (s : State) (payload ign : List Byte) : State :=
  { s.afterSamples 8 (s.rxFrame payload).bytes.length with
    csum := byteSum (s.rxFrame payload).covered
    lenr := s.rxLenField
    pos := s.rxlen
    fmask := orMasks (s.frameMasks payload ign)
    firstv := orMasks (s.frameMasks payload ign) != 0
    first := firstHit (s.frameMasks payload ign)
    resMask := orMasks (s.frameMasks payload ign)
    resValue := (s.rxFrame payload).checksum
    allf := allFailed (orMasks (s.frameMasks payload ign)) s.active }

theorem Frame.ignores_length {f : Frame} {masks : List Byte} (h : masks.length = f.payload.length) :
    (f.ignores masks).length = f.bytes.length := by
  rw [f.bytes_eq, Frame.ignores]
  simp only [List.length_append, List.length_cons, List.length_replicate, List.length_nil, h]
  omega

theorem rxcmpAttempt_eq_compared {s : State} {payload ign : List Byte} (hp : payload.length = s.rxlen.toNat)
    (hi : ign.length = s.rxlen.toNat) (hrx : s.holds .rx payload) (hign : s.holds .ign ign) :
    rxcmpAttempt s = .go (s.compared payload ign) := by
  have hlen : ((s.rxFrame payload).ignores ign).length = (s.rxFrame payload).bytes.length :=
    Frame.ignores_length (hi.trans hp.symm)
  have hfst := List.map_fst_zip hlen.ge
  have hsnd := List.map_snd_zip hlen.le
  have hzip : ((s.rxFrame payload).bytes.zip ((s.rxFrame payload).ignores ign)).length =
      (s.rxFrame payload).bytes.length := by
    rw [List.length_zip, hlen, Nat.min_self]
  have hmasks : s.rxcmpBegin.masksAhead ((s.rxFrame payload).bytes.zip ((s.rxFrame payload).ignores ign)) =
      s.frameMasks payload ign := by
    rw [State.masksAhead, hfst, hsnd, hzip]
    rfl
  rw [rxcmpAttempt_go s payload ign hp hi hrx hign, hitsFrom_eq, hmasks, hzip]
  simp [State.compared, State.writeResult, State.afterSamples, firstHit,
    State.samplesAhead_congr (s := s.rxcmpBegin) (t := s) rfl rfl]

/-- The next `k` expected bytes and their ignore masks are written, or the compare stops at one that is not. -/
theorem hitPayload_cases (k : Nat) (s : State) (hroom : s.pos.toNat + k < 65536) :
    (∃ es gs : List Byte, es.length = k ∧ gs.length = k ∧
      (∀ i (h : i < es.length), s.mem.read (Buf.rx.addr (s.pos.toNat + i)) = some es[i]) ∧
      ∀ i (h : i < gs.length), s.mem.read (Buf.ign.addr (s.pos.toNat + i)) = some gs[i]) ∨
    ∃ b off, (b = .rx ∨ b = .ign) ∧ off < s.pos.toNat + k ∧ s.mem.read (Buf.addr b off) = none ∧
      hitPayload k s = .stop (.unwrittenByte b off) := by
  induction k generalizing s with
  | zero => exact .inl ⟨[], [], rfl, rfl, nofun, nofun⟩
  | succ k ih =>
    have hp := toNat_add_one (x := s.pos) (by omega)
    rw [hitPayload]
    cases hb : s.bufAtPos .rx with
    | none => exact .inr ⟨.rx, s.pos.toNat, .inl rfl, by omega, hb, rfl⟩
    | some e =>
      cases hg : s.bufAtPos .ign with
      | none => exact .inr ⟨.ign, s.pos.toNat, .inr rfl, by omega, hg, rfl⟩
      | some g =>
        have hshift : ∀ (b : Buf) (v : Byte) (rest : List Byte), s.bufAtPos b = some v →
            (∀ i (h : i < rest.length), s.mem.read (b.addr ((s.pos + 1).toNat + i)) = some rest[i]) →
            ∀ i (h : i < (v :: rest).length), s.mem.read (b.addr (s.pos.toNat + i)) = some (v :: rest)[i] := by
          intro b v rest hv hrest i hi
          cases i with
          | zero => exact hv
          | succ i =>
            rw [List.getElem_cons_succ, ← hrest i (by simpa using hi), hp]
            congr 2
            omega
        rcases ih { s.hitCovered e g s.rxPayloadIndex with pos := s.pos + 1 } (by simp only [hp]; omega) with
          ⟨es, gs, hes, hgs, hrx, hign⟩ | ⟨b, off, hbuf, hoff, hnone, hstop⟩
        · exact .inl ⟨e :: es, g :: gs, by rw [List.length_cons, hes], by rw [List.length_cons, hgs],
            hshift .rx e es hb hrx, hshift .ign g gs hg hign⟩
        · exact .inr ⟨b, off, hbuf, by simp only [hp] at hoff; omega, hnone, hstop⟩

theorem State.hitHeader_frame (s : State) : s.rxcmpBegin.hitHeader.pos = 0 ∧ s.rxcmpBegin.hitHeader.mem = s.mem := by
  rw [State.hitHeader_eq, hitsFrom_eq]
  exact ⟨rfl, rfl⟩

/-- The buffers hold the expected payload and the ignore masks, or the compare stops at a byte of them that is not
written (R69). -/
theorem rxcmpAttempt_cases (s : State) :
    (∃ payload ign : List Byte, payload.length = s.rxlen.toNat ∧ ign.length = s.rxlen.toNat ∧ s.holds .rx payload ∧
      s.holds .ign ign) ∨
    ∃ b off, (b = .rx ∨ b = .ign) ∧ off < s.rxlen.toNat ∧ s.mem.read (Buf.addr b off) = none ∧
      rxcmpAttempt s = .stop (.unwrittenByte b off) := by
  obtain ⟨hpos, hmem⟩ := s.hitHeader_frame
  have hlt := s.rxlen.isLt
  have h0 : s.rxcmpBegin.hitHeader.pos.toNat = 0 := by rw [hpos]; rfl
  rcases hitPayload_cases s.rxlen.toNat s.rxcmpBegin.hitHeader (by omega) with
    ⟨es, gs, hes, hgs, hrx, hign⟩ | ⟨b, off, hbuf, hoff, hnone, hstop⟩
  · simp only [h0, hmem, Nat.zero_add] at hrx hign
    exact .inl ⟨es, gs, hes, hgs, hrx, hign⟩
  · refine .inr ⟨b, off, hbuf, by omega, hmem ▸ hnone, ?_⟩
    rw [rxcmpAttempt, hstop, Flow.stop_andThen]

end Sys2Proof.Machine
end

section
/-! SUPPORT. The comparator commands as wholes (spec/41_compare.md rules R152, R153; spec/44_retry.md rule R230): the
attempts of CMP, the polls of WAITLVL, one attempt and several. -/

namespace Sys2Proof.Machine

/-- ALLF at an attempt end as a proposition (R30). -/
theorem allFailed_eq (m act : Mask) : allFailed m act = decide (m ≠ 0 ∧ m = act) := by
  rw [allFailed, Bool.decide_and, decide_not]
  rfl

/-! ### The attempts of CMP (R152, R230) -/

/-- The mask of the `j`-th `Sample(n)` from here on (R152). -/
def State.cmpMaskAt (s : State) (n : Nat) (a b : Byte) (j : Nat) : Mask :=
  s.active &&& diverge (s.sampleAt n j) a b n

/-- What `k` attempts of CMP leave. -/
def State.cmpTried (s : State) (n : Nat) (a b : Byte) (k : Nat) : State :=
  (s.afterSamples n k).writeResult (s.cmpMaskAt n a b (k - 1)) 0x00

theorem cmpAttempt_eq (n : Nat) (a b : Byte) (s : State) : cmpAttempt n a b s = .go (s.cmpTried n a b 1) := by
  rw [cmpAttempt, State.cmpTried, State.afterSamples_one, State.cmpMask, State.sampleValue_eq]
  rfl

theorem State.cmpMaskAt_cmpTried (s : State) (n : Nat) (a b : Byte) (x : Word) (i : Nat) :
    (({ s with rrem := x } : State).cmpTried n a b 1).cmpMaskAt n a b i = s.cmpMaskAt n a b (i + 1) := by
  rw [State.cmpMaskAt, State.cmpMaskAt, ← State.afterSample_sampleAt s n n i, ← State.afterSamples_one]
  rfl

/-- After one attempt the samples run on, and the later mask is the one that stands. -/
theorem State.cmpTried_cmpTried (s : State) (n : Nat) (a b : Byte) {k : Nat} (hk : 1 ≤ k) (x : Word) :
    (({ s with rrem := x } : State).cmpTried n a b 1).cmpTried n a b k =
      { s.cmpTried n a b (k + 1) with rrem := x } := by
  have hrun : s.afterSamples n (k + 1) = (s.afterSamples n 1).afterSamples n k := by
    rw [Nat.add_comm, State.afterSamples_add]
  rw [State.cmpTried, State.cmpMaskAt_cmpTried, show k - 1 + 1 = k + 1 - 1 by omega, State.cmpTried, State.cmpTried,
    hrun]
  rfl

/-- What the retry loop of CMP comes to, RREM holding how many attempts are left. -/
theorem retryLoop_cmpAttempt (n : Nat) (a b : Byte) (k : Nat) (s : State) (hs : s.rrem.toNat = k) (hk : 1 ≤ k) :
    ∃ j, 1 ≤ j ∧ j ≤ k ∧ (∀ i, i + 1 < j → s.cmpMaskAt n a b i ≠ 0) ∧ (s.cmpMaskAt n a b (j - 1) = 0 ∨ j = k) ∧
      retryLoop (cmpAttempt n a b) k s =
        .go { s.cmpTried n a b j with rrem := s.rrem - BitVec.ofNat 32 j } := by
  induction k generalizing s with
  | zero => omega
  | succ k ih =>
    have ht : (s.rrem - 1).toNat = k := by
      rw [BitVec.toNat_sub_of_le (by simp [BitVec.le_def]; omega), hs]; rfl
    rw [retryLoop, cmpAttempt_eq, Flow.go_andThen]
    split
    · next h =>
      refine ⟨1, le_refl _, by omega, fun i hi => by omega, ?_, rfl⟩
      rcases h with h | h
      · exact .inl h
      · have h0 : s.rrem - 1 = 0 := h
        rw [h0] at ht
        exact .inr (by simp at ht; omega)
    · next h =>
      push Not at h
      have hk0 : k ≠ 0 := by
        rintro rfl
        exact h.2 (BitVec.eq_of_toNat_eq ht)
      obtain ⟨j, hj1, hjk, hne, hend, heq⟩ := ih (({ s with rrem := s.rrem - 1 } : State).cmpTried n a b 1) ht (by omega)
      refine ⟨j + 1, by omega, by omega, ?_, ?_, ?_⟩
      · intro i hi
        cases i with
        | zero => exact h.1
        | succ i => rw [← s.cmpMaskAt_cmpTried n a b (s.rrem - 1)]; exact hne i (by omega)
      · rw [s.cmpMaskAt_cmpTried, show j - 1 + 1 = j by omega] at hend
        exact hend.imp_right (by omega)
      · have hx : s.rrem - 1 - BitVec.ofNat 32 j = s.rrem - BitVec.ofNat 32 (j + 1) := by
          rw [BitVec.sub_sub, Nat.add_comm j, BitVec.ofNat_add]; rfl
        rw [heq, s.cmpTried_cmpTried n a b hj1, ← hx]
        rfl

/-- What the attempts of a CMP come to: one with R = 0, at most BUDGET with R = 1. -/
theorem runAttempts_cmpAttempt (r : Bool) (n : Nat) (a b : Byte) (s : State) (hr : s.attemptBound r ≠ 0) :
    ∃ k, 1 ≤ k ∧ k ≤ s.attemptBound r ∧ (∀ i, i + 1 < k → s.cmpMaskAt n a b i ≠ 0) ∧
      (s.cmpMaskAt n a b (k - 1) = 0 ∨ k = s.attemptBound r) ∧
      runAttempts r (cmpAttempt n a b) s =
        .go { s.cmpTried n a b k with rrem := if r then s.budget - BitVec.ofNat 32 k else s.rrem } := by
  cases r with
  | false =>
    refine ⟨1, le_refl 1, le_refl 1, fun i hi => by omega, .inr rfl, ?_⟩
    exact cmpAttempt_eq n a b s
  | true => exact retryLoop_cmpAttempt n a b s.budget.toNat { s with rrem := s.budget } rfl (by
      have : s.budget.toNat ≠ 0 := hr
      omega)

/-! ### WAITLVL (R153, R234) -/

/-- What `k` polls of WAITLVL leave. -/
def State.polled (s : State) (l : Bool) (k : Nat) : State :=
  ({ s.afterLevels k with trem := s.timeout - BitVec.ofNat 32 k } : State).writeResult (s.pollMaskAt l (k - 1)) 0x00

theorem toNat_ne_zero {x : Word} (h : x ≠ 0) : x.toNat ≠ 0 :=
  fun h0 => h (BitVec.eq_of_toNat_eq h0)

/-- What one attempt of WAITLVL comes to. -/
theorem waitlvlAttempt_cases (l : Bool) (s : State) (ht : s.timeout ≠ 0) :
    ∃ k, 1 ≤ k ∧ k ≤ s.timeout.toNat ∧ (∀ i, i + 1 < k → s.pollMaskAt l i ≠ 0) ∧
      (s.pollMaskAt l (k - 1) = 0 ∨ k = s.timeout.toNat) ∧ waitlvlAttempt l s = .go (s.polled l k) := by
  have h0 := toNat_ne_zero ht
  obtain ⟨k, h1, hk, hne, hend, heq⟩ := pollLoop_eq l s.timeout.toNat { s with trem := s.timeout } rfl (by omega)
  exact ⟨k, h1, hk, hne, hend, by rw [waitlvlAttempt, heq]; rfl⟩

/-- The state without what the polls of WAITLVL write (R153, R230). -/
def State.sansPolls (s : State) : State :=
  { s with levels := [], draws := 0, trace := [], trem := 0, rrem := 0, resMask := 0, resValue := 0, allf := false }

/-- `n` attempts of a WAITLVL started in `s` have made these polls: each at most TIMEOUT of them, the last of all with the
mask that stands. -/
structure Polled (s : State) (l : Bool) (n : Nat) (polls : List Mask) (t : State) : Prop where
  sans : t.sansPolls = s.sansPolls
  trace : t.trace = s.trace ++ polls.map .level
  length : polls.length ≤ n * s.timeout.toNat
  last : n ≠ 0 → ∃ lv, polls.getLast? = some lv ∧ t.resMask = s.active &&& (lv ^^^ rep4 l)
  trem : n ≠ 0 → t.trem.toNat < s.timeout.toNat

theorem Polled.start (s : State) (l : Bool) : Polled s l 0 [] s :=
  ⟨rfl, by simp, Nat.zero_le _, fun h => absurd rfl h, fun h => absurd rfl h⟩

/-- One attempt more. -/
theorem Polled.attempt {s t : State} {l : Bool} {n : Nat} {polls : List Mask} (h : Polled s l n polls t)
    (ht : s.timeout ≠ 0) : ∃ polls' u, waitlvlAttempt l t = .go u ∧ Polled s l (n + 1) polls' u := by
  have htime : t.timeout = s.timeout := (congrArg State.timeout h.sans :)
  have hact : t.active = s.active := (congrArg State.active h.sans :)
  obtain ⟨k, h1, hk, -, -, hgo⟩ := waitlvlAttempt_cases l t (htime ▸ ht)
  have hlt := s.timeout.isLt
  have hktoNat : (BitVec.ofNat 32 k).toNat = k := Nat.mod_eq_of_lt (by omega)
  refine ⟨polls ++ (List.range k).map t.levelAt, _, hgo, h.sans, ?trace, ?length, fun _ => ?last, fun _ => ?trem⟩
  case trace =>
    show t.trace ++ _ = _
    simp [h.trace, Function.comp_def]
  case length =>
    have := h.length
    rw [htime] at hk
    rw [List.length_append, List.length_map, List.length_range, Nat.succ_mul]
    omega
  case last =>
    refine ⟨t.levelAt (k - 1), ?_, by rw [← hact]; rfl⟩
    obtain ⟨k, rfl⟩ : ∃ j, k = j + 1 := ⟨k - 1, by omega⟩
    simp [List.range_succ]
  case trem =>
    show (t.timeout - BitVec.ofNat 32 k).toNat < _
    rw [htime] at hk ⊢
    rw [BitVec.toNat_sub_of_le (by rw [BitVec.le_def]; omega)]
    omega

/-- The attempts of a WAITLVL always come to an end, whatever the transport answers (R234). -/
theorem runAttempts_waitlvlAttempt (r l : Bool) (s : State) (ht : s.timeout ≠ 0) (hr : s.attemptBound r ≠ 0) :
    ∃ n polls t, n ≠ 0 ∧ n ≤ s.attemptBound r ∧ Polled s l n polls t ∧
      runAttempts r (waitlvlAttempt l) s = .go t := by
  have hsat := runAttempts_sat (attempt := waitlvlAttempt l) (I := fun n t => ∃ polls, Polled s l n polls t)
    (F := fun _ => False) (r := r) (s := s)
    (fun n t w ⟨polls, h⟩ => ⟨polls, h.sans, h.trace, h.length, h.last, h.trem⟩)
    (fun n t ⟨polls, h⟩ => by
      obtain ⟨polls', u, hgo, hu⟩ := h.attempt ht
      rw [hgo]
      exact ⟨polls', hu⟩)
    ⟨[], Polled.start s l⟩
  cases hx : runAttempts r (waitlvlAttempt l) s with
  | go t =>
    rw [hx] at hsat
    obtain ⟨n, hn, hn0, polls, h⟩ := hsat
    exact ⟨n, polls, t, hn0 hr, hn, h, rfl⟩
  | raised t => rw [hx] at hsat; exact hsat.elim
  | stop f => rw [hx] at hsat; exact hsat.elim

/-! ### The comparator's parameter tests, passed (R154, R231) -/

theorem State.someActive_of_ne_zero {s : State} (h : s.active ≠ 0) : s.someActive = true :=
  bne_iff_ne.2 h

theorem State.budgetOk_of {s : State} {r : Bool} (h : r = true → s.budget ≠ 0) : s.budgetOk r = true :=
  Bool.eq_true_of_not_eq_false fun hf => h (State.budgetOk_eq_false.1 hf).1 (State.budgetOk_eq_false.1 hf).2

theorem State.waitlvl_legal {s : State} {r : Bool} (l : Bool) (hact : s.active ≠ 0) (ht : s.timeout ≠ 0)
    (hr : r = true → s.budget ≠ 0) : s.legal (.waitlvl r l) = true := by
  rw [State.legal, State.waitlvlLegal, State.someActive_of_ne_zero hact, bne_iff_ne.2 ht, State.budgetOk_of hr]
  rfl

/-- An accepted WAITLVL latches its word, polls, and ends. -/
theorem exec_waitlvl_of_legal {s : State} {r l : Bool} (hs : s.ready) (hl : s.legal (.waitlvl r l) = true) :
    exec (.waitlvl r l) s =
      ((runAttempts r (waitlvlAttempt l) (s.beginCommand (encode (.waitlvl r l)))).andThen fun u =>
        .go (u.finish .timeoutError 0)).outcome :=
  exec_of_legal hs hl rfl

end Sys2Proof.Machine
end

section
/-! The statements about whole comparator commands (spec/41_compare.md, spec/44_retry.md). -/

namespace Sys2Proof.Machine

/-- Settles O21: the attempts make the samples, and the command's end turns the last mask into the error. -/
theorem cmpComparesUntilMatchOrBudget : Obligations.CmpComparesUntilMatchOrBudget := by
  intro s r n a b hs hact h1 h8 hr
  have hbudget := State.budgetOk_of hr
  have hl : s.cmpLegal r n = true := by
    rw [State.cmpLegal, State.someActive_of_ne_zero hact, bitCountOk_of_bounds h1 h8, hbudget]
    rfl
  obtain ⟨k, hk1, hk, hne, hend, hrun⟩ :=
    runAttempts_cmpAttempt r n.toNat a b (s.beginCommand (encode (.cmp r n a b))) (State.attemptBound_ne_zero hbudget)
  refine ⟨k, hk1, hk, fun j hj => hne j hj, hend, ?_⟩
  rw [exec_cmp_of_legal a b hs hl, cmpBody, hrun, Flow.go_andThen, Flow.go_outcome, State.finish_of_clear]
  · simp only [State.cmpTried, State.writeResult, allFailed_eq]
    rfl
  · exact hs.2

/-- Settles O23: one attempt's polls, the last mask of which the command's end turns into the error. -/
theorem waitlvlPollsUntilLevelOrTimeout : Obligations.WaitlvlPollsUntilLevelOrTimeout := by
  intro s l hs hact ht
  have hl := State.waitlvl_legal (r := false) l hact ht nofun
  obtain ⟨k, hk1, hk, hne, hend, hgo⟩ :=
    waitlvlAttempt_cases l (s.beginCommand (encode (.waitlvl false l))) ht
  refine ⟨k, hk1, hk, fun j hj => hne j hj, hend, ?_⟩
  rw [exec_waitlvl_of_legal hs hl, runAttempts, if_neg Bool.false_ne_true, hgo, Flow.go_andThen, Flow.go_outcome,
    State.finish_of_clear]
  · simp only [State.polled, State.writeResult, allFailed_eq]
    rfl
  · exact hs.2

/-- Settles O26: attempts of at most TIMEOUT polls each, and no attempt of a WAITLVL can stop the machine. -/
theorem waitlvlBudgetsNest : Obligations.WaitlvlBudgetsNest := by
  intro s r l hs hact ht hr
  have hbudget := State.budgetOk_of hr
  have hl := State.waitlvl_legal l hact ht hr
  obtain ⟨n, polls, t, hn0, hn, h, hrun⟩ :=
    runAttempts_waitlvlAttempt r l (s.beginCommand (encode (.waitlvl r l))) ht (State.attemptBound_ne_zero hbudget)
  obtain ⟨lv, hlast, hmask⟩ := h.last hn0
  have herr : t.err = 0 := (congrArg State.err h.sans :).trans hs.2
  have hmem : t.mem = s.mem := (congrArg State.mem h.sans :)
  refine ⟨t.finish .timeoutError 0, polls, ?exec, ?busy, ?fsm, ?trace, ?length, ?trem, ?nonempty, ?last, ?err, ?mem⟩
  case exec =>
    rw [exec_waitlvl_of_legal hs hl, hrun, Flow.go_andThen, Flow.go_outcome]
  case nonempty => rw [hlast]; exact nofun
  case length => exact h.length.trans (Nat.mul_le_mul_right _ hn)
  all_goals rw [State.finish_of_clear _ _ _ herr]
  case trace => exact h.trace
  case trem => exact h.trem hn0
  case last =>
    intro lv' hlv'
    obtain rfl := Option.some.inj (hlast.symm.trans hlv')
    exact hmask
  case mem => exact hmem
  case err => rfl

end Sys2Proof.Machine
end

section
/-! SUPPORT. The frame commands that compare (spec/43_frame_rx.md rules R197, R202): one attempt of RXCMP and of XCMP,
several attempts, and the command's end. -/

namespace Sys2Proof.Machine

/-! ### Sizes (R341) -/

theorem State.rxFrame_ack_length (s : State) (payload : List Byte) :
    (s.rxFrame payload).ack.toList.length = s.rxctl.ackEn.toNat := by
  rw [State.rxFrame]
  cases s.rxctl.ackEn <;> rfl

theorem State.txFrame_bytes_length_eq {s : State} {payload : List Byte} (hlen : payload.length = s.txlen.toNat) :
    (s.txFrame payload).bytes.length = s.txEvents := by
  have hp : (s.txFrame payload).payload.length = s.txlen.toNat := hlen
  simp only [Frame.bytes_eq, List.length_append, List.length_cons, List.length_nil, s.txFrame_ack_length, hp,
    State.txEvents]
  omega

theorem State.rxFrame_bytes_length_eq {s : State} {payload : List Byte} (hlen : payload.length = s.rxlen.toNat) :
    (s.rxFrame payload).bytes.length = s.rxEvents := by
  have hp : (s.rxFrame payload).payload.length = s.rxlen.toNat := hlen
  simp only [Frame.bytes_eq, List.length_append, List.length_cons, List.length_nil, s.rxFrame_ack_length, hp,
    State.rxEvents]
  omega

/-! ### Missing bytes (R69) -/

/-- The buffer bytes that a command reads (R170, R197, R201, R202). -/
def reads : Instr → State → Buf → Nat → Prop
  | .txframe, s, b, off => b = .tx ∧ off < s.txlen.toNat
  | .xcap, s, b, off => b = .tx ∧ off < s.txlen.toNat
  | .rxcmp _, s, b, off => (b = .rx ∨ b = .ign) ∧ off < s.rxlen.toNat
  | .xcmp _, s, b, off => (b = .tx ∧ off < s.txlen.toNat) ∨ ((b = .rx ∨ b = .ign) ∧ off < s.rxlen.toNat)
  | _, _, _, _ => False

/-- The fault of a byte that the command reads and that nothing has written. -/
def MissingByte (i : Instr) (s : State) (f : Fault) : Prop :=
  ∃ b off, f = .unwrittenByte b off ∧ reads i s b off ∧ s.mem.read (Buf.addr b off) = none

/-! ### One attempt (R197, R202) -/

/-- The state without what an attempt of RXCMP or XCMP writes, RREM included (R197, R202, R230). -/
def State.sansCompare (s : State) : State :=
  { s with
    samples := [], draws := 0, trace := [], csum := 0, lenr := 0, pos := 0, fmask := 0, first := 0, firstv := false,
    resMask := 0, resValue := 0, allf := false, rrem := 0 }

/-- The first three events of a transmitted frame: start marker, LenHi, LenLo (R91, R94, R170). -/
def State.txHead (s : State) : List Event :=
  [.send s.active (startMarker s.txctl.kind), .send s.active (hiByte s.txLenField),
    .send s.active (loByte s.txLenField)]

/-- One attempt of a compare: `size` events, the first of them `head`. -/
structure CompareAttempt (head : List Event) (size : Nat) (s t : State) : Prop where
  sans : t.sansCompare = s.sansCompare
  trace : ∃ rest, t.trace = s.trace ++ (head ++ rest) ∧ (head ++ rest).length = size
  lenr : t.lenr = s.rxLenField
  mask : t.resMask = t.fmask

theorem rxcmpAttempt_sat (r : Bool) (s : State) :
    (rxcmpAttempt s).Sat (CompareAttempt [] s.rxEvents s) (fun _ => False) (MissingByte (.rxcmp r) s) := by
  rcases rxcmpAttempt_cases s with ⟨payload, ign, hp, hi, hrx, hign⟩ | ⟨b, off, hb, hoff, hnone, hstop⟩
  · rw [rxcmpAttempt_eq_compared hp hi hrx hign]
    exact ⟨rfl, ⟨_, rfl, by simp [s.rxFrame_bytes_length_eq hp]⟩, rfl, rfl⟩
  · rw [hstop]
    exact ⟨b, off, rfl, ⟨hb, hoff⟩, hnone⟩

theorem State.sent_trace {s : State} {payload : List Byte} (hlen : payload.length = s.txlen.toNat) :
    ∃ rest, (s.sent payload).trace = s.trace ++ (s.txHead ++ rest) ∧ (s.txHead ++ rest).length = s.txEvents := by
  have hbytes := (s.txFrame payload).bytes_eq
  have hlength := s.txFrame_bytes_length_eq hlen
  rw [hbytes, s.txFrame_len payload hlen] at hlength
  refine ⟨_, ?_, (List.length_map (.send s.active)).trans hlength⟩
  rw [State.sent, hbytes, s.txFrame_len payload hlen, List.map_append]
  rfl

theorem xcmpAttempt_sat (r : Bool) (s : State) :
    (xcmpAttempt s).Sat (CompareAttempt s.txHead (s.txEvents + s.rxEvents) s) (fun _ => False)
      (MissingByte (.xcmp r) s) := by
  rcases txBody_cases s with ⟨req, hreq, hold⟩ | ⟨off, hoff, hnone, hstop⟩
  · obtain ⟨rest, htrace, hlen⟩ := s.sent_trace hreq
    rw [xcmpAttempt, txBody_eq_sent hreq hold, Flow.go_andThen]
    refine (rxcmpAttempt_sat r (s.sent req)).imp ?_ (fun _ h => h) ?_
    · intro t ht
      obtain ⟨es, hes, heslen⟩ := ht.trace
      refine ⟨ht.sans, ⟨rest ++ es, ?_, ?_⟩, ht.lenr, ht.mask⟩
      · rw [hes, htrace]
        simp
      · rw [← List.append_assoc, List.length_append, hlen]
        exact congrArg _ heslen
    · rintro f ⟨b, off, hf, hread, hnone⟩
      exact ⟨b, off, hf, .inr hread, hnone⟩
  · rw [xcmpAttempt, hstop, Flow.stop_andThen]
    exact ⟨.tx, off, rfl, .inl ⟨rfl, hoff⟩, hnone⟩

/-! ### Several attempts (R230) -/

/-- At most `n` attempts of a compare: at least one, where `n` is not 0. -/
structure CompareRun (head : List Event) (size n : Nat) (s t : State) : Prop where
  sans : t.sansCompare = s.sansCompare
  grew : ∃ es, t.trace = s.trace ++ es ∧ es.length ≤ n * size
  head : n ≠ 0 → ∃ rest, t.trace = s.trace ++ (head ++ rest)
  lenr : n ≠ 0 → t.lenr = s.rxLenField
  mask : n ≠ 0 → t.resMask = t.fmask

theorem CompareRun.start (head : List Event) (size : Nat) (s : State) : CompareRun head size 0 s s :=
  ⟨rfl, ⟨[], by simp, Nat.zero_le _⟩, fun h => absurd rfl h, fun h => absurd rfl h, fun h => absurd rfl h⟩

theorem CompareRun.attempt {head : List Event} {size n : Nat} {s t u : State} (h : CompareRun head size n s t)
    (hu : CompareAttempt head size t u) : CompareRun head size (n + 1) s u := by
  obtain ⟨es, hes, heslen⟩ := h.grew
  obtain ⟨rest, hrest, hrestlen⟩ := hu.trace
  refine ⟨hu.sans.trans h.sans, ⟨es ++ (head ++ rest), ?_, ?_⟩, fun _ => ?head,
    fun _ => hu.lenr.trans (congrArg State.rxLenField h.sans :), fun _ => hu.mask⟩
  · rw [hrest, hes, List.append_assoc]
  · rw [List.length_append, hrestlen, Nat.succ_mul]
    omega
  case head =>
    by_cases hn : n = 0
    · subst hn
      obtain rfl : es = [] := List.length_eq_zero_iff.1 (by omega)
      exact ⟨rest, by rw [hrest, hes, List.append_nil]⟩
    · obtain ⟨first, hfirst⟩ := h.head hn
      exact ⟨first ++ (head ++ rest), by rw [hrest, hfirst]; simp⟩

theorem CompareRun.mono {head : List Event} {size n m : Nat} {s t : State} (h : CompareRun head size n s t)
    (hnm : n ≤ m) (hm : m ≠ 0 → n ≠ 0) : CompareRun head size m s t := by
  obtain ⟨es, hes, heslen⟩ := h.grew
  exact ⟨h.sans, ⟨es, hes, heslen.trans (Nat.mul_le_mul_right _ hnm)⟩, fun h0 => h.head (hm h0),
    fun h0 => h.lenr (hm h0), fun h0 => h.mask (hm h0)⟩

theorem runAttempts_compare {attempt : State → Flow} {head : List Event} {size : Nat} {F : Fault → Prop} {s : State}
    (r : Bool)
    (hatt : ∀ t, t.sansCompare = s.sansCompare → (attempt t).Sat (CompareAttempt head size t) (fun _ => False) F) :
    (runAttempts r attempt s).Sat (CompareRun head size (s.attemptBound r) s) (fun _ => False) F := by
  refine (runAttempts_sat (I := fun n t => CompareRun head size n s t) ?_ ?_ (CompareRun.start head size s)).imp ?_
    (fun _ h => h) fun _ h => h
  · exact fun n t w h => ⟨h.sans, h.grew, h.head, h.lenr, h.mask⟩
  · exact fun n t h => (hatt t h.sans).imp (fun u hu => h.attempt hu) (fun _ h => h) fun _ h => h
  · rintro t ⟨n, hn, hn0, h⟩
    exact h.mono hn hn0

theorem runAttempts_rxcmpAttempt (r : Bool) (s : State) :
    (runAttempts r rxcmpAttempt s).Sat (CompareRun [] s.rxEvents (s.attemptBound r) s) (fun _ => False)
      (MissingByte (.rxcmp r) s) := by
  refine runAttempts_compare r fun t ht => ?_
  have hsize : t.rxEvents = s.rxEvents := (congrArg State.rxEvents ht :)
  have hmiss : MissingByte (.rxcmp r) t = MissingByte (.rxcmp r) s := (congrArg (MissingByte (.rxcmp r)) ht :)
  rw [← hsize, ← hmiss]
  exact rxcmpAttempt_sat r t

theorem runAttempts_xcmpAttempt (r : Bool) (s : State) :
    (runAttempts r xcmpAttempt s).Sat (CompareRun s.txHead (s.txEvents + s.rxEvents) (s.attemptBound r) s)
      (fun _ => False) (MissingByte (.xcmp r) s) := by
  refine runAttempts_compare r fun t ht => ?_
  have htx : t.txEvents = s.txEvents := (congrArg State.txEvents ht :)
  have hrx : t.rxEvents = s.rxEvents := (congrArg State.rxEvents ht :)
  have hhead : t.txHead = s.txHead := (congrArg State.txHead ht :)
  have hmiss : MissingByte (.xcmp r) t = MissingByte (.xcmp r) s := (congrArg (MissingByte (.xcmp r)) ht :)
  rw [← htx, ← hrx, ← hhead, ← hmiss]
  exact xcmpAttempt_sat r t

/-! ### Whole commands -/

theorem exec_txframe_of_legal {s : State} (hs : s.ready) (hl : s.txframeLegal = true) :
    exec .txframe s =
      ((txBody (s.beginCommand (encode .txframe))).andThen fun u =>
        .go (u.writeResult 0 (0 - u.csum)).endCommand).outcome :=
  exec_of_legal hs hl rfl

theorem exec_rxcmp_of_legal {s : State} {r : Bool} (hs : s.ready) (hl : s.rxcmpLegal r = true) :
    exec (.rxcmp r) s =
      ((runAttempts r rxcmpAttempt (s.beginCommand (encode (.rxcmp r)))).andThen fun u =>
        .go (u.finish .compareMismatch u.first)).outcome :=
  exec_of_legal hs hl rfl

theorem exec_xcmp_of_legal {s : State} {r : Bool} (hs : s.ready) (hl : s.xcmpLegal r = true) :
    exec (.xcmp r) s =
      ((runAttempts r xcmpAttempt (s.beginCommand (encode (.xcmp r)))).andThen fun u =>
        .go (u.finish .compareMismatch u.first)).outcome :=
  exec_of_legal hs hl rfl

theorem State.attemptBound_of_rxcmpLegal {s : State} {r : Bool} (hl : s.rxcmpLegal r = true) :
    s.attemptBound r ≠ 0 :=
  State.attemptBound_ne_zero (Bool.and_eq_true_iff.1 hl).2

theorem State.attemptBound_of_xcmpLegal {s : State} {r : Bool} (hl : s.xcmpLegal r = true) :
    s.attemptBound r ≠ 0 :=
  State.attemptBound_ne_zero (Bool.and_eq_true_iff.1 hl).2

/-- What a compare that was not stopped leaves: idle, the last mask in MASK and FMASK, and CompareMismatch exactly where
it is not 0. -/
theorem CompareRun.finish {head : List Event} {size n : Nat} {s u : State} (h : CompareRun head size n s u) (hn : n ≠ 0)
    (he : s.err = 0) (p : Half) :
    (u.finish .compareMismatch p).busy = false ∧ (u.finish .compareMismatch p).fsm = .idle ∧
      (u.finish .compareMismatch p).resMask = (u.finish .compareMismatch p).fmask ∧
      (u.finish .compareMismatch p).err = (if (u.finish .compareMismatch p).resMask = 0 then 0 else 4) ∧
      (u.finish .compareMismatch p).mem = s.mem := by
  have herr : u.err = 0 := (congrArg State.err h.sans :).trans he
  have hmem : u.mem = s.mem := (congrArg State.mem h.sans :)
  rw [State.finish_of_clear _ _ _ herr]
  exact ⟨rfl, rfl, h.mask hn, rfl, hmem⟩

theorem State.holds.read_ne_none {s : State} {b : Buf} {bytes : List Byte} (h : s.holds b bytes) {off : Nat}
    (hoff : off < bytes.length) : s.mem.read (b.addr off) ≠ none := by
  rw [h off hoff]
  exact nofun

theorem not_missingByte_rxcmp {s : State} {exp ign : List Byte} (hexp : exp.length = s.rxlen.toNat)
    (hrx : s.holds .rx exp) (hignlen : ign.length = s.rxlen.toNat) (hign : s.holds .ign ign) (r : Bool) (f : Fault) :
    ¬ MissingByte (.rxcmp r) s f := by
  rintro ⟨b, off, -, ⟨rfl | rfl, hoff⟩, hnone⟩
  · exact hrx.read_ne_none (hexp ▸ hoff) hnone
  · exact hign.read_ne_none (hignlen ▸ hoff) hnone

theorem not_missingByte_xcmp {s : State} {req exp ign : List Byte} (hreq : req.length = s.txlen.toNat)
    (htx : s.holds .tx req) (hexp : exp.length = s.rxlen.toNat) (hrx : s.holds .rx exp)
    (hignlen : ign.length = s.rxlen.toNat) (hign : s.holds .ign ign) (r : Bool) (f : Fault) :
    ¬ MissingByte (.xcmp r) s f := by
  rintro ⟨b, off, hf, ⟨rfl, hoff⟩ | hread, hnone⟩
  · exact htx.read_ne_none (hreq ▸ hoff) hnone
  · exact not_missingByte_rxcmp hexp hrx hignlen hign r f ⟨b, off, hf, hread, hnone⟩

/-- A flow that does not stop and is not ended by a `raise` goes on. -/
theorem Flow.Sat.go {P : State → Prop} {F : Fault → Prop} {x : Flow} (hx : x.Sat P (fun _ => False) F)
    (hF : ∀ f, ¬ F f) : ∃ t, x = .go t ∧ P t := by
  cases x with
  | go t => exact ⟨t, rfl, hx⟩
  | raised t => exact hx.elim
  | stop f => exact (hF f hx).elim

/-- The tests of an exchange are those of its halves. -/
theorem State.xcmpLegal_iff (s : State) (r : Bool) :
    s.xcmpLegal r = true ↔ s.txframeLegal = true ∧ s.rxcmpLegal r = true := by
  simp only [State.xcmpLegal, State.txframeLegal, State.rxcmpLegal, Bool.and_eq_true]
  constructor
  · rintro ⟨⟨⟨⟨hact, hrx⟩, htx⟩, hcont⟩, hbudget⟩
    exact ⟨⟨hact, htx⟩, ⟨⟨hact, hrx⟩, hcont⟩, hbudget⟩
  · rintro ⟨⟨hact, htx⟩, ⟨⟨-, hrx⟩, hcont⟩, hbudget⟩
    exact ⟨⟨⟨⟨hact, hrx⟩, htx⟩, hcont⟩, hbudget⟩

theorem State.compared_first (s : State) (payload ign : List Byte) :
    (s.compared payload ign).first = firstHit (s.frameMasks payload ign) := rfl

theorem State.frameMasks_beginCommand (s : State) (w : Word) (payload ign : List Byte) :
    (s.beginCommand w).frameMasks payload ign = s.frameMasks payload ign := rfl

/-- An accepted RXCMP with R = 0 whose expected payload and ignore masks the buffers hold. -/
theorem exec_rxcmp_of_holds {s : State} {payload ign : List Byte} (hs : s.ready) (hl : s.rxcmpLegal false = true)
    (hp : payload.length = s.rxlen.toNat) (hrx : s.holds .rx payload) (hi : ign.length = s.rxlen.toNat)
    (hign : s.holds .ign ign) :
    exec (.rxcmp false) s =
      .next (((s.beginCommand (encode (.rxcmp false))).compared payload ign).finish .compareMismatch
        (firstHit (s.frameMasks payload ign))) := by
  have hgo := rxcmpAttempt_eq_compared (s := s.beginCommand (encode (.rxcmp false))) hp hi hrx hign
  rw [exec_rxcmp_of_legal hs hl, runAttempts, if_neg Bool.false_ne_true, hgo, Flow.go_andThen, Flow.go_outcome,
    State.compared_first, State.frameMasks_beginCommand]

/-- After TXFRAME a command starts where an exchange with the word `w` has sent its request, but for OPR, FSM and the
result (R202). -/
theorem sent_of_exec_txframe {s : State} {req : List Byte} (hs : s.ready) (hl : s.txframeLegal = true)
    (hlen : req.length = s.txlen.toNat) (hold : s.holds .tx req) (w : Word) :
    ∃ t, exec .txframe s = .next t ∧ t.ready ∧
      ∀ z, t.beginCommand z = ((s.beginCommand w).sent req).withEndFields (t.beginCommand z) :=
  ⟨_, exec_txframe_of_holds hs hl hlen hold, ⟨rfl, hs.2⟩, fun _ => rfl⟩

/-- A compare reads neither OPR nor FSM nor the result of the command before it. -/
theorem State.compared_withEndFields (s z : State) (payload ign : List Byte) :
    (s.withEndFields z).compared payload ign = { s.compared payload ign with opr := z.opr, fsm := z.fsm } := by
  have hmasks : (s.withEndFields z).frameMasks payload ign = s.frameMasks payload ign := rfl
  have hframe : (s.withEndFields z).rxFrame payload = s.rxFrame payload := rfl
  simp only [State.compared, hmasks, hframe]
  rfl

/-- A command's end reads neither OPR nor FSM. -/
theorem State.finish_with (s : State) (k : ErrKind) (p : Half) (w : Word) (f : Fsm) :
    ({ s with opr := w, fsm := f } : State).finish k p = { s.finish k p with opr := w } := by
  simp only [State.finish]
  split
  · rfl
  · rfl

/-- Of the fields in which two starts of a compare may differ, the end of the command leaves OPR only. -/
theorem State.finish_compared_withEndFields (s z : State) (payload ign : List Byte) (k : ErrKind) (p : Half) :
    ((s.withEndFields z).compared payload ign).finish k p =
      { (s.compared payload ign).finish k p with opr := z.opr } :=
  (congrArg (State.finish · k p) (s.compared_withEndFields z payload ign)).trans (State.finish_with _ k p z.opr z.fsm)

theorem State.finish_opr (s : State) (k : ErrKind) (p : Half) : (s.finish k p).opr = s.opr := by
  rw [State.finish]
  split
  · rfl
  · rfl

end Sys2Proof.Machine
end

section
/-! The statements about compares of a frame (spec/43_frame_rx.md), and a TXFRAME that lacks a byte
(spec/20_memory.md). -/

namespace Sys2Proof.Machine

/-- Settles O30: the request's bytes go out until the one that is missing. -/
theorem txframeStopsAtAnUnwrittenByte : Obligations.TxframeStopsAtAnUnwrittenByte := by
  intro s written hs hl _ hlen hold hnone
  rw [exec_txframe_of_legal hs hl, txBody_stop (s := s.beginCommand (encode .txframe)) hlen hold hnone]
  rfl

/-- Settles O27: no byte that the attempts read is missing, so they end, and the command's end tests the last mask. -/
theorem compareCommandsComplete : Obligations.CompareCommandsComplete := by
  intro s exp ign r hs _ hexp hrx hignlen hign
  constructor
  · intro hl
    obtain ⟨u, hu, hrun⟩ := (runAttempts_rxcmpAttempt r (s.beginCommand (encode (.rxcmp r)))).go
      (not_missingByte_rxcmp hexp hrx hignlen hign r)
    refine ⟨_, ?_, hrun.finish (State.attemptBound_of_rxcmpLegal hl) hs.2 u.first⟩
    rw [exec_rxcmp_of_legal hs hl, hu]
    rfl
  · intro req hreq htx hl
    obtain ⟨u, hu, hrun⟩ := (runAttempts_xcmpAttempt r (s.beginCommand (encode (.xcmp r)))).go
      (not_missingByte_xcmp hreq htx hexp hrx hignlen hign r)
    refine ⟨_, ?_, hrun.finish (State.attemptBound_of_xcmpLegal hl) hs.2 u.first⟩
    rw [exec_xcmp_of_legal hs hl, hu]
    rfl

/-- Settles O35: one compare, the end of the command made out of its mask. -/
theorem rxcmpComparesTheWholeFrame : Obligations.RxcmpComparesTheWholeFrame := by
  intro s payload ign hs hl hwf hp hrx hi hign
  have hfits : s.rxLenOk = true := by
    simp only [State.rxcmpLegal, Bool.and_eq_true] at hl
    exact hl.1.1.2
  have hlen : (s.rxFrame payload).bytes.length = (s.rxFrame payload).len.toNat + 5 := by
    rw [s.rxFrame_bytes_length_eq hp, s.rxFrame_len payload hp, State.rxLenField_toNat hfits, State.rxEvents]
  refine ⟨hlen, Frame.ignores_length (hi.trans hp.symm), ?_⟩
  rw [exec_rxcmp_of_holds hs hl hp hrx hi hign, State.finish_of_clear, s.rxFrame_len payload hp]
  · have hbne (m : Mask) : (m != 0) = decide (m ≠ 0) := by rw [decide_not]; rfl
    simp only [State.compared, allFailed_eq, hbne]
    rfl
  · exact hs.2

/-- Settles O37: XCMP has sent its request where RXCMP would start after TXFRAME, but for fields that a compare does not
read, and of these the command's end leaves OPR only. -/
theorem xcmpIsTxframeThenRxcmp : Obligations.XcmpIsTxframeThenRxcmp := by
  intro s req exp ign hs hl _ hreq htx hexp hrx hignlen hign
  obtain ⟨htxl, hrxl⟩ := (s.xcmpLegal_iff false).1 hl
  obtain ⟨t, htx', ht, hsent⟩ := sent_of_exec_txframe hs htxl hreq htx (encode (.xcmp false))
  have hstart := hsent (encode (.rxcmp false))
  have hmem : t.mem = s.mem := (congrArg State.mem hstart :)
  have hrxlen : t.rxlen = s.rxlen := (congrArg State.rxlen hstart :)
  have hlegal : t.rxcmpLegal false = s.rxcmpLegal false := (congrArg (State.rxcmpLegal · false) hstart :)
  have hmasks : t.frameMasks exp ign = ((s.beginCommand (encode (.xcmp false))).sent req).frameMasks exp ign :=
    (congrArg (State.frameMasks · exp ign) hstart :)
  have hrx' : t.holds .rx exp := by rwa [State.holds, hmem]
  have hign' : t.holds .ign ign := by rwa [State.holds, hmem]
  refine ⟨t, _, htx', exec_rxcmp_of_holds ht (hlegal.trans hrxl) (by rw [hrxlen, hexp]) hrx' (by rw [hrxlen, hignlen])
    hign', ?_⟩
  have hcmp := rxcmpAttempt_eq_compared (s := (s.beginCommand (encode (.xcmp false))).sent req) hexp hignlen hrx hign
  have hatt : xcmpAttempt (s.beginCommand (encode (.xcmp false))) =
      .go (((s.beginCommand (encode (.xcmp false))).sent req).compared exp ign) := by
    rw [xcmpAttempt, txBody_eq_sent (s := s.beginCommand (encode (.xcmp false))) hreq htx, Flow.go_andThen, hcmp]
  rw [exec_xcmp_of_legal hs hl, runAttempts, if_neg Bool.false_ne_true, hatt, Flow.go_andThen, Flow.go_outcome,
    hstart, State.finish_compared_withEndFields, hmasks]
  have hopr : (((s.beginCommand (encode (.xcmp false))).sent req).compared exp ign).opr = 0x00000034 := rfl
  rw [← State.compared_first]
  generalize ((s.beginCommand (encode (.xcmp false))).sent req).compared exp ign = c at hopr ⊢
  have hend := (c.finish_opr .compareMismatch c.first).trans hopr
  generalize c.finish .compareMismatch c.first = e at hend ⊢
  rw [← hend]

end Sys2Proof.Machine
end

section
/-! SUPPORT. Captures as wholes (spec/43_frame_rx.md rules R193 to R195): a header that is not the expected one, a frame
that is captured to its end, and what a capture leaves alone whichever of these it meets. -/

namespace Sys2Proof.Machine

/-! ### Runs of bytes -/

theorem State.captureAhead_take (s : State) {j k : Nat} (h : j ≤ k) : (s.captureAhead k).take j = s.captureAhead j := by
  obtain ⟨d, rfl⟩ := Nat.exists_eq_add_of_le h
  rw [State.captureAhead_add, List.take_left' (State.captureAhead_length _ _)]

/-- Two lists of one length are the same, or there is a first place where they differ. -/
theorem eq_or_first_difference (us vs : List Byte) (h : us.length = vs.length) :
    us = vs ∨ ∃ k, k < us.length ∧ us.take k = vs.take k ∧ us[k]? ≠ vs[k]? := by
  induction us generalizing vs with
  | nil => exact .inl (List.length_eq_zero_iff.1 h.symm).symm
  | cons u us ih =>
    obtain ⟨v, vs, rfl⟩ : ∃ v t, vs = v :: t := by
      cases vs with
      | nil => cases h
      | cons v t => exact ⟨v, t, rfl⟩
    by_cases huv : u = v
    · subst huv
      rcases ih vs (by simpa using h) with rfl | ⟨k, hk, htake, hne⟩
      · exact .inl rfl
      · exact .inr ⟨k + 1, by simpa using hk, by simpa using htake, by simpa using hne⟩
    · exact .inr ⟨0, by simp, rfl, by simpa using huv⟩

/-- Another byte at one place is another sum. -/
theorem byteSum_set_ne {bs : List Byte} {j : Nat} {v : Byte} (hj : j < bs.length) (hv : v ≠ bs[j]) :
    byteSum (bs.set j v) ≠ byteSum bs := by
  induction bs generalizing j with
  | nil => cases hj
  | cons b rest ih =>
    cases j with
    | zero => simpa [byteSum] using hv
    | succ j =>
      simpa [byteSum] using ih (by simpa using hj) hv

/-! ### A wrong header (R193, R194) -/

theorem capStructural_andThen_of_ne {e : Byte} {s : State} (idx : Half) (covered : Bool) (K : State → Flow)
    (h : s.captureValue ≠ e) :
    (capStructural e idx covered s).andThen K =
      .raised ((s.afterSample 8).raiseInCapture .frameDecodeError idx s.captureValue) := by
  rw [capStructural, if_neg h, Flow.raised_andThen]

/-- What a capture leaves whose header is as expected but for byte `k`. -/
def State.badHeader (s : State) (k : Nat) : State :=
  ({ s.capBegin.afterSamples 8 (k + 1) with csum := byteSum ((s.capHeader.take k).drop 1) } : State).raiseInCapture
    .frameDecodeError (BitVec.ofNat 16 k) ((s.captureAhead (k + 1)).getD k 0)

theorem capBody_of_badHeader {s : State} {k : Nat} (hk : k < 3)
    (hbefore : (s.captureAhead (k + 1)).take k = s.capHeader.take k)
    (hne : (s.captureAhead (k + 1))[k]? ≠ s.capHeader[k]?) : capBody s = .raised (s.badHeader k) := by
  have hahead : ∀ j, s.captureAhead j = s.capBegin.captureAhead j := fun _ => rfl
  obtain rfl | rfl | rfl : k = 0 ∨ k = 1 ∨ k = 2 := by omega
  · simp only [hahead, State.captureAhead_succ, State.capHeader] at hne
    refine (capStructural_andThen_of_ne 0 false _ (by simpa using hne)).trans ?_
    simp only [State.badHeader, State.afterSamples_succ, State.afterSamples_zero, hahead, State.captureAhead_succ]
    rfl
  · simp only [hahead, State.captureAhead_succ, State.captureAhead_zero, State.capHeader, List.take_succ_cons,
      List.take_zero, List.cons.injEq, and_true, List.getElem?_cons_succ, List.getElem?_cons_zero] at hbefore hne
    refine (capStructural_andThen 0 false _ hbefore).trans ?_
    refine (capStructural_andThen_of_ne 1 true _ ?_).trans ?_
    · exact fun h => hne (congrArg some h)
    simp only [State.badHeader, State.afterSamples_succ, State.afterSamples_zero, hahead, State.captureAhead_succ]
    rfl
  · simp only [hahead, State.captureAhead_succ, State.captureAhead_zero, State.capHeader, List.take_succ_cons,
      List.take_zero, List.cons.injEq, and_true, List.getElem?_cons_succ, List.getElem?_cons_zero] at hbefore hne
    obtain ⟨h0, h1⟩ := hbefore
    refine (capStructural_andThen 0 false _ h0).trans ?_
    refine (capStructural_andThen 1 true _ ?_).trans ?_
    · exact h1
    refine (capStructural_andThen_of_ne 2 true _ ?_).trans ?_
    · exact fun h => hne (congrArg some h)
    have hsum : byteSum ((s.capHeader.take 2).drop 1) = 0x00 + hiByte s.rxLenField := by
      simp [State.capHeader, byteSum]
    simp only [State.badHeader, hsum, State.afterSamples_succ, State.afterSamples_zero, hahead,
      State.captureAhead_succ]
    rfl

/-! ### A whole frame (R193, R195) -/

/-- The command RXCAP, or what XCAP does after its request, where the header is not the expected one. -/
theorem capRun_of_badHeader {s : State} {k : Nat} (hk : k < 3)
    (hbefore : (s.captureAhead (k + 1)).take k = s.capHeader.take k)
    (hne : (s.captureAhead (k + 1))[k]? ≠ s.capHeader[k]?) : (capRun s).outcome = .next (s.badHeader k) := by
  rw [capRun, capBody_of_badHeader hk hbefore hne]
  rfl

@[simp] theorem allFailed_zero (act : Mask) : allFailed 0#4 act = false := rfl

/-- What the tests of a captured frame with the end marker `e` leave where no error is recorded. -/
def State.capTested (s : State) (e : Byte) : State :=
  { s with
    fsm := .idle
    busy := false
    resMask := 0
    resValue := s.ackc
    allf := false
    err := if e ≠ endMarker s.rxctl.endBit then 1 else if s.csum ≠ 0 then 2 else 0
    errPos := if e ≠ endMarker s.rxctl.endBit then 4 + s.lenr else if s.csum ≠ 0 then 3 + s.lenr else s.errPos
    errMask := if e ≠ endMarker s.rxctl.endBit ∨ s.csum ≠ 0 then 0 else s.errMask
    errByte := if e ≠ endMarker s.rxctl.endBit then e else if s.csum ≠ 0 then s.csum else s.errByte }

theorem State.capTests_outcome {s : State} (he : s.err = 0) (e : Byte) :
    ((s.capTests e).andThen fun u => .go u.capEnd).outcome = .next (s.capTested e) := by
  have herr : ∀ m v, (s.writeResult m v).err = 0 := fun _ _ => he
  by_cases hmark : e = endMarker s.rxctl.endBit
  · by_cases hsum : s.csum = 0#8
    · rw [State.capTests_of_valid hsum hmark]
      simp [State.capTested, State.capEnd, State.writeResult, State.endCommand, hmark, hsum, he]
    · rw [State.capTests, if_pos hmark, capCheckSum, if_neg (show ¬ s.csum = 0x00 from hsum), Flow.raised_andThen, State.raiseInCapture,
        State.raiseError_of_clear _ _ _ _ _ (herr _ _)]
      simp [State.capTested, State.writeResult, ErrKind.code, hmark, hsum]
  · rw [State.capTests, if_neg hmark, Flow.raised_andThen, State.raiseInCapture,
      State.raiseError_of_clear _ _ _ _ _ (herr _ _)]
    simp [State.capTested, State.writeResult, ErrKind.code, hmark]

/-- The registers and the memory a capture leaves, beside its samples. -/
def State.withCapture (s : State) (csum : Byte) (lenr : Half) (ackc : Byte) (pos rpos : Half) (rsum : Byte)
    (mem : Memory) : State :=
  { s with csum := csum, lenr := lenr, ackc := ackc, pos := pos, rpos := rpos, rsum := rsum, mem := mem }

theorem State.afterSamples_withCapture (s : State) (n k : Nat) (csum : Byte) (lenr : Half) (ackc : Byte)
    (pos rpos : Half) (rsum : Byte) (mem : Memory) :
    (s.withCapture csum lenr ackc pos rpos rsum mem).afterSamples n k =
      (s.afterSamples n k).withCapture csum lenr ackc pos rpos rsum mem := rfl

theorem State.afterCapHeader_eq (s : State) :
    s.afterCapHeader = (s.afterSamples 8 3).withCapture (byteSum [hiByte s.rxLenField, loByte s.rxLenField])
      s.rxLenField 0x00 0 (if s.rxctl.cont then s.rpos else 0) (if s.rxctl.cont then s.rsum else 0x00) s.mem := rfl

/-- The state in which a whole frame of `n` bytes is tested, its samples counted together. -/
theorem State.captured_eq {s : State} {ack payload : List Byte} {cs : Byte} {n : Nat} {sum : Byte}
    (hn : n = ack.length + payload.length + 5) (hpay : payload.length = s.rxlen.toNat)
    (hsum : byteSum (hiByte s.rxLenField :: loByte s.rxLenField :: (ack ++ (payload ++ [cs]))) = sum) :
    s.captured ack payload cs = (s.afterSamples 8 n).withCapture sum s.rxLenField (ack.headD 0x00) s.rxlen
      ((if s.rxctl.cont then s.rpos else 0) + s.rxlen) ((if s.rxctl.cont then s.rsum else 0x00) + byteSum payload)
      (storeBytes (Buf.rx.addr (if s.rxctl.cont then s.rpos else 0).toNat) payload s.mem) := by
  have hcount : n = 3 + (ack.length + (payload.length + 1)) + 1 := by omega
  have hlen : BitVec.ofNat 16 payload.length = s.rxlen := by rw [hpay, BitVec.ofNat_toNat, BitVec.setWidth_eq]
  have hpos : (0 : Half) + s.rxlen = s.rxlen := BitVec.zero_add _
  rw [← hsum, ← s.captured_csum ack payload cs, hcount, State.afterSamples_add,
    State.afterSamples_one, State.captured, State.afterCapHeader_eq, State.afterCapCsum, State.afterSamples_withCapture,
    State.afterSamples_add _ _ 3]
  simp only [State.withCapture, hlen, hpos]
  rfl

theorem State.rxLenOk_of_rxcapLegal {s : State} (hl : s.rxcapLegal = true) : s.rxLenOk = true := by
  simp only [State.rxcapLegal, State.captureOk, Bool.and_eq_true] at hl
  tauto

/-- Settles O31, from what a capture leaves at the first byte of its header that is not the expected one. -/
theorem rxcapStopsAtAStructuralMismatch : Obligations.RxcapStopsAtAStructuralMismatch := by
  intro s k hs hl hk len header seen hbefore hne
  rw [exec_rxcap_of_legal hs hl]
  refine (capRun_of_badHeader (s := s.beginCommand (encode .rxcap)) hk hbefore hne).trans ?_
  rw [State.badHeader, State.raiseInCapture, State.raiseError_of_clear]
  · rfl
  · exact hs.2

/-- Settles O32, from what a capture of a whole frame leaves for its tests. -/
theorem rxcapCapturesTheFrame : Obligations.RxcapCapturesTheFrame := by
  intro s ack payload cs e hs hl hwf hack hpay len base header sum marker hsees
  have hlen : len.toNat = ack.length + payload.length := by
    change s.rxLenField.toNat = _
    rw [State.rxLenField_toNat (State.rxLenOk_of_rxcapLegal hl)]
    omega
  have hparts : header ++ ack ++ payload ++ [cs, e] = s.capHeader ++ ((ack ++ (payload ++ [cs])) ++ [e]) := by
    simp only [List.append_assoc, List.cons_append, List.nil_append]
    rfl
  have hlength : (s.capHeader ++ ((ack ++ (payload ++ [cs])) ++ [e])).length = len.toNat + 5 := by
    simp only [List.length_append, List.length_cons, List.length_nil, State.capHeader]
    omega
  have hsum : byteSum (hiByte s.rxLenField :: loByte s.rxLenField :: (ack ++ (payload ++ [cs]))) = sum :=
    congrArg byteSum (by simp only [List.append_assoc, header]; rfl)
  rw [hparts, ← hlength] at hsees
  rw [exec_rxcap_of_frame hs hl hwf hack hpay hsees, State.capTests_outcome,
    State.captured_eq (s := s.beginCommand (encode .rxcap)) (n := len.toNat + 5) (sum := sum) _ hpay hsum]
  · rfl
  · rw [← hlength]
    simp only [List.length_append, List.length_cons, List.length_nil, State.capHeader]
    omega
  · exact hs.2

/-! ### Any frame with the header expected -/

/-- Bytes enough for an ack byte, a payload and a checksum byte are these. -/
theorem exists_parts {m : List Byte} {a p : Nat} (h : m.length = a + p + 1) :
    ∃ (ack payload : List Byte) (cs : Byte), m = ack ++ (payload ++ [cs]) ∧ ack.length = a ∧ payload.length = p := by
  have hlen : ((m.drop a).drop p).length = 1 := by
    rw [List.length_drop, List.length_drop]
    omega
  obtain ⟨cs, hcs⟩ := List.length_eq_one_iff.1 hlen
  refine ⟨m.take a, (m.drop a).take p, cs, ?_, ?_, ?_⟩
  · rw [← hcs, List.take_append_drop, List.take_append_drop]
  · rw [List.length_take]
    omega
  · rw [List.length_take, List.length_drop]
    omega

/-- The error in which an accepted RXCAP ends that samples the header it expects, `m` and the byte `e`. -/
theorem exec_rxcap_err {s : State} {m : List Byte} {e : Byte} (hs : s.ready) (hl : s.rxcapLegal = true)
    (hwf : s.params.wf) (hm : m.length = s.rxctl.ackEn.toNat + s.rxlen.toNat + 1)
    (hsees : s.Sees (s.capHeader ++ (m ++ [e]))) :
    ∃ u, exec .rxcap s = .next u ∧
      u.err = if e ≠ endMarker s.rxctl.endBit then 1
        else if byteSum (hiByte s.rxLenField :: loByte s.rxLenField :: m) ≠ 0 then 2 else 0 := by
  obtain ⟨ack, payload, cs, rfl, hack, hpay⟩ := exists_parts hm
  have he : ((s.beginCommand (encode .rxcap)).captured ack payload cs).err = 0 := hs.2
  refine ⟨_, (exec_rxcap_of_frame hs hl hwf hack hpay hsees).trans (State.capTests_outcome he e), ?_⟩
  rw [State.capTested, State.captured_csum]
  rfl

theorem Frame.ack_length (f : Frame) : f.ack.toList.length = f.ack.isSome.toNat := by
  cases f.ack with
  | none => rfl
  | some a => rfl

theorem Frame.len_eq_rxLenField {f : Frame} {s : State} (hpay : f.payload.length = s.rxlen.toNat)
    (hack : f.ack.isSome = s.rxctl.ackEn) : f.len = s.rxLenField := by
  rw [Frame.len, f.ack_length, hpay, hack, State.rxLenField, BitVec.ofNat_add, BitVec.ofNat_toNat, BitVec.setWidth_eq]
  cases s.rxctl.ackEn with
  | false => rfl
  | true => rfl

/-- A changed header byte ends a capture as FrameDecodeError. -/
theorem exec_rxcap_err_of_header {s : State} {j n : Nat} {v : Byte} {rest : List Byte} (hs : s.ready)
    (hl : s.rxcapLegal = true) (hj : j < s.capHeader.length) (hn : 3 ≤ n) (hv : v ≠ s.capHeader[j])
    (hsees : s.captureAhead n = s.capHeader.set j v ++ rest) : ∃ u, exec .rxcap s = .next u ∧ u.err = 1 := by
  have hj3 : j < 3 := hj
  have hseen : s.captureAhead (j + 1) = (s.capHeader.set j v).take (j + 1) := by
    rw [← s.captureAhead_take (k := n) (by omega), hsees, List.take_append_of_le_length]
    rw [List.length_set]
    exact hj
  refine ⟨_, rxcapStopsAtAStructuralMismatch s j hs hl hj3 ?_ ?_, rfl⟩
  · rw [hseen, List.take_take, Nat.min_eq_left (Nat.le_succ j), List.take_set_of_le (le_refl j)]
    rfl
  · have hwas : s.capHeader[j]? ≠ some v := by
      rw [List.getElem?_eq_getElem hj]
      exact fun h => hv (Option.some.inj h).symm
    rw [hseen, List.getElem?_take_of_lt (Nat.lt_succ_self j), List.getElem?_set_self hj]
    exact hwas.symm

/-- Settles O34: another marker or length byte is caught where it stands, and another covered byte in the sum. -/
theorem oneChangedByteIsAlwaysDetected : Obligations.OneChangedByteIsAlwaysDetected := by
  intro s f j v hs hl hwf hpay hkind hack hend hj hv hsees
  have hlen := Frame.len_eq_rxLenField hpay hack
  obtain ⟨m, hm⟩ : ∃ m, m = f.ack.toList ++ (f.payload ++ [f.checksum]) := ⟨_, rfl⟩
  have hmlen : m.length = s.rxctl.ackEn.toNat + s.rxlen.toNat + 1 := by
    simp only [hm, List.length_append, f.ack_length, hpay, hack, List.length_singleton]
    omega
  have hbytes : f.bytes = s.capHeader ++ (m ++ [endMarker s.rxctl.endBit]) := by
    rw [f.bytes_eq, State.capHeader, hkind, hlen, hend, hm]
  have hsum : byteSum (hiByte s.rxLenField :: loByte s.rxLenField :: m) = 0 := by
    rw [← f.byteSum_covered_checksum, Frame.covered, hlen, hm]
    simp only [List.cons_append, List.append_assoc]
  have hlength : ∀ e : Byte, (s.capHeader ++ (m ++ [e])).length = m.length + 4 := fun e => by
    simp only [List.length_append, State.capHeader, List.length_cons, List.length_nil]
    omega
  simp only [hbytes, hlength] at hv hj hsees ⊢
  rcases Nat.lt_or_ge j s.capHeader.length with hj3 | hj3
  · rw [List.getElem_append_left hj3] at hv
    rw [List.set_append_left _ _ hj3] at hsees
    rw [if_pos (.inl (Nat.le_of_lt_succ hj3))]
    exact exec_rxcap_err_of_header hs hl hj3 (by omega) hv hsees
  obtain ⟨i, rfl⟩ := Nat.exists_eq_add_of_le hj3
  rw [List.getElem_append_right hj3] at hv
  rw [List.set_append_right _ _ hj3] at hsees
  simp only [Nat.add_sub_cancel_left] at hv hsees
  have hhdr : s.capHeader.length = 3 := rfl
  rcases Nat.lt_or_ge i m.length with hi | hi
  · rw [List.getElem_append_left hi] at hv
    rw [List.set_append_left _ _ hi] at hsees
    obtain ⟨u, hu, herr⟩ := exec_rxcap_err (m := m.set i v) (e := endMarker s.rxctl.endBit) hs hl hwf
      (by rw [List.length_set, hmlen]) (by rwa [State.Sees, List.length_append, List.length_append, List.length_set,
        ← List.length_append, ← List.length_append, hlength])
    have hchanged : byteSum (hiByte s.rxLenField :: loByte s.rxLenField :: m.set i v) ≠ 0 :=
      hsum ▸ byteSum_set_ne (bs := hiByte s.rxLenField :: loByte s.rxLenField :: m) (j := i + 2)
        (Nat.add_lt_add_right hi 2) hv
    refine ⟨u, hu, herr.trans ?_⟩
    rw [if_neg (not_not.2 rfl), if_pos hchanged, if_neg (by omega)]
  · obtain rfl : i = m.length := by omega
    rw [List.getElem_append_right hi] at hv
    rw [List.set_append_right _ _ hi] at hsees
    simp only [Nat.sub_self, List.getElem_singleton, List.set_cons_zero] at hv hsees
    obtain ⟨u, hu, herr⟩ := exec_rxcap_err (e := v) hs hl hwf hmlen (by rwa [State.Sees, hlength])
    refine ⟨u, hu, herr.trans ?_⟩
    rw [if_pos hv, if_pos (by omega)]

/-! ### What a capture stores (R193) -/

/-- What a capture comes to: it ends at the header, or after a whole frame. -/
theorem capRun_cases {s : State} (he : s.err = 0) (hroom : s.captureBase + s.rxlen.toNat < 65536) :
    (∃ k, (capRun s).outcome = .next (s.badHeader k)) ∨
    ∃ (ack payload : List Byte) (cs e : Byte), payload.length = s.rxlen.toNat ∧
      (capRun s).outcome = .next ((s.captured ack payload cs).capTested e) := by
  rcases eq_or_first_difference (s.captureAhead 3) s.capHeader (s.captureAhead_length 3) with hhdr | ⟨k, hk, hbefore, hne⟩
  · obtain ⟨m, empty, e, hm, hmlen, hempty⟩ :=
      exists_parts (a := s.rxctl.ackEn.toNat + s.rxlen.toNat + 1) (p := 0)
        ((s.afterSamples 8 3).captureAhead_length (s.rxctl.ackEn.toNat + s.rxlen.toNat + 1 + 0 + 1))
    obtain rfl := List.length_eq_zero_iff.1 hempty
    obtain ⟨ack, payload, cs, rfl, hack, hpay⟩ := exists_parts hmlen
    have hsees : s.Sees (s.capHeader ++ ((ack ++ (payload ++ [cs])) ++ [e])) := by
      have hlength : (s.capHeader ++ ((ack ++ (payload ++ [cs])) ++ [e])).length =
          3 + (s.rxctl.ackEn.toNat + s.rxlen.toNat + 1 + 0 + 1) := by
        rw [List.length_append, List.length_append, hmlen]
        rfl
      rw [State.Sees, hlength, State.captureAhead_add, hhdr, hm]
      rfl
    refine .inr ⟨ack, payload, cs, e, hpay, ?_⟩
    rw [capRun, capBody_of_frame hack hpay (hpay ▸ hroom) hsees]
    exact State.capTests_outcome (s := s.captured ack payload cs) he e
  · rw [s.captureAhead_length] at hk
    have hbefore' : (s.captureAhead (k + 1)).take k = s.capHeader.take k := by
      rw [s.captureAhead_take (Nat.le_succ k), ← hbefore, s.captureAhead_take (Nat.le_of_lt hk)]
    have hne' : (s.captureAhead (k + 1))[k]? ≠ s.capHeader[k]? := by
      rwa [← s.captureAhead_take (Nat.succ_le_of_lt hk), List.getElem?_take_of_lt (Nat.lt_succ_self k)]
    exact .inl ⟨k, capRun_of_badHeader hk hbefore' hne'⟩

/-- A capture stores nothing outside its part of RXBUF. -/
theorem capRun_read_other {s t : State} (he : s.err = 0) (hroom : s.captureBase + s.rxlen.toNat < 65536)
    (ht : (capRun s).outcome = .next t) {a : Nat}
    (ha : ¬ (Buf.rx.addr s.captureBase ≤ a ∧ a < Buf.rx.addr s.captureBase + s.rxlen.toNat)) :
    t.mem.read a = s.mem.read a := by
  rcases capRun_cases he hroom with ⟨k, hend⟩ | ⟨ack, payload, cs, e, hpay, hend⟩
  · obtain rfl := Host.Outcome.next.inj (hend.symm.trans ht)
    rfl
  · obtain rfl := Host.Outcome.next.inj (hend.symm.trans ht)
    change (s.captured ack payload cs).mem.read a = _
    rw [State.captured_mem]
    exact storeBytes_read_other _ _ _ _ (by omega)

theorem State.captureBase_room_of_captureOk {s : State} (hl : s.captureOk = true) (hwf : s.params.wf) :
    s.captureBase + s.rxlen.toNat < 65536 := by
  simp only [State.captureOk, Bool.and_eq_true, decide_eq_true_eq] at hl
  obtain ⟨-, hroom⟩ := hl
  obtain ⟨-, -, hbuf⟩ := hwf
  omega

/-- Settles O53: a capture that stores at all stores its payload, from the running position on. -/
theorem capturesStoreOnlyTheirPayload : Obligations.CapturesStoreOnlyTheirPayload := by
  intro i s t hi hwf hexec a ha
  rcases exec_cases i s with ⟨h, -⟩ | ⟨h, -, -⟩ | ⟨htr, -⟩ | ⟨-, hs, hl, h⟩
  · obtain rfl := Host.Outcome.next.inj (h.symm.trans hexec)
    rfl
  · obtain rfl := Host.Outcome.next.inj (h.symm.trans hexec)
    rfl
  · rcases hi with rfl | rfl
    · cases htr
    · cases htr
  · have hrun := h.symm.trans hexec
    rcases hi with rfl | rfl
    · exact capRun_read_other (s := s.beginCommand (encode .rxcap)) hs.2 (State.captureBase_room hl hwf) hrun ha
    · have hroom := State.captureBase_room_of_captureOk (Bool.and_eq_true_iff.1 hl).2 hwf
      rcases txBody_cases (s.beginCommand (encode .xcap)) with ⟨req, hreq, hold⟩ | ⟨off, -, -, hstop⟩
      · rw [exec_xcap_of_txBody hs hl (txBody_eq_sent hreq hold)] at hexec
        exact capRun_read_other (s := (s.beginCommand (encode .xcap)).sent req) hs.2 hroom hexec ha
      · change ((txBody (s.beginCommand (encode .xcap))).andThen capRun).outcome = _ at hrun
        rw [hstop] at hrun
        cases hrun

end Sys2Proof.Machine
end

section
/-! SUPPORT. What a transport command leaves that runs to its end, whichever it is: the fields it keeps (R10 to R25),
the events it takes (R341), the errors it can end in (R270), and LENR and the first bytes of a frame (R94, R170). -/

namespace Sys2Proof.Machine

/-! ### What a command keeps -/

/-- The state without what some command's run writes. -/
def State.sansRun (s : State) : State :=
  { s with
    csum := 0, rsum := 0, rpos := 0, fmask := 0, pos := 0, lenr := 0, first := 0, firstv := false, ackc := 0, opr := 0,
    fsm := .idle, busy := false, allf := false, err := 0, resMask := 0, resValue := 0, errPos := 0, errMask := 0,
    errByte := 0, rrem := 0, trem := 0, mem := [], trace := [], samples := [], levels := [], draws := 0 }

/-- What the run of a transport command keeps of the state it starts in. -/
structure Kept (i : Instr) (s t : State) : Prop where
  host : t.sansRun = s.sansRun
  buffers : i ≠ .rxcap → i ≠ .xcap → t.rpos = s.rpos ∧ t.rsum = s.rsum ∧ t.ackc = s.ackc ∧ t.mem = s.mem
  rrem : retried i = false → t.rrem = s.rrem
  polls : (∀ r l, i ≠ .waitlvl r l) → t.trem = s.trem ∧ t.levels = s.levels
  datapath : ((∃ r n a b, i = .cmp r n a b) ∨ ∃ r l, i = .waitlvl r l) →
    t.csum = s.csum ∧ t.pos = s.pos ∧ t.lenr = s.lenr ∧ t.fmask = s.fmask ∧ t.first = s.first ∧ t.firstv = s.firstv

/-- The codes a command may end with (R270). -/
def ownErrors : Instr → List (BitVec 4)
  | .nop | .clrerr | .srst | .csclr | .csadd _ | .csget | .cschk => [0]
  | .cmp _ _ _ _ | .rxcmp _ | .xcmp _ => [0, 4, 7]
  | .waitlvl _ _ => [0, 3, 7]
  | .txframe => [0, 7]
  | .rxcap | .xcap => [0, 1, 2, 7]

/-- The commands that send a frame. -/
def Sends (i : Instr) : Prop := i = .txframe ∨ i = .xcap ∨ ∃ r, i = .xcmp r

/-- The commands that receive a frame. -/
def Receives (i : Instr) : Prop := i = .rxcap ∨ i = .xcap ∨ (∃ r, i = .rxcmp r) ∨ ∃ r, i = .xcmp r

/-- What a transport command leaves that runs to its end. -/
structure CommandEnd (i : Instr) (s t : State) : Prop where
  kept : Kept i s t
  grew : ∃ events, t.trace = s.trace ++ events ∧ events.length ≤ s.eventBound i ∧
    (i = .txframe → events.length = s.eventBound i)
  idle : t.busy = false ∧ t.fsm = .idle
  err : t.err ∈ ownErrors i
  errInfo : t.err = 0 → t.errPos = s.errPos ∧ t.errMask = s.errMask ∧ t.errByte = s.errByte
  sentLen : i = .txframe → t.lenr = s.txLenField
  receivedLen : Receives i → t.lenr = s.rxLenField
  head : Sends i → ∃ rest, t.trace = s.trace ++ (s.txHead ++ rest)

/-! ### RREM of a command that is not retried (R230) -/

theorem Flow.Sat.and {P P' Q Q' : State → Prop} {F F' : Fault → Prop} {x : Flow} (h : x.Sat P Q F)
    (h' : x.Sat P' Q' F') : x.Sat (fun t => P t ∧ P' t) (fun t => Q t ∧ Q' t) fun f => F f ∧ F' f := by
  cases x with
  | go t => exact ⟨h, h'⟩
  | raised t => exact ⟨h, h'⟩
  | stop f => exact ⟨h, h'⟩

theorem Flow.LeavesRetry.sat {n : Word} {e : BitVec 4} {x : Flow} (h : x.LeavesRetry n e) :
    x.Sat (fun t => t.rrem = n) (fun _ => False) fun _ => True := by
  cases x with
  | go t => exact h.1
  | raised t => exact h
  | stop f => trivial

/-- One attempt leaves RREM alone. -/
theorem Flow.Sat.with_rrem {attempt : State → Flow} {P : State → Prop} {F : Fault → Prop} {r : Bool} {s : State}
    (hkeep : (attempt s).LeavesRetry s.rrem s.err) (h : (runAttempts r attempt s).Sat P (fun _ => False) F) :
    (runAttempts r attempt s).Sat (fun t => P t ∧ (r = false → t.rrem = s.rrem)) (fun _ => False) F := by
  cases r with
  | false =>
    exact (h.and hkeep.sat).imp (fun t ⟨ht, hrrem⟩ => ⟨ht, fun _ => hrrem⟩) (fun _ hf => hf.1) fun _ hf => hf.1
  | true => exact h.imp (fun t ht => ⟨ht, nofun⟩) (fun _ hf => hf) fun _ hf => hf

/-! ### The end of a comparing command (R29, R230) -/

/-- Where the attempts of a command have left the errors alone, its end adds the error of the last mask. -/
theorem CommandEnd.finish {i : Instr} {s u : State} {k : ErrKind} (p : Half) (hkept : Kept i s u)
    (hgrew : ∃ events, u.trace = s.trace ++ events ∧ events.length ≤ s.eventBound i)
    (herr : u.err = 0) (hinfo : u.errPos = s.errPos ∧ u.errMask = s.errMask ∧ u.errByte = s.errByte)
    (hk : 0 ∈ ownErrors i ∧ k.code ∈ ownErrors i) (hcode : k.code ≠ 0) (hi : i ≠ .txframe)
    (hlen : Receives i → u.lenr = s.rxLenField) (hhead : Sends i → ∃ rest, u.trace = s.trace ++ (s.txHead ++ rest)) :
    CommandEnd i s (u.finish k p) := by
  obtain ⟨events, htrace, hevents⟩ := hgrew
  rw [State.finish_of_clear _ _ _ herr]
  refine ⟨⟨hkept.host, hkept.buffers, hkept.rrem, hkept.polls, hkept.datapath⟩,
    ⟨events, htrace, hevents, fun h => absurd h hi⟩, ⟨rfl, rfl⟩, ?err, ?info, fun h => absurd h hi, hlen, hhead⟩
  case err =>
    change (if u.resMask = 0 then 0 else k.code) ∈ _
    split
    · exact hk.1
    · exact hk.2
  case info =>
    intro h
    change (if u.resMask = 0 then 0 else k.code) = 0 at h
    have hmask : u.resMask = 0 := by
      by_contra hne
      rw [if_neg hne] at h
      exact hcode h
    simp only [hmask, if_true]
    exact hinfo

theorem cmp_end {r : Bool} {n : BitVec 4} {s : State} (a b : Byte) (he : s.err = 0) (hl : s.cmpLegal r n = true) :
    (commandBody (.cmp r n a b) s).Sat (CommandEnd (.cmp r n a b) s) (CommandEnd (.cmp r n a b) s)
      (MissingByte (.cmp r n a b) s) := by
  have hbudget : s.budgetOk r = true := (Bool.and_eq_true_iff.1 hl).2
  obtain ⟨k, -, hk, -, -, hrun⟩ := runAttempts_cmpAttempt r n.toNat a b s (State.attemptBound_ne_zero hbudget)
  change (cmpBody r n.toNat a b s).Sat _ _ _
  rw [cmpBody, hrun, Flow.go_andThen]
  refine CommandEnd.finish 0 ⟨rfl, fun _ _ => ⟨rfl, rfl, rfl, rfl⟩, ?_, fun _ => ⟨rfl, rfl⟩,
    fun _ => ⟨rfl, rfl, rfl, rfl, rfl, rfl⟩⟩ ⟨_, rfl, ?_⟩ he ⟨rfl, rfl, rfl⟩ (by simp [ownErrors, ErrKind.code])
    (by decide) nofun (by simp [Receives]) (by simp [Sends])
  · rintro rfl
    rfl
  · rw [List.length_map, State.samplesAhead_length]
    exact hk

theorem waitlvl_end {r : Bool} {s : State} (l : Bool) (he : s.err = 0) (hl : s.waitlvlLegal r = true) :
    (commandBody (.waitlvl r l) s).Sat (CommandEnd (.waitlvl r l) s) (CommandEnd (.waitlvl r l) s)
      (MissingByte (.waitlvl r l) s) := by
  simp only [State.waitlvlLegal, Bool.and_eq_true, bne_iff_ne] at hl
  obtain ⟨⟨-, htime⟩, hbudget⟩ := hl
  obtain ⟨n, polls, u, -, hn, hu, hrun⟩ := runAttempts_waitlvlAttempt r l s htime (State.attemptBound_ne_zero hbudget)
  have hrrem := Flow.Sat.with_rrem (r := r) (P := fun _ => True) (F := fun _ => True) (waitlvlAttempt_leavesRetry l s)
    (by rw [hrun]; trivial)
  change ((runAttempts r (waitlvlAttempt l) s).andThen fun u => .go (u.finish .timeoutError 0)).Sat _ _ _
  rw [hrun] at hrrem ⊢
  refine CommandEnd.finish 0 ⟨(congrArg State.sansRun hu.sans :), fun _ _ => ?_, hrrem.2, fun h => absurd rfl (h r l),
    fun _ => ?_⟩ ⟨_, hu.trace, ?_⟩ ((congrArg State.err hu.sans :).trans he) ?_ (by simp [ownErrors, ErrKind.code])
    (by decide) nofun (by simp [Receives]) (by simp [Sends])
  · exact ⟨(congrArg State.rpos hu.sans :), (congrArg State.rsum hu.sans :), (congrArg State.ackc hu.sans :),
      (congrArg State.mem hu.sans :)⟩
  · exact ⟨(congrArg State.csum hu.sans :), (congrArg State.pos hu.sans :), (congrArg State.lenr hu.sans :),
      (congrArg State.fmask hu.sans :), (congrArg State.first hu.sans :), (congrArg State.firstv hu.sans :)⟩
  · rw [List.length_map]
    exact hu.length.trans (Nat.mul_le_mul_right _ hn)
  · exact ⟨(congrArg State.errPos hu.sans :), (congrArg State.errMask hu.sans :), (congrArg State.errByte hu.sans :)⟩

/-- The end of a compare of frames, by what its attempts leave. -/
theorem CompareRun.end {i : Instr} {head : List Event} {size n : Nat} {s u : State} (h : CompareRun head size n s u)
    (hn : n ≠ 0) (he : s.err = 0) (hi : (∃ r, i = .rxcmp r) ∨ ∃ r, i = .xcmp r)
    (hbound : n * size ≤ s.eventBound i) (hhead : Sends i → head = s.txHead)
    (hrrem : retried i = false → u.rrem = s.rrem) : CommandEnd i s (u.finish .compareMismatch u.first) := by
  have hown : (0 : BitVec 4) ∈ ownErrors i ∧ ErrKind.compareMismatch.code ∈ ownErrors i := by
    rcases hi with ⟨r, rfl⟩ | ⟨r, rfl⟩
    · simp [ownErrors, ErrKind.code]
    · simp [ownErrors, ErrKind.code]
  have hcomp : ¬ ((∃ r n a b, i = .cmp r n a b) ∨ ∃ r l, i = .waitlvl r l) := by
    rcases hi with ⟨r, rfl⟩ | ⟨r, rfl⟩
    · simp
    · simp
  have htx : i ≠ .txframe := by
    rcases hi with ⟨r, rfl⟩ | ⟨r, rfl⟩
    · nofun
    · nofun
  obtain ⟨events, htrace, hevents⟩ := h.grew
  refine CommandEnd.finish _ ⟨(congrArg State.sansRun h.sans :), fun _ _ => ?_, hrrem, fun _ => ?_,
    fun hc => absurd hc hcomp⟩ ⟨events, htrace, hevents.trans hbound⟩ ((congrArg State.err h.sans :).trans he) ?_ hown
    (by decide) htx (fun _ => h.lenr hn) ?_
  · exact ⟨(congrArg State.rpos h.sans :), (congrArg State.rsum h.sans :), (congrArg State.ackc h.sans :),
      (congrArg State.mem h.sans :)⟩
  · exact ⟨(congrArg State.trem h.sans :), (congrArg State.levels h.sans :)⟩
  · exact ⟨(congrArg State.errPos h.sans :), (congrArg State.errMask h.sans :), (congrArg State.errByte h.sans :)⟩
  · intro hs
    rw [← hhead hs]
    exact h.head hn

theorem rxcmp_end {r : Bool} {s : State} (he : s.err = 0) (hl : s.rxcmpLegal r = true) :
    (commandBody (.rxcmp r) s).Sat (CommandEnd (.rxcmp r) s) (CommandEnd (.rxcmp r) s) (MissingByte (.rxcmp r) s) := by
  change ((runAttempts r rxcmpAttempt s).andThen fun u => .go (u.finish .compareMismatch u.first)).Sat _ _ _
  refine (((runAttempts_rxcmpAttempt r s).with_rrem (rxcmpAttempt_leavesRetry s)).imp (fun _ h => h)
    (fun _ h => h.elim) fun _ h => h).andThen fun u ⟨hu, hrrem⟩ => ?_
  exact hu.end (State.attemptBound_of_rxcmpLegal hl) he (.inl ⟨r, rfl⟩) (le_refl _) (by simp [Sends]) hrrem

theorem xcmp_end {r : Bool} {s : State} (he : s.err = 0) (hl : s.xcmpLegal r = true) :
    (commandBody (.xcmp r) s).Sat (CommandEnd (.xcmp r) s) (CommandEnd (.xcmp r) s) (MissingByte (.xcmp r) s) := by
  change ((runAttempts r xcmpAttempt s).andThen fun u => .go (u.finish .compareMismatch u.first)).Sat _ _ _
  refine (((runAttempts_xcmpAttempt r s).with_rrem (xcmpAttempt_leavesRetry s)).imp (fun _ h => h)
    (fun _ h => h.elim) fun _ h => h).andThen fun u ⟨hu, hrrem⟩ => ?_
  exact hu.end (State.attemptBound_of_xcmpLegal hl) he (.inr ⟨r, rfl⟩) (le_refl _) (fun _ => rfl) hrrem

/-! ### TXFRAME (R170) -/

theorem txframe_end {s : State} (he : s.err = 0) :
    (commandBody .txframe s).Sat (CommandEnd .txframe s) (CommandEnd .txframe s) (MissingByte .txframe s) := by
  change ((txBody s).andThen fun u => .go (u.writeResult 0 (0 - u.csum)).endCommand).Sat _ _ _
  rcases txBody_cases s with ⟨req, hreq, hold⟩ | ⟨off, hoff, hnone, hstop⟩
  · obtain ⟨rest, htrace, hlen⟩ := s.sent_trace hreq
    rw [txBody_eq_sent hreq hold, Flow.go_andThen]
    refine ⟨⟨rfl, fun _ _ => ⟨rfl, rfl, rfl, rfl⟩, fun _ => rfl, fun _ => ⟨rfl, rfl⟩, by simp⟩,
      ⟨_, htrace, hlen.le, fun _ => hlen⟩, ⟨rfl, rfl⟩, ?_, fun _ => ⟨rfl, rfl, rfl⟩, fun _ => rfl,
      by simp [Receives], fun _ => ⟨rest, htrace⟩⟩
    change s.err ∈ _
    rw [he]
    simp [ownErrors]
  · rw [hstop]
    exact ⟨.tx, off, rfl, ⟨rfl, hoff⟩, hnone⟩

/-! ### Captures (R193, R201) -/

/-- The state without what a capture writes before its end (R193). -/
def State.sansCapture (s : State) : State :=
  { s with samples := [], draws := 0, trace := [], csum := 0, pos := 0, ackc := 0, rpos := 0, rsum := 0, mem := [] }

/-- What a capture that began in `s` has done after `n` samples. -/
structure Capturing (n : Nat) (s t : State) : Prop where
  sans : t.sansCapture = s.sansCapture
  grew : ∃ events, t.trace = s.trace ++ events ∧ events.length = n

/-- The same, without what its end writes as well (R195, R280). -/
def State.sansCaptureEnd (s : State) : State :=
  { s.sansCapture with
    allf := false, resMask := 0, resValue := 0, fsm := .idle, busy := false, err := 0, errPos := 0, errMask := 0,
    errByte := 0 }

/-- What a capture that began in `s` leaves, however it ends. -/
structure CaptureEnd (s t : State) : Prop where
  sans : t.sansCaptureEnd = s.sansCaptureEnd
  grew : ∃ events, t.trace = s.trace ++ events ∧ events.length ≤ s.rxEvents
  idle : t.busy = false ∧ t.fsm = .idle
  err : t.err = 0 ∨ t.err = 1 ∨ t.err = 2
  errInfo : t.err = 0 → t.errPos = s.errPos ∧ t.errMask = s.errMask ∧ t.errByte = s.errByte

theorem Capturing.sample {n : Nat} {s t u : State} (h : Capturing n s t) (hsans : u.sansCapture = t.sansCapture)
    (htrace : u.trace = t.trace ++ [.sample 8 (t.sampleValue 8)]) : Capturing (n + 1) s u := by
  obtain ⟨events, hevents, hlen⟩ := h.grew
  refine ⟨hsans.trans h.sans, events ++ [.sample 8 (t.sampleValue 8)], ?_, ?_⟩
  · rw [htrace, hevents, List.append_assoc]
  · rw [List.length_append, hlen]
    rfl

theorem Capturing.capPayload {n : Nat} {s t : State} (k : Nat) (h : Capturing n s t) :
    Capturing (n + k) s (capPayload k t) := by
  induction k generalizing n t with
  | zero => exact h
  | succ k ih =>
    rw [← Nat.add_assoc, Nat.add_right_comm]
    exact ih (h.sample rfl rfl)

theorem Capturing.capAckIfAny {n : Nat} {s t : State} (h : Capturing n s t) :
    Capturing (n + t.rxctl.ackEn.toNat) s t.capAckIfAny := by
  rw [State.capAckIfAny]
  cases t.rxctl.ackEn with
  | false => exact h
  | true => exact h.sample rfl rfl

theorem Capturing.raiseInCapture {n : Nat} {s t : State} {k : ErrKind} (h : Capturing n s t) (he : s.err = 0)
    (hn : n ≤ s.rxEvents) (hk : k = .frameDecodeError ∨ k = .checksumError) (p : Half) (v : Byte) :
    CaptureEnd s (t.raiseInCapture k p v) := by
  have herr : t.err = 0 := (congrArg State.err h.sans :).trans he
  obtain ⟨events, htrace, hlen⟩ := h.grew
  rw [State.raiseInCapture, State.raiseError_of_clear (t.writeResult 0 t.ackc) _ _ _ _ herr]
  refine ⟨(congrArg State.sansCaptureEnd h.sans :), ⟨events, htrace, hlen.trans_le hn⟩, ⟨rfl, rfl⟩, .inr ?_, ?_⟩
  · rcases hk with rfl | rfl
    · exact .inl rfl
    · exact .inr rfl
  · rcases hk with rfl | rfl
    · exact nofun
    · exact nofun

theorem Capturing.capEnd {n : Nat} {s t : State} (h : Capturing n s t) (he : s.err = 0) (hn : n ≤ s.rxEvents) :
    CaptureEnd s t.capEnd := by
  have herr : t.err = 0 := (congrArg State.err h.sans :).trans he
  obtain ⟨events, htrace, hlen⟩ := h.grew
  exact ⟨(congrArg State.sansCaptureEnd h.sans :), ⟨events, htrace, hlen.trans_le hn⟩, ⟨rfl, rfl⟩, .inl herr,
    fun _ => ⟨(congrArg State.errPos h.sans :), (congrArg State.errMask h.sans :), (congrArg State.errByte h.sans :)⟩⟩

theorem Capturing.capStructural {n : Nat} {s t : State} (h : Capturing n s t) (he : s.err = 0)
    (hn : n + 1 ≤ s.rxEvents) (e : Byte) (idx : Half) (covered : Bool) :
    (capStructural e idx covered t).Sat (Capturing (n + 1) s) (CaptureEnd s) fun _ => False := by
  rw [Machine.capStructural]
  split
  · exact h.sample rfl rfl
  · exact (h.sample rfl rfl : Capturing (n + 1) s (t.afterSample 8)).raiseInCapture he hn (.inl rfl) _ _

theorem Capturing.capCheckSum {n : Nat} {s t : State} (h : Capturing n s t) (he : s.err = 0) (hn : n ≤ s.rxEvents) :
    (capCheckSum t).Sat (Capturing n s) (CaptureEnd s) fun _ => False := by
  rw [Machine.capCheckSum]
  split
  · exact h
  · exact h.raiseInCapture he hn (.inr rfl) _ _

/-- However a capture ends, it is at most as long as a frame (R193, R194, R195). -/
theorem capRun_sat {s : State} (he : s.err = 0) :
    (capRun s).Sat (CaptureEnd s.capBegin) (CaptureEnd s.capBegin) fun _ => False := by
  have hsize : s.capBegin.rxEvents = 3 + s.rxctl.ackEn.toNat + s.rxlen.toNat + 1 + 1 := by
    change s.rxlen.toNat + s.rxctl.ackEn.toNat + 5 = _
    omega
  have hstart : Capturing 0 s.capBegin s.capBegin := ⟨rfl, [], by simp, rfl⟩
  have hbody : (capBody s).Sat (Capturing (3 + s.rxctl.ackEn.toNat + s.rxlen.toNat + 1 + 1) s.capBegin)
      (CaptureEnd s.capBegin) fun _ => False := by
    refine (hstart.capStructural he (by omega) _ _ _).andThen fun t1 h1 => ?_
    refine (h1.capStructural he (by omega) _ _ _).andThen fun t2 h2 => ?_
    refine (h2.capStructural he (by omega) _ _ _).andThen fun t3 h3 => ?_
    have hack : t3.rxctl.ackEn = s.rxctl.ackEn := (congrArg (fun t => t.rxctl.ackEn) h3.sans :)
    have hlen : t3.rxlen = s.rxlen := (congrArg State.rxlen h3.sans :)
    have hpay := h3.capAckIfAny.capPayload t3.rxlen.toNat
    rw [hack, hlen] at hpay
    have hcsum : Capturing (3 + s.rxctl.ackEn.toNat + s.rxlen.toNat + 1) s.capBegin
        (capPayload s.rxlen.toNat t3.capAckIfAny).capCsum := hpay.sample rfl rfl
    rw [hlen]
    exact (hcsum.capStructural he hsize.ge _ _ _).andThen fun t4 h4 => h4.capCheckSum he hsize.ge
  exact hbody.andThen fun u hu => hu.capEnd he hsize.ge

/-- A capture that began in `v`, as the end of the command `i` that started in `s`: the command has sent `sent`. -/
theorem CaptureEnd.end {i : Instr} {s v t : State} {sent : List Event} (h : CaptureEnd v.capBegin t)
    (hi : i = .rxcap ∨ i = .xcap) (hv : v.sansRun = s.sansRun) (hrrem : v.rrem = s.rrem)
    (hpolls : v.trem = s.trem ∧ v.levels = s.levels)
    (hinfo : v.errPos = s.errPos ∧ v.errMask = s.errMask ∧ v.errByte = s.errByte) (htrace : v.trace = s.trace ++ sent)
    (hbound : sent.length + s.rxEvents = s.eventBound i)
    (hhead : Sends i → ∃ rest, sent = s.txHead ++ rest) : CommandEnd i s t := by
  have hcomp : ¬ ((∃ r n a b, i = .cmp r n a b) ∨ ∃ r l, i = .waitlvl r l) := by
    rcases hi with rfl | rfl
    · simp
    · simp
  have hown : t.err ∈ ownErrors i := by
    have hcode : t.err ∈ ([0, 1, 2, 7] : List (BitVec 4)) := by
      rcases h.err with herr | herr | herr
      · simp [herr]
      · simp [herr]
      · simp [herr]
    rcases hi with rfl | rfl
    · exact hcode
    · exact hcode
  have htx : i ≠ .txframe := by
    rcases hi with rfl | rfl
    · nofun
    · nofun
  have hsize : v.capBegin.rxEvents = s.rxEvents := (congrArg State.rxEvents hv :)
  have hlen : t.lenr = s.rxLenField :=
    (congrArg State.lenr h.sans :).trans (congrArg State.rxLenField hv :)
  obtain ⟨events, hevents, hle⟩ := h.grew
  have hall : t.trace = s.trace ++ (sent ++ events) := by
    rw [hevents, ← List.append_assoc, ← htrace]
    rfl
  refine ⟨⟨(congrArg State.sansRun h.sans :).trans hv, fun hr hx => ?_, fun _ => ?_, fun _ => ?_, fun hc => absurd hc hcomp⟩,
    ⟨_, hall, ?_, fun h => absurd h htx⟩, h.idle, hown, fun herr => ?_, fun h => absurd h htx, fun _ => hlen,
    fun hs => ?_⟩
  · rcases hi with rfl | rfl
    · exact absurd rfl hr
    · exact absurd rfl hx
  · exact (congrArg State.rrem h.sans :).trans hrrem
  · exact ⟨(congrArg State.trem h.sans :).trans hpolls.1, (congrArg State.levels h.sans :).trans hpolls.2⟩
  · rw [List.length_append, ← hbound]
    omega
  · obtain ⟨hp, hm, hb⟩ := h.errInfo herr
    obtain ⟨vp, vm, vb⟩ := hinfo
    exact ⟨hp.trans vp, hm.trans vm, hb.trans vb⟩
  · obtain ⟨rest, hrest⟩ := hhead hs
    exact ⟨rest ++ events, by rw [hall, hrest, List.append_assoc]⟩

theorem rxcap_end {s : State} (he : s.err = 0) :
    (commandBody .rxcap s).Sat (CommandEnd .rxcap s) (CommandEnd .rxcap s) (MissingByte .rxcap s) := by
  have hend : ∀ t, CaptureEnd s.capBegin t → CommandEnd .rxcap s t := fun t h =>
    h.end (sent := []) (.inl rfl) rfl rfl ⟨rfl, rfl⟩ ⟨rfl, rfl, rfl⟩ (List.append_nil _).symm (Nat.zero_add _)
      (by simp [Sends])
  exact (capRun_sat he).imp hend hend fun _ h => h.elim

theorem xcap_end {s : State} (he : s.err = 0) :
    (commandBody .xcap s).Sat (CommandEnd .xcap s) (CommandEnd .xcap s) (MissingByte .xcap s) := by
  change ((txBody s).andThen capRun).Sat _ _ _
  rcases txBody_cases s with ⟨req, hreq, hold⟩ | ⟨off, hoff, hnone, hstop⟩
  · obtain ⟨rest, htrace, hlen⟩ := s.sent_trace hreq
    have hend : ∀ t, CaptureEnd (s.sent req).capBegin t → CommandEnd .xcap s t := fun t h =>
      h.end (.inr rfl) rfl rfl ⟨rfl, rfl⟩ ⟨rfl, rfl, rfl⟩ htrace (congrArg (· + s.rxEvents) hlen) fun _ => ⟨rest, rfl⟩
    rw [txBody_eq_sent hreq hold, Flow.go_andThen]
    exact (capRun_sat (s := s.sent req) he).imp hend hend fun _ h => h.elim
  · rw [hstop]
    exact ⟨.tx, off, rfl, ⟨rfl, hoff⟩, hnone⟩

/-! ### Every transport command -/

/-- An accepted transport command runs to its end, or stops at a byte that it reads and that nothing has written. -/
theorem commandBody_sat {i : Instr} {s : State} (hi : isTransport i = true) (he : s.err = 0) (hl : s.legal i = true) :
    (commandBody i s).Sat (CommandEnd i s) (CommandEnd i s) (MissingByte i s) := by
  cases i with
  | nop | clrerr | srst | csclr | csadd _ | csget | cschk => cases hi
  | cmp r n a b => exact cmp_end a b he hl
  | waitlvl r l => exact waitlvl_end l he hl
  | txframe => exact txframe_end he
  | rxcap => exact rxcap_end he
  | rxcmp r => exact rxcmp_end he hl
  | xcap => exact xcap_end he
  | xcmp r => exact xcmp_end he hl

/-! ### The command as a whole -/

/-- What a command is and does is said of the same state with or without its word in OPR. -/
theorem beginCommand_eq (i : Instr) (s : State) (w : Word) :
    (s.beginCommand w).legal i = s.legal i ∧ (s.beginCommand w).eventBound i = s.eventBound i ∧
      MissingByte i (s.beginCommand w) = MissingByte i s := by
  cases i with
  | nop | clrerr | srst | csclr | csadd _ | csget | cschk | cmp _ _ _ _ | waitlvl _ _ | txframe | rxcap | rxcmp _
  | xcap | xcmp _ => exact ⟨rfl, rfl, rfl⟩

theorem CommandEnd.of_beginCommand {i : Instr} {s t : State} {w : Word} (h : CommandEnd i (s.beginCommand w) t) :
    CommandEnd i s t := by
  obtain ⟨-, hbound, -⟩ := beginCommand_eq i s w
  have hgrew := h.grew
  rw [hbound] at hgrew
  exact ⟨⟨h.kept.host, h.kept.buffers, h.kept.rrem, h.kept.polls, h.kept.datapath⟩, hgrew, h.idle, h.err, h.errInfo,
    h.sentLen, h.receivedLen, h.head⟩

theorem exec_of_legal_ends {i : Instr} {s : State} (hi : isTransport i = true) (hs : s.ready) (hl : s.legal i = true) :
    (∃ t, exec i s = .next t ∧ CommandEnd i s t) ∨ ∃ f, exec i s = .fault f ∧ MissingByte i s f := by
  obtain ⟨hlegal, -, hmiss⟩ := beginCommand_eq i s (encode i)
  have hsat := (commandBody_sat (s := s.beginCommand (encode i)) hi hs.2 (hlegal.trans hl)).outcome
  rw [← exec_of_legal hs hl hi, hmiss] at hsat
  exact hsat.imp_left fun ⟨t, ht, hend⟩ => ⟨t, ht, hend.of_beginCommand⟩

/-- What a command comes to, by what it leaves: refused, IllegalCommand, done at once, run to its end, or stopped. -/
theorem exec_ends (i : Instr) (s : State) :
    (exec i s = .next s.refuse ∧ ¬ s.ready) ∨
    (exec i s = .next (s.raiseError .illegalCommand 0 0 (wordOp (encode i))) ∧ s.ready ∧ s.legal i = false) ∨
    (isTransport i = false ∧ s.busy = false ∧ exec i s = .next (immediate i s)) ∨
    (isTransport i = true ∧ s.ready ∧ s.legal i = true ∧ ∃ t, exec i s = .next t ∧ CommandEnd i s t) ∨
    (isTransport i = true ∧ s.ready ∧ s.legal i = true ∧ ∃ f, exec i s = .fault f ∧ MissingByte i s f) := by
  rcases exec_cases i s with h | h | h | ⟨hi, hs, hl, -⟩
  · exact .inl h
  · exact .inr (.inl h)
  · exact .inr (.inr (.inl h))
  · rcases exec_of_legal_ends hi hs hl with h | h
    · exact .inr (.inr (.inr (.inl ⟨hi, hs, hl, h⟩)))
    · exact .inr (.inr (.inr (.inr ⟨hi, hs, hl, h⟩)))

end Sys2Proof.Machine
end

section
/-! The statements about what every command leaves (spec/60_exceptions.md, spec/70_reset_and_hazards.md). -/

namespace Sys2Proof.Machine

theorem ownErrors_clear (i : Instr) : (0 : BitVec 4) ∈ ownErrors i := by
  cases i with
  | nop | clrerr | srst | csclr | csadd _ | csget | cschk | cmp _ _ _ _ | waitlvl _ _ | txframe | rxcap | rxcmp _
  | xcap | xcmp _ => simp [ownErrors]

theorem immediate_err {i : Instr} {s : State} (he : s.err = 0) : (immediate i s).err = 0 := by
  cases i with
  | clrerr | srst => rfl
  | nop | csclr | csadd _ | csget | cschk | cmp _ _ _ _ | waitlvl _ _ | txframe | rxcap | rxcmp _ | xcap
  | xcmp _ => exact he

theorem immediate_trace (i : Instr) (s : State) : (immediate i s).trace = s.trace := by
  cases i with
  | nop | clrerr | srst | csclr | csadd _ | csget | cschk | cmp _ _ _ _ | waitlvl _ _ | txframe | rxcap | rxcmp _
  | xcap | xcmp _ => rfl

/-- Only a transport command has parameter tests. -/
theorem isTransport_of_illegal {i : Instr} {s : State} (h : s.legal i = false) : isTransport i = true := by
  cases i with
  | nop | clrerr | srst | csclr | csadd _ | csget | cschk => cases h
  | cmp _ _ _ _ | waitlvl _ _ | txframe | rxcap | rxcmp _ | xcap | xcmp _ => rfl

theorem ownErrors_illegal {i : Instr} (h : isTransport i = true) : (7 : BitVec 4) ∈ ownErrors i := by
  cases i with
  | nop | clrerr | srst | csclr | csadd _ | csget | cschk => cases h
  | cmp _ _ _ _ | waitlvl _ _ | txframe | rxcap | rxcmp _ | xcap | xcmp _ => simp [ownErrors]

/-- Settles O39: a command that its tests refuse ends as IllegalCommand, and one that runs in an error of its own. -/
theorem commandsEndOnlyInTheirOwnErrors : Obligations.CommandsEndOnlyInTheirOwnErrors := by
  intro i s t hs h
  have hgoal : t.err ∈ ownErrors i := by
    rcases exec_ends i s with ⟨-, hn⟩ | ⟨hx, -, hl⟩ | ⟨-, -, hx⟩ | ⟨-, -, -, u, hx, hend⟩ | ⟨-, -, -, f, hx, -⟩
    · exact absurd hs hn
    · obtain rfl := Host.Outcome.next.inj (hx.symm.trans h)
      rw [State.raiseError_of_clear _ _ _ _ _ hs.2]
      exact ownErrors_illegal (isTransport_of_illegal hl)
    · obtain rfl := Host.Outcome.next.inj (hx.symm.trans h)
      rw [immediate_err hs.2]
      exact ownErrors_clear i
    · obtain rfl := Host.Outcome.next.inj (hx.symm.trans h)
      exact hend.err
    · cases hx.symm.trans h
  cases i with
  | nop | clrerr | srst | csclr | csadd _ | csget | cschk | cmp _ _ _ _ | waitlvl _ _ | txframe | rxcap | rxcmp _
  | xcap | xcmp _ => exact hgoal

/-- Settles O56: a transport command that is accepted stops at most at a byte that is missing. -/
theorem commandsStopOnlyAtUnwrittenBytes : Obligations.CommandsStopOnlyAtUnwrittenBytes := by
  intro i s
  rcases exec_ends i s with ⟨hx, -⟩ | ⟨hx, -⟩ | ⟨-, -, hx⟩ | ⟨-, -, -, u, hx, -⟩ | ⟨-, -, -, f, hx, hmiss⟩
  · exact .inl ⟨_, hx⟩
  · exact .inl ⟨_, hx⟩
  · exact .inl ⟨_, hx⟩
  · exact .inl ⟨_, hx⟩
  · obtain ⟨b, off, rfl, hread, hnone⟩ := hmiss
    refine .inr ⟨b, off, hx, hnone, ?_⟩
    cases i with
    | nop | clrerr | srst | csclr | csadd _ | csget | cschk | cmp _ _ _ _ | waitlvl _ _ | txframe | rxcap | rxcmp _
    | xcap | xcmp _ => exact hread

/-- Settles O54: only a command that runs takes events, and its end has counted them. -/
theorem commandEventsAreBounded : Obligations.CommandEventsAreBounded := by
  intro i s
  rcases exec_ends i s with ⟨hx, hn⟩ | ⟨hx, -, hl⟩ | ⟨hi, -, hx⟩ | ⟨-, hs, hl, u, hx, hend⟩ | ⟨-, hs, hl, f, hx, hmiss⟩
  · refine .inl ⟨_, [], hx, (List.append_nil _).symm, Nat.zero_le _, fun _ => rfl, fun _ hs => absurd hs hn⟩
  · refine .inl ⟨_, [], hx, (List.append_nil _).symm, Nat.zero_le _, fun _ => rfl, fun _ _ h => ?_⟩
    rw [hl] at h
    cases h
  · refine .inl ⟨_, [], hx, ?_, Nat.zero_le _, fun _ => rfl, fun h => ?_⟩
    · rw [immediate_trace, List.append_nil]
    · rw [h] at hi
      cases hi
  · obtain ⟨events, htrace, hle, heq⟩ := hend.grew
    refine .inl ⟨u, events, hx, htrace, hle, fun h => ?_, fun h _ _ => heq h⟩
    rcases h with h | h
    · exact absurd hs h
    · rw [hl] at h
      cases h
  · obtain ⟨b, off, rfl, -, hnone⟩ := hmiss
    exact .inr ⟨hs, hl, b, off, hx, hnone⟩

/-- The state without what a command writes that is refused, ends as IllegalCommand or is done at once, if it is not
SRST. -/
def State.sansDone (s : State) : State :=
  { s with
    csum := 0, fsm := .idle, busy := false, seq := false, allf := false, err := 0, resMask := 0, resValue := 0,
    errPos := 0, errMask := 0, errByte := 0 }

/-- What such a command leaves. -/
structure Done (i : Instr) (s t : State) : Prop where
  sans : t.sansDone = s.sansDone
  csum : i = .csclr ∨ (∃ a, i = .csadd a) ∨ t.csum = s.csum
  seq : i ≠ .clrerr → s.seq = true → t.seq = true

theorem immediate_done {i : Instr} (s : State) (hi : i ≠ .srst) : Done i s (immediate i s) := by
  cases i with
  | clrerr => exact ⟨rfl, .inr (.inr rfl), fun h => absurd rfl h⟩
  | srst => exact absurd rfl hi
  | csclr => exact ⟨rfl, .inl rfl, fun _ h => h⟩
  | csadd a => exact ⟨rfl, .inr (.inl ⟨a, rfl⟩), fun _ h => h⟩
  | nop | csget | cschk | cmp _ _ _ _ | waitlvl _ _ | txframe | rxcap | rxcmp _ | xcap | xcmp _ =>
    exact ⟨rfl, .inr (.inr rfl), fun _ h => h⟩

theorem exec_next_cases {i : Instr} {s t : State} (h : exec i s = .next t) (hi : i ≠ .srst) :
    Done i s t ∨ isTransport i = true ∧ CommandEnd i s t := by
  rcases exec_ends i s with ⟨hx, -⟩ | ⟨hx, -⟩ | ⟨-, -, hx⟩ | ⟨htr, -, -, u, hx, hend⟩ | ⟨-, -, -, f, hx, -⟩
  · obtain rfl := Host.Outcome.next.inj (hx.symm.trans h)
    exact .inl ⟨rfl, .inr (.inr rfl), fun _ _ => rfl⟩
  · obtain rfl := Host.Outcome.next.inj (hx.symm.trans h)
    exact .inl ⟨rfl, .inr (.inr rfl), fun _ hseq => hseq⟩
  · obtain rfl := Host.Outcome.next.inj (hx.symm.trans h)
    exact .inl (immediate_done s hi)
  · obtain rfl := Host.Outcome.next.inj (hx.symm.trans h)
    exact .inr ⟨htr, hend⟩
  · cases hx.symm.trans h

/-- Settles O52: a refusal, an error and a command done at once write a field or two, and a run keeps what its end
says. -/
theorem commandsKeepWhatIsNotTheirs : Obligations.CommandsKeepWhatIsNotTheirs := by
  intro i s t h hi
  rcases exec_next_cases h hi with ⟨hsans, hcsum, hseq⟩ | ⟨htr, hend⟩
  · exact ⟨(congrArg State.active hsans :), (congrArg State.txctl hsans :), (congrArg State.txlen hsans :),
      (congrArg State.rxctl hsans :), (congrArg State.rxlen hsans :), (congrArg State.budget hsans :),
      (congrArg State.timeout hsans :), (congrArg State.params hsans :), (congrArg State.port hsans :),
      (congrArg State.replies hsans :), (congrArg State.rst hsans :),
      fun _ _ => ⟨(congrArg State.rpos hsans :), (congrArg State.rsum hsans :), (congrArg State.ackc hsans :),
        (congrArg State.mem hsans :)⟩,
      fun _ => (congrArg State.rrem hsans :), fun _ => ⟨(congrArg State.trem hsans :), (congrArg State.levels hsans :)⟩,
      fun _ => ⟨(congrArg State.pos hsans :), (congrArg State.lenr hsans :), (congrArg State.fmask hsans :),
        (congrArg State.first hsans :), (congrArg State.firstv hsans :), hcsum⟩,
      fun _ => ⟨(congrArg State.opr hsans :), (congrArg State.trace hsans :), (congrArg State.samples hsans :),
        (congrArg State.draws hsans :)⟩, hseq⟩
  · obtain ⟨hhost, hbuf, hrrem, hpolls, hdata⟩ := hend.kept
    refine ⟨(congrArg State.active hhost :), (congrArg State.txctl hhost :), (congrArg State.txlen hhost :),
      (congrArg State.rxctl hhost :), (congrArg State.rxlen hhost :), (congrArg State.budget hhost :),
      (congrArg State.timeout hhost :), (congrArg State.params hhost :), (congrArg State.port hhost :),
      (congrArg State.replies hhost :), (congrArg State.rst hhost :), hbuf, hrrem, hpolls, fun hcomp => ?_,
      fun h => absurd htr (by rw [h]; exact Bool.false_ne_true),
      fun _ hseq => (congrArg State.seq hhost :).trans hseq⟩
    have hcomp' : (∃ r n a b, i = .cmp r n a b) ∨ ∃ r l, i = .waitlvl r l := by
      cases i with
      | cmp r n a b => exact .inl ⟨r, n, a, b, rfl⟩
      | waitlvl r l => exact .inr ⟨r, l, rfl⟩
      | nop | clrerr | srst | csclr | csadd _ | csget | cschk | txframe | rxcap | rxcmp _ | xcap | xcmp _ =>
        cases htr.symm.trans hcomp
    obtain ⟨hcsum, hpos, hlenr, hfmask, hfirst, hfirstv⟩ := hdata hcomp'
    exact ⟨hpos, hlenr, hfmask, hfirst, hfirstv, .inr (.inr hcsum)⟩

/-! ### The Len field (R94) -/

theorem hiByte_eq (x : Half) : hiByte x = BitVec.ofNat 8 (x.toNat / 256) := by
  apply BitVec.eq_of_toNat_eq
  simp [hiByte, Nat.shiftRight_eq_div_pow]

theorem loByte_eq (x : Half) : loByte x = BitVec.ofNat 8 (x.toNat % 256) := by
  apply BitVec.eq_of_toNat_eq
  simp [loByte]

theorem State.txLenOk_of_legal {s : State} {i : Instr} (hi : Sends i) (hl : s.legal i = true) : s.txLenOk = true := by
  rcases hi with rfl | rfl | ⟨r, rfl⟩
  · simp only [State.legal, State.txframeLegal, Bool.and_eq_true] at hl
    exact hl.2
  · simp only [State.legal, State.xcapLegal, Bool.and_eq_true] at hl
    exact hl.1.2
  · simp only [State.legal, State.xcmpLegal, Bool.and_eq_true] at hl
    exact hl.1.1.2

theorem State.rxLenOk_of_legal {s : State} {i : Instr} (hi : Receives i) (hl : s.legal i = true) :
    s.rxLenOk = true := by
  rcases hi with rfl | rfl | ⟨r, rfl⟩ | ⟨r, rfl⟩
  · exact State.rxLenOk_of_rxcapLegal hl
  · simp only [State.legal, State.xcapLegal, Bool.and_eq_true] at hl
    exact hl.1.1.2
  · simp only [State.legal, State.rxcmpLegal, Bool.and_eq_true] at hl
    exact hl.1.1.2
  · simp only [State.legal, State.xcmpLegal, Bool.and_eq_true] at hl
    exact hl.1.1.1.2

/-- A command that fails its tests ends in an idle block as IllegalCommand. -/
theorem exec_illegal_of_idle {i : Instr} {s : State} (hs : s.ready) (hf : s.fsm = .idle) (hl : s.legal i = false) :
    exec i s = .next { s with err := 7, errPos := 0, errMask := 0, errByte := wordOp (encode i) } := by
  rw [exec_eq_accept (isTransport_of_illegal hl), hl]
  exact s.accept_illegal_of_idle hs hf _ _

/-- Settles O57: the tests refuse a Len that does not fit, and one that fits is LENR, sent high byte first. -/
theorem lenFieldNeverWraps : Obligations.LenFieldNeverWraps := by
  intro i s hs txLen rxLen sends receives
  constructor
  · intro hf hlong
    refine exec_illegal_of_idle hs hf (Bool.eq_false_iff.2 fun hl => ?_)
    rcases hlong with ⟨hsend, hlong⟩ | ⟨hrecv, hlong⟩
    · exact absurd (s.txLenOk_iff.1 (State.txLenOk_of_legal hsend hl)).2 (Nat.not_le_of_lt hlong)
    · exact absurd (s.rxLenOk_iff.1 (State.rxLenOk_of_legal hrecv hl)).2 (Nat.not_le_of_lt hlong)
  · intro t hl h
    have htr : sends ∨ receives → isTransport i = true := by
      rintro ((rfl | rfl | ⟨r, rfl⟩) | rfl | rfl | ⟨r, rfl⟩ | ⟨r, rfl⟩) <;> rfl
    have hend : sends ∨ receives → CommandEnd i s t := by
      intro hi
      rcases exec_of_legal_ends (htr hi) hs hl with ⟨u, hx, hend⟩ | ⟨f, hx, -⟩
      · obtain rfl := Host.Outcome.next.inj (hx.symm.trans h)
        exact hend
      · cases hx.symm.trans h
    refine ⟨fun hi => ?_, fun hi => ?_, fun hi => ?_⟩
    · rw [(hend (.inl (.inl hi))).sentLen hi]
      exact State.txLenField_toNat (State.txLenOk_of_legal (.inl hi) hl)
    · rw [(hend (.inr hi)).receivedLen hi]
      exact State.rxLenField_toNat (State.rxLenOk_of_legal hi hl)
    · obtain ⟨rest, hrest⟩ := (hend (.inl hi)).head hi
      have hlen : txLen = s.txLenField.toNat := (State.txLenField_toNat (State.txLenOk_of_legal hi hl)).symm
      refine ⟨rest, ?_⟩
      rw [hrest, hlen, ← hiByte_eq, ← loByte_eq, List.append_assoc]
      rfl

end Sys2Proof.Machine
end

section
/-! SUPPORT. Two runs whose transport answers differ on inactive channels only (R8, R150, R193): which fields of two
states may differ, what a step makes of them, and that no part of a command's body reads the difference. -/

namespace Sys2Proof.Machine

/-! ### What the comparator and a capture see of an answer (R150, R193) -/

theorem lanePick_agree {act : Mask} {o o' : Lanes} (hact : act ≠ 0) (h : Lanes.agree act o o') :
    lanePick act o = lanePick act o' := by
  have hlane : act.getLsbD 0 = false → act.getLsbD 1 = false → act.getLsbD 2 = false → act.getLsbD 3 = true := by
    clear h
    revert hact act
    decide
  unfold lanePick
  by_cases h0 : act.getLsbD 0 = true
  · rw [if_pos h0, if_pos h0, h.lane0 h0]
  rw [if_neg h0, if_neg h0]
  by_cases h1 : act.getLsbD 1 = true
  · rw [if_pos h1, if_pos h1, h.lane1 h1]
  rw [if_neg h1, if_neg h1]
  by_cases h2 : act.getLsbD 2 = true
  · rw [if_pos h2, if_pos h2, h.lane2 h2]
  rw [if_neg h2, if_neg h2]
  exact h.lane3 (hlane (Bool.eq_false_iff.2 h0) (Bool.eq_false_iff.2 h1) (Bool.eq_false_iff.2 h2))

theorem Lanes.agree.lane {act : Mask} {o o' : Lanes} (h : Lanes.agree act o o') (c : Fin 4)
    (hc : act.getLsbD c.val = true) : o.lane c = o'.lane c := by
  match c with
  | 0 => exact h.lane0 hc
  | 1 => exact h.lane1 hc
  | 2 => exact h.lane2 hc
  | 3 => exact h.lane3 hc

/-- On the active channels the comparator sees two answers that agree there alike (R150, R151). -/
theorem diverge_agree {act : Mask} {o o' : Lanes} (h : Lanes.agree act o o') (e ign : Byte) (n : Nat) :
    act &&& diverge o e ign n = act &&& diverge o' e ign n := by
  refine BitVec.eq_of_getLsbD_eq fun i hi => ?_
  have hbit := getLsbD_diverge o e ign n ⟨i, hi⟩
  have hbit' := getLsbD_diverge o' e ign n ⟨i, hi⟩
  simp only at hbit hbit'
  rw [BitVec.getLsbD_and, BitVec.getLsbD_and, hbit, hbit']
  rcases Bool.eq_false_or_eq_true (act.getLsbD i) with ha | ha
  · rw [h.lane ⟨i, hi⟩ ha]
  · rw [ha, Bool.false_and, Bool.false_and]

/-- Polls that agree on the active channels have the same mask (R151, R153). -/
theorem and_xor_congr {act x y : Mask} (h : act &&& x = act &&& y) (z : Mask) : act &&& (x ^^^ z) = act &&& (y ^^^ z) := by
  refine BitVec.eq_of_getLsbD_eq fun i _ => ?_
  have hbit := congrArg (·.getLsbD i) h
  simp only [BitVec.getLsbD_and, BitVec.getLsbD_xor] at hbit ⊢
  rcases Bool.eq_false_or_eq_true (act.getLsbD i) with ha | ha
  · rw [ha, Bool.true_and, Bool.true_and] at hbit
    rw [hbit]
  · rw [ha, Bool.false_and, Bool.false_and]

/-! ### Lists that agree element by element -/

theorem forall₂_headD {α : Type} {R : α → α → Prop} {as bs : List α} (h : List.Forall₂ R as bs) {d : α} (hd : R d d) :
    R (as.headD d) (bs.headD d) := by
  cases h with
  | nil => exact hd
  | cons hhead _ => exact hhead

theorem forall₂_isEmpty {α : Type} {R : α → α → Prop} {as bs : List α} (h : List.Forall₂ R as bs) :
    bs.isEmpty = as.isEmpty := by
  cases h with
  | nil => rfl
  | cons _ _ => rfl

/-! ### Two states -/

/-- The state with other coming answers and another trace. -/
def State.withAnswers (s : State) (samples : List Lanes) (levels : List Mask) (trace : List Event) : State :=
  { s with samples := samples, levels := levels, trace := trace }

/-- The state `t` of a run that began in `s`, and what stands in its place where the transport would have answered `os`
and `lvs`: as many answers taken of each list, and a trace that agrees on the active channels. -/
structure Answered (s : State) (os : List Lanes) (lvs : List Mask) (t : State) (samples : List Lanes)
    (levels : List Mask) (trace : List Event) : Prop where
  grew : ∃ es es', t.trace = s.trace ++ es ∧ trace = s.trace ++ es' ∧ List.Forall₂ (Event.agree s.active) es es'
  taken : ∃ k, t.samples = s.samples.drop k ∧ samples = os.drop k
  polled : ∃ m, t.levels = s.levels.drop m ∧ levels = lvs.drop m

/-- The two runs' states: all but answers and trace is equal. -/
def Alike (s : State) (os : List Lanes) (lvs : List Mask) (t t' : State) : Prop :=
  ∃ samples levels trace, t' = t.withAnswers samples levels trace ∧ Answered s os lvs t samples levels trace

/-- The same, before the command's end: ACTIVE is what it was. -/
def Twin (s : State) (os : List Lanes) (lvs : List Mask) (t t' : State) : Prop :=
  ∃ samples levels trace, t' = t.withAnswers samples levels trace ∧ t.active = s.active ∧
    Answered s os lvs t samples levels trace

/-- A function of the state that neither reads nor writes answers and trace, and leaves ACTIVE alone. -/
structure Plain (f : State → State) : Prop where
  answers : ∀ t a b c, f (t.withAnswers a b c) = (f t).withAnswers a b c
  active : ∀ t, (f t).active = t.active

theorem Plain.keeps {f : State → State} (hf : Plain f) (t : State) :
    (f t).samples = t.samples ∧ (f t).levels = t.levels ∧ (f t).trace = t.trace := by
  have h : f t = (f t).withAnswers t.samples t.levels t.trace := hf.answers t t.samples t.levels t.trace
  exact ⟨(congrArg State.samples h :), (congrArg State.levels h :), (congrArg State.trace h :)⟩

section
variable {s : State} {os : List Lanes} {lvs : List Mask} {t t' : State}

theorem Twin.same {α : Type} (h : Twin s os lvs t t') (g : State → α) (hg : ∀ t a b c, g (t.withAnswers a b c) = g t) :
    g t' = g t := by
  obtain ⟨a, b, c, rfl, -⟩ := h
  exact hg t a b c

theorem Twin.map {f : State → State} (h : Twin s os lvs t t') (hf : Plain f) : Twin s os lvs (f t) (f t') := by
  obtain ⟨a, b, c, rfl, hact, hgrew, htaken, hpolled⟩ := h
  obtain ⟨hsamples, hlevels, htrace⟩ := hf.keeps t
  refine ⟨a, b, c, hf.answers t a b c, (hf.active t).trans hact, ?_, ?_, ?_⟩
  · rwa [htrace]
  · rwa [hsamples]
  · rwa [hlevels]

theorem Twin.active (h : Twin s os lvs t t') : t.active = s.active ∧ t'.active = s.active := by
  obtain ⟨a, b, c, rfl, hact, -⟩ := h
  exact ⟨hact, hact⟩

theorem Twin.alike (h : Twin s os lvs t t') : Alike s os lvs t t' := by
  obtain ⟨a, b, c, heq, -, hans⟩ := h
  exact ⟨a, b, c, heq, hans⟩

/-- Events that agree are added to the two traces. -/
theorem Twin.event {e e' : Event} (h : Twin s os lvs t t') (he : Event.agree s.active e e') :
    Twin s os lvs { t with trace := t.trace ++ [e] } { t' with trace := t'.trace ++ [e'] } := by
  obtain ⟨a, b, c, rfl, hact, ⟨es, es', hes, hes', hagree⟩, htaken, hpolled⟩ := h
  refine ⟨a, b, c ++ [e'], rfl, hact, ⟨es ++ [e], es' ++ [e'], ?_, ?_, ?_⟩, htaken, hpolled⟩
  · rw [hes, List.append_assoc]
  · rw [hes', List.append_assoc]
  · exact List.rel_append hagree (.cons he .nil)

theorem Twin.send (h : Twin s os lvs t t') (v : Byte) : Twin s os lvs (t.send v) (t'.send v) := by
  obtain ⟨hact, hact'⟩ := h.active
  exact h.event (e := .send t.active v) (e' := .send t'.active v) ⟨hact.trans hact'.symm, rfl⟩

section
variable (hos : List.Forall₂ (Lanes.agree s.active) s.samples os)
include hos

theorem Twin.samples (h : Twin s os lvs t t') :
    List.Forall₂ (Lanes.agree s.active) t.samples t'.samples := by
  obtain ⟨a, b, c, rfl, -, -, ⟨k, hk, hk'⟩, -⟩ := h
  rw [hk]
  change List.Forall₂ _ _ a
  rw [hk']
  exact List.forall₂_drop k hos

theorem Twin.sampleValue (h : Twin s os lvs t t') (n : Nat) :
    Lanes.agree s.active (t.sampleValue n) (t'.sampleValue n) := by
  have hdraws := h.same State.draws fun _ _ _ _ => rfl
  rw [State.sampleValue, State.sampleValue, hdraws]
  exact (forall₂_headD (h.samples hos) (Lanes.agree.refl _ _)).lanesLow n

/-- The same number of samples is drawn in both runs, of the transport's answers or of free values. -/
theorem Twin.afterSample (h : Twin s os lvs t t') (n : Nat) : Twin s os lvs (t.afterSample n) (t'.afterSample n) := by
  have hval := h.sampleValue hos n
  have hempty := forall₂_isEmpty (h.samples hos)
  obtain ⟨a, b, c, rfl, hact, ⟨es, es', hes, hes', hagree⟩, ⟨k, hk, hk'⟩, hpolled⟩ := h
  refine ⟨a.tail, b, c ++ [.sample n ((t.withAnswers a b c).sampleValue n)], ?_, hact,
    ⟨es ++ [.sample n (t.sampleValue n)], es' ++ [.sample n ((t.withAnswers a b c).sampleValue n)], ?_, ?_, ?_⟩,
    ⟨k + 1, ?_, ?_⟩, hpolled⟩
  · rw [State.afterSample, hempty]
    rfl
  · rw [State.afterSample_trace, hes, List.append_assoc]
  · rw [hes', List.append_assoc]
  · exact List.rel_append hagree (.cons ⟨rfl, hval⟩ .nil)
  · rw [State.afterSample_samples, hk, List.tail_drop]
  · rw [hk', List.tail_drop]

theorem Twin.captureValue (hact : s.active ≠ 0) (h : Twin s os lvs t t') : t'.captureValue = t.captureValue := by
  obtain ⟨ha, ha'⟩ := h.active
  rw [State.captureValue, State.captureValue, ha, ha']
  exact (lanePick_agree hact (h.sampleValue hos 8)).symm

theorem Twin.divergeMask (h : Twin s os lvs t t') (n : Nat) (e ign : Byte) :
    t'.active &&& diverge (t'.sampleValue n) e ign n = t.active &&& diverge (t.sampleValue n) e ign n := by
  obtain ⟨ha, ha'⟩ := h.active
  rw [ha, ha']
  exact (diverge_agree (h.sampleValue hos n) e ign n).symm

end

section
variable (hlvs : List.Forall₂ (fun lv lv' => s.active &&& lv = s.active &&& lv') s.levels lvs)
include hlvs

theorem Twin.levels (h : Twin s os lvs t t') :
    List.Forall₂ (fun lv lv' => s.active &&& lv = s.active &&& lv') t.levels t'.levels := by
  obtain ⟨a, b, c, rfl, -, -, -, k, hk, hk'⟩ := h
  rw [hk]
  change List.Forall₂ _ _ b
  rw [hk']
  exact List.forall₂_drop k hlvs

theorem Twin.levelValue (h : Twin s os lvs t t') : s.active &&& t.levelValue = s.active &&& t'.levelValue := by
  have hdraws := h.same State.draws fun _ _ _ _ => rfl
  rw [State.levelValue, State.levelValue, hdraws]
  exact forall₂_headD (h.levels hlvs) rfl

theorem Twin.afterLevel (h : Twin s os lvs t t') : Twin s os lvs t.afterLevel t'.afterLevel := by
  have hval := h.levelValue hlvs
  have hempty := forall₂_isEmpty (h.levels hlvs)
  obtain ⟨a, b, c, rfl, hact, ⟨es, es', hes, hes', hagree⟩, htaken, ⟨k, hk, hk'⟩⟩ := h
  refine ⟨a, b.tail, c ++ [.level (t.withAnswers a b c).levelValue], ?_, hact,
    ⟨es ++ [.level t.levelValue], es' ++ [.level (t.withAnswers a b c).levelValue], ?_, ?_, ?_⟩, htaken,
    ⟨k + 1, ?_, ?_⟩⟩
  · rw [State.afterLevel, hempty]
    rfl
  · rw [State.afterLevel_trace, hes, List.append_assoc]
  · rw [hes', List.append_assoc]
  · exact List.rel_append hagree (.cons hval .nil)
  · rw [State.afterLevel_levels, hk, List.tail_drop]
  · rw [hk', List.tail_drop]

theorem Twin.pollMask (h : Twin s os lvs t t') (l : Bool) : t'.pollMask l = t.pollMask l := by
  obtain ⟨ha, ha'⟩ := h.active
  rw [State.pollMask, State.pollMask, ha, ha']
  exact (and_xor_congr (h.levelValue hlvs) _).symm

end

/-! ### Two flows -/

/-- Two bodies that come to the same, in states that differ in answers only. -/
def Twins (s : State) (os : List Lanes) (lvs : List Mask) : Flow → Flow → Prop
  | .go t, .go t' => Twin s os lvs t t'
  | .raised t, .raised t' => Twin s os lvs t t'
  | .stop f, .stop f' => f = f'
  | _, _ => False

/-- A part of a body that two runs differing in answers only go through alike. -/
def Blind (s : State) (os : List Lanes) (lvs : List Mask) (k : State → Flow) : Prop :=
  ∀ t t', Twin s os lvs t t' → Twins s os lvs (k t) (k t')

theorem Twins.andThen {x x' : Flow} {k : State → Flow} (hx : Twins s os lvs x x') (hk : Blind s os lvs k) :
    Twins s os lvs (x.andThen k) (x'.andThen k) := by
  cases x with
  | go t =>
    cases x' with
    | go t' => exact hk t t' hx
    | raised t' => exact hx.elim
    | stop f' => exact hx.elim
  | raised t =>
    cases x' with
    | go t' => exact hx.elim
    | raised t' => exact hx
    | stop f' => exact hx.elim
  | stop f =>
    cases x' with
    | go t' => exact hx.elim
    | raised t' => exact hx.elim
    | stop f' => exact hx

theorem Blind.andThen {k k' : State → Flow} (hk : Blind s os lvs k) (hk' : Blind s os lvs k') :
    Blind s os lvs fun t => (k t).andThen k' :=
  fun t t' h => (hk t t' h).andThen hk'

theorem Twin.withRrem (h : Twin s os lvs t t') (n : Word) : Twin s os lvs { t with rrem := n } { t' with rrem := n } :=
  h.map (f := fun u => { u with rrem := n }) ⟨fun _ _ _ _ => rfl, fun _ => rfl⟩

theorem Blind.retryLoop {attempt : State → Flow} (h : Blind s os lvs attempt) (k : Nat) :
    Blind s os lvs (retryLoop attempt k) := by
  induction k with
  | zero => exact fun t t' ht => ht
  | succ k ih =>
    intro t t' ht
    have hrrem := ht.same State.rrem fun _ _ _ _ => rfl
    rw [Machine.retryLoop, Machine.retryLoop, hrrem]
    refine (h _ _ (ht.withRrem _)).andThen fun u u' hu => ?_
    have hmask := hu.same State.resMask fun _ _ _ _ => rfl
    have hleft := hu.same State.rrem fun _ _ _ _ => rfl
    simp only [hmask, hleft]
    split
    · exact hu
    · exact ih u u' hu

theorem Blind.runAttempts {attempt : State → Flow} (h : Blind s os lvs attempt) (r : Bool) :
    Blind s os lvs (runAttempts r attempt) := by
  intro t t' ht
  cases r with
  | false => exact h t t' ht
  | true =>
    have hbudget := ht.same (fun u => u.budget.toNat) fun _ _ _ _ => rfl
    have hstart : Twin s os lvs { t with rrem := t.budget } { t' with rrem := t'.budget } :=
      ht.map (f := fun u => { u with rrem := u.budget }) ⟨fun _ _ _ _ => rfl, fun _ => rfl⟩
    rw [Machine.runAttempts, Machine.runAttempts, if_pos rfl, if_pos rfl, hbudget]
    exact h.retryLoop _ _ _ hstart

/-! ### Sending (R170) -/

theorem plain_writeResult (m : Mask) (v : Byte) : Plain fun t => t.writeResult m v :=
  ⟨fun _ _ _ _ => rfl, fun _ => rfl⟩

theorem Twin.sendCovered (h : Twin s os lvs t t') (v : Byte) : Twin s os lvs (t.sendCovered v) (t'.sendCovered v) :=
  (h.send v).map (f := fun u => { u with csum := u.csum + v }) ⟨fun _ _ _ _ => rfl, fun _ => rfl⟩

theorem Twin.sendAck (h : Twin s os lvs t t') : Twin s os lvs t.sendAck t'.sendAck := by
  rw [State.sendAck, State.sendAck, h.same State.txctl fun _ _ _ _ => rfl]
  split
  · exact h.sendCovered _
  · exact h

theorem Twin.sendHeader (h : Twin s os lvs t t') : Twin s os lvs t.sendHeader t'.sendHeader := by
  have hctl := h.same State.txctl fun _ _ _ _ => rfl
  have hlen := h.same State.lenr fun _ _ _ _ => rfl
  rw [State.sendHeader, State.sendHeader, hctl, hlen]
  exact (((h.send _).sendCovered _).sendCovered _).sendAck

theorem blind_sendPayload (k : Nat) : Blind s os lvs (sendPayload k) := by
  induction k with
  | zero => exact fun t t' h => h
  | succ k ih =>
    intro t t' h
    have hbyte := h.same (fun u => u.bufAtPos .tx) fun _ _ _ _ => rfl
    have hpos := h.same State.pos fun _ _ _ _ => rfl
    simp only [sendPayload, hbyte, hpos]
    cases t.bufAtPos .tx with
    | none => rfl
    | some v =>
      exact ih _ _ ((h.sendCovered v).map (f := fun u => { u with pos := t.pos + 1 })
        ⟨fun _ _ _ _ => rfl, fun _ => rfl⟩)

theorem blind_txBody : Blind s os lvs txBody := by
  intro t t' h
  have hlen := h.same State.txlen fun _ _ _ _ => rfl
  have hstart : Twin s os lvs t.txBegin.sendHeader t'.txBegin.sendHeader :=
    (h.map (f := State.txBegin) ⟨fun _ _ _ _ => rfl, fun _ => rfl⟩).sendHeader
  rw [txBody, txBody, hlen]
  refine (blind_sendPayload _ _ _ hstart).andThen fun u u' hu => ?_
  have hcsum := hu.same State.csum fun _ _ _ _ => rfl
  have hctl := hu.same State.txctl fun _ _ _ _ => rfl
  simp only [State.sendTrailer, hcsum, hctl]
  exact (hu.send _).send _

/-! ### Receiving (R193, R197) -/

section
variable (hos : List.Forall₂ (Lanes.agree s.active) s.samples os)
include hos

section
variable (hact : s.active ≠ 0)
include hact

theorem blind_capStructural (e : Byte) (idx : Half) (covered : Bool) :
    Blind s os lvs (capStructural e idx covered) := by
  intro t t' h
  have hval := h.captureValue hos hact
  rw [capStructural, capStructural, hval]
  split
  · exact (h.afterSample hos 8).map
      (f := fun u => { u with csum := if covered then u.csum + t.captureValue else u.csum })
      ⟨fun _ _ _ _ => rfl, fun _ => rfl⟩
  · exact (h.afterSample hos 8).map (f := fun u => u.raiseInCapture .frameDecodeError idx t.captureValue)
      ⟨fun _ _ _ _ => rfl, fun _ => rfl⟩

theorem Twin.capPayload (k : Nat) (h : Twin s os lvs t t') : Twin s os lvs (capPayload k t) (capPayload k t') := by
  induction k generalizing t t' with
  | zero => exact h
  | succ k ih =>
    refine ih ?_
    rw [State.capPayloadByte, State.capPayloadByte, h.captureValue hos hact]
    exact (h.afterSample hos 8).map (f := fun u => { u with
        mem := u.mem.write (Buf.rx.addr u.rpos.toNat) t.captureValue
        rpos := u.rpos + 1
        rsum := u.rsum + t.captureValue
        csum := u.csum + t.captureValue
        pos := u.pos + 1 })
      ⟨fun _ _ _ _ => rfl, fun _ => rfl⟩

theorem Twin.capAckIfAny (h : Twin s os lvs t t') : Twin s os lvs t.capAckIfAny t'.capAckIfAny := by
  rw [State.capAckIfAny, State.capAckIfAny, h.same State.rxctl fun _ _ _ _ => rfl]
  split
  · rw [State.capAck, State.capAck, h.captureValue hos hact]
    exact (h.afterSample hos 8).map
      (f := fun u => { u with ackc := t.captureValue, csum := u.csum + t.captureValue })
      ⟨fun _ _ _ _ => rfl, fun _ => rfl⟩
  · exact h

theorem Twin.capCsum (h : Twin s os lvs t t') : Twin s os lvs t.capCsum t'.capCsum := by
  rw [State.capCsum, State.capCsum, h.captureValue hos hact]
  exact (h.afterSample hos 8).map (f := fun u => { u with csum := u.csum + t.captureValue })
    ⟨fun _ _ _ _ => rfl, fun _ => rfl⟩

omit hos hact in
theorem blind_capCheckSum : Blind s os lvs capCheckSum := by
  intro t t' h
  have hcsum := h.same State.csum fun _ _ _ _ => rfl
  rw [capCheckSum, capCheckSum, hcsum, h.same State.lenr fun _ _ _ _ => rfl]
  split
  · exact h
  · exact h.map (f := fun u => u.raiseInCapture .checksumError (3 + t.lenr) t.csum)
      ⟨fun _ _ _ _ => rfl, fun _ => rfl⟩

theorem blind_capBody : Blind s os lvs capBody := by
  intro t t' h
  have hbegin : Twin s os lvs t.capBegin t'.capBegin :=
    h.map (f := State.capBegin) ⟨fun _ _ _ _ => rfl, fun _ => rfl⟩
  rw [capBody, capBody, h.same State.rxctl fun _ _ _ _ => rfl]
  refine (blind_capStructural hos hact _ _ _ _ _ hbegin).andThen fun t1 t1' h1 => ?_
  rw [h1.same State.lenr fun _ _ _ _ => rfl]
  refine (blind_capStructural hos hact _ _ _ _ _ h1).andThen fun t2 t2' h2 => ?_
  rw [h2.same State.lenr fun _ _ _ _ => rfl]
  refine (blind_capStructural hos hact _ _ _ _ _ h2).andThen fun t3 t3' h3 => ?_
  rw [h3.same State.lenr fun _ _ _ _ => rfl, h3.same State.rxlen fun _ _ _ _ => rfl]
  exact (blind_capStructural hos hact _ _ _ _ _
    (((h3.capAckIfAny hos hact).capPayload hos hact _).capCsum hos hact)).andThen blind_capCheckSum

theorem blind_capRun : Blind s os lvs capRun := fun t t' h =>
  (blind_capBody hos hact t t' h).andThen fun _ _ hu =>
    hu.map (f := State.capEnd) ⟨fun _ _ _ _ => rfl, fun _ => rfl⟩

end

theorem Twin.hit (h : Twin s os lvs t t') (e ign : Byte) (idx : Half) :
    Twin s os lvs (t.hit e ign idx) (t'.hit e ign idx) := by
  have hmask : t'.hitMask e ign = t.hitMask e ign := h.divergeMask hos 8 e ign
  rw [State.hit, State.hit, hmask]
  exact (h.afterSample hos 8).map (f := fun u => { u with
      first := if t.hitMask e ign ≠ 0 ∧ u.firstv = false then idx else u.first
      firstv := u.firstv || t.hitMask e ign != 0
      fmask := u.fmask ||| t.hitMask e ign })
    ⟨fun _ _ _ _ => rfl, fun _ => rfl⟩

theorem Twin.hitCovered (h : Twin s os lvs t t') (e ign : Byte) (idx : Half) :
    Twin s os lvs (t.hitCovered e ign idx) (t'.hitCovered e ign idx) :=
  (h.hit hos e ign idx).map (f := fun u => { u with csum := u.csum + e }) ⟨fun _ _ _ _ => rfl, fun _ => rfl⟩

theorem Twin.hitHeader (h : Twin s os lvs t t') : Twin s os lvs t.hitHeader t'.hitHeader := by
  rw [State.hitHeader, State.hitHeader, h.same State.rxctl fun _ _ _ _ => rfl, h.same State.lenr fun _ _ _ _ => rfl]
  have hlen := ((h.hit hos (startMarker t.rxctl.kind) 0x00 0).hitCovered hos (hiByte t.lenr) 0x00 1).hitCovered hos
    (loByte t.lenr) 0x00 2
  rw [State.hitAckIfAny, State.hitAckIfAny, hlen.same State.rxctl fun _ _ _ _ => rfl]
  split
  · exact hlen.hitCovered hos _ _ _
  · exact hlen

theorem blind_hitPayload (k : Nat) : Blind s os lvs (hitPayload k) := by
  induction k with
  | zero => exact fun t t' h => h
  | succ k ih =>
    intro t t' h
    have hrx := h.same (fun u => u.bufAtPos .rx) fun _ _ _ _ => rfl
    have hign := h.same (fun u => u.bufAtPos .ign) fun _ _ _ _ => rfl
    have hpos := h.same State.pos fun _ _ _ _ => rfl
    have hidx := h.same State.rxPayloadIndex fun _ _ _ _ => rfl
    simp only [hitPayload, hrx, hign, hpos, hidx]
    cases t.bufAtPos .rx with
    | none => rfl
    | some e =>
      cases t.bufAtPos .ign with
      | none => rfl
      | some g =>
        exact ih _ _ ((h.hitCovered hos e g t.rxPayloadIndex).map (f := fun u => { u with pos := t.pos + 1 })
          ⟨fun _ _ _ _ => rfl, fun _ => rfl⟩)

theorem Twin.hitTrailer (h : Twin s os lvs t t') : Twin s os lvs t.hitTrailer t'.hitTrailer := by
  rw [State.hitTrailer, State.hitTrailer, h.same State.csum fun _ _ _ _ => rfl, h.same State.lenr fun _ _ _ _ => rfl,
    h.same State.rxctl fun _ _ _ _ => rfl]
  exact (h.hit hos _ _ _).hit hos _ _ _

theorem blind_rxcmpAttempt : Blind s os lvs rxcmpAttempt := by
  intro t t' h
  have hstart : Twin s os lvs t.rxcmpBegin.hitHeader t'.rxcmpBegin.hitHeader :=
    (h.map (f := State.rxcmpBegin) ⟨fun _ _ _ _ => rfl, fun _ => rfl⟩).hitHeader hos
  rw [rxcmpAttempt, rxcmpAttempt, h.same State.rxlen fun _ _ _ _ => rfl]
  refine (blind_hitPayload hos _ _ _ hstart).andThen fun u u' hu => ?_
  have hend := hu.hitTrailer hos
  rw [hend.same State.fmask fun _ _ _ _ => rfl, hu.same State.csum fun _ _ _ _ => rfl]
  exact hend.map (plain_writeResult _ _)

theorem blind_xcmpAttempt : Blind s os lvs xcmpAttempt := blind_txBody.andThen (blind_rxcmpAttempt hos)

/-! ### The comparator commands (R152, R153) -/

theorem blind_cmpAttempt (n : Nat) (a b : Byte) : Blind s os lvs (cmpAttempt n a b) := by
  intro t t' h
  have hmask : t'.cmpMask n a b = t.cmpMask n a b := h.divergeMask hos n a b
  rw [cmpAttempt, cmpAttempt, hmask]
  exact (h.afterSample hos n).map (plain_writeResult _ _)

end

section
variable (hlvs : List.Forall₂ (fun lv lv' => s.active &&& lv = s.active &&& lv') s.levels lvs)
include hlvs

theorem Twin.pollLoop (l : Bool) (k : Nat) (h : Twin s os lvs t t') :
    Twin s os lvs (pollLoop l k t) (pollLoop l k t') := by
  induction k generalizing t t' with
  | zero => exact h
  | succ k ih =>
    have hpoll : Twin s os lvs t.afterPoll t'.afterPoll :=
      (h.afterLevel hlvs).map (f := fun u => { u with trem := u.trem - 1 }) ⟨fun _ _ _ _ => rfl, fun _ => rfl⟩
    rw [Machine.pollLoop, Machine.pollLoop, h.pollMask hlvs, hpoll.same State.trem fun _ _ _ _ => rfl]
    split
    · exact hpoll.map (plain_writeResult _ _)
    · exact ih hpoll

theorem blind_waitlvlAttempt (l : Bool) : Blind s os lvs (waitlvlAttempt l) := by
  intro t t' h
  have htime := h.same (fun u => u.timeout.toNat) fun _ _ _ _ => rfl
  have hstart : Twin s os lvs { t with trem := t.timeout } { t' with trem := t'.timeout } :=
    h.map (f := fun u => { u with trem := u.timeout }) ⟨fun _ _ _ _ => rfl, fun _ => rfl⟩
  rw [waitlvlAttempt, waitlvlAttempt, htime]
  exact hstart.pollLoop hlvs l _

end

/-! ### Whole commands -/

theorem plain_finish (k : ErrKind) (p : Half) : Plain fun t => t.finish k p := by
  constructor
  · intro t a b c
    by_cases h : t.resMask = 0
    · have h' : (t.withAnswers a b c).resMask = 0 := h
      simp only [State.finish, if_pos h, if_pos h']
      rfl
    · have h' : (t.withAnswers a b c).resMask ≠ 0 := h
      simp only [State.finish, if_neg h, if_neg h']
      rfl
  · intro t
    by_cases h : t.resMask = 0
    · simp only [State.finish, if_pos h]
      rfl
    · simp only [State.finish, if_neg h]
      rfl

theorem blind_finish (k : ErrKind) (p : State → Half) (hp : ∀ t a b c, p (t.withAnswers a b c) = p t) :
    Blind s os lvs fun t => .go (t.finish k (p t)) := by
  intro t t' h
  simp only [h.same p hp]
  exact h.map (plain_finish k (p t))

section
variable (hos : List.Forall₂ (Lanes.agree s.active) s.samples os)
  (hlvs : List.Forall₂ (fun lv lv' => s.active &&& lv = s.active &&& lv') s.levels lvs)
include hos hlvs

/-- No transport command reads what an inactive channel answers. -/
theorem blind_commandBody {i : Instr} (hact : s.active ≠ 0) (hi : isTransport i = true) :
    Blind s os lvs (commandBody i) := by
  cases i with
  | nop | clrerr | srst | csclr | csadd _ | csget | cschk => cases hi
  | cmp r n a b =>
    exact ((blind_cmpAttempt hos n.toNat a b).runAttempts r).andThen (blind_finish _ (fun _ => 0) fun _ _ _ _ => rfl)
  | waitlvl r l =>
    exact ((blind_waitlvlAttempt hlvs l).runAttempts r).andThen (blind_finish _ (fun _ => 0) fun _ _ _ _ => rfl)
  | txframe =>
    exact blind_txBody.andThen fun t t' h =>
      h.map (f := fun u => (u.writeResult 0 (0 - u.csum)).endCommand) ⟨fun _ _ _ _ => rfl, fun _ => rfl⟩
  | rxcap => exact blind_capRun hos hact
  | rxcmp r => exact ((blind_rxcmpAttempt hos).runAttempts r).andThen (blind_finish _ State.first fun _ _ _ _ => rfl)
  | xcap => exact blind_txBody.andThen (blind_capRun hos hact)
  | xcmp r => exact ((blind_xcmpAttempt hos).runAttempts r).andThen (blind_finish _ State.first fun _ _ _ _ => rfl)

end

/-- Two outcomes that differ in answers only. -/
def Outcomes (s : State) (os : List Lanes) (lvs : List Mask) :
    Host.Outcome State Fault Refusal → Host.Outcome State Fault Refusal → Prop
  | .next t, .next t' => Alike s os lvs t t'
  | .fault f, .fault f' => f = f'
  | _, _ => False

theorem Twins.outcome {x x' : Flow} (h : Twins s os lvs x x') : Outcomes s os lvs x.outcome x'.outcome := by
  cases x with
  | go t =>
    cases x' with
    | go t' => exact Twin.alike h
    | raised t' => exact h.elim
    | stop f' => exact h.elim
  | raised t =>
    cases x' with
    | go t' => exact h.elim
    | raised t' => exact Twin.alike h
    | stop f' => exact h.elim
  | stop f =>
    cases x' with
    | go t' => exact h.elim
    | raised t' => exact h.elim
    | stop f' => exact h

theorem Twin.accept (h : Twin s os lvs t t') (w : Word) (legal : Bool)
    {run : State → Host.Outcome State Fault Refusal} (hrun : legal = true → Outcomes s os lvs (run t) (run t')) :
    Outcomes s os lvs (t.accept w legal run) (t'.accept w legal run) := by
  rw [State.accept, State.accept, h.same State.busy fun _ _ _ _ => rfl, h.same State.err fun _ _ _ _ => rfl]
  split
  · exact (h.map (f := State.refuse) ⟨fun _ _ _ _ => rfl, fun _ => rfl⟩).alike
  split
  · exact (h.map (f := State.refuse) ⟨fun _ _ _ _ => rfl, fun _ => rfl⟩).alike
  split
  · next hl => exact hrun hl
  · exact (h.map (f := fun u => u.raiseError .illegalCommand 0 0 (wordOp w)) ⟨fun _ _ _ _ => rfl, fun _ => rfl⟩).alike

theorem Twin.acceptAlways (h : Twin s os lvs t t') {run : State → State} (hrun : Alike s os lvs (run t) (run t')) :
    Outcomes s os lvs (t.acceptAlways run) (t'.acceptAlways run) := by
  rw [State.acceptAlways, State.acceptAlways, h.same State.busy fun _ _ _ _ => rfl]
  split
  · exact (h.map (f := State.refuse) ⟨fun _ _ _ _ => rfl, fun _ => rfl⟩).alike
  · exact hrun

theorem Twin.immediate (h : Twin s os lvs t t') (i : Instr) :
    Alike s os lvs (immediate i t) (immediate i t') := by
  cases i with
  | srst =>
    obtain ⟨a, b, c, rfl, -, hgrew, htaken, hpolled⟩ := h
    exact ⟨a, b, c, rfl, hgrew, htaken, hpolled⟩
  | nop | clrerr | csclr | csadd _ | csget | cschk | cmp _ _ _ _ | waitlvl _ _ | txframe | rxcap | rxcmp _ | xcap
  | xcmp _ => exact (h.map (f := Machine.immediate _) ⟨fun _ _ _ _ => rfl, fun _ => rfl⟩).alike

end

/-- Every transport command's tests ask for an active channel (R154, R171, R192). -/
theorem active_ne_zero_of_legal {i : Instr} {s : State} (hi : isTransport i = true) (hl : s.legal i = true) :
    s.active ≠ 0 := by
  have hsome : s.someActive = true := by
    cases i with
    | nop | clrerr | srst | csclr | csadd _ | csget | cschk => cases hi
    | cmp _ _ _ _ | waitlvl _ _ | txframe | rxcap | rxcmp _ | xcap | xcmp _ =>
      simp only [State.legal, State.cmpLegal, State.waitlvlLegal, State.txframeLegal, State.rxcapLegal,
        State.rxcmpLegal, State.xcapLegal, State.xcmpLegal, Bool.and_eq_true] at hl
      tauto
  exact bne_iff_ne.1 hsome

/-- How a command that completes at once is accepted does not depend on the state. -/
theorem exec_immediate_forall {i : Instr} (hi : isTransport i = false) :
    (∀ s, exec i s = s.acceptAlways (immediate i)) ∨
    ∀ s, exec i s = s.accept (encode i) true fun t => .next (immediate i t) := by
  cases i with
  | nop | clrerr | srst => exact .inl fun _ => rfl
  | csclr | csadd _ | csget | cschk => exact .inr fun _ => rfl
  | cmp _ _ _ _ | waitlvl _ _ | txframe | rxcap | rxcmp _ | xcap | xcmp _ => cases hi

/-- A command comes to the same in two runs whose answers agree on the active channels. -/
theorem exec_outcomes (i : Instr) {s : State} {os : List Lanes} {lvs : List Mask}
    (hos : List.Forall₂ (Lanes.agree s.active) s.samples os)
    (hlvs : List.Forall₂ (fun lv lv' => s.active &&& lv = s.active &&& lv') s.levels lvs) :
    Outcomes s os lvs (exec i s) (exec i { s with samples := os, levels := lvs }) := by
  have hstart : Twin s os lvs s { s with samples := os, levels := lvs } :=
    ⟨os, lvs, s.trace, rfl, rfl, ⟨[], [], by simp, by simp, .nil⟩, ⟨0, rfl, rfl⟩, ⟨0, rfl, rfl⟩⟩
  rcases Bool.eq_false_or_eq_true (isTransport i) with hi | hi
  · have hlegal : ∀ (t : State) a b c, (t.withAnswers a b c).legal i = t.legal i := by
      cases i with
      | nop | clrerr | srst | csclr | csadd _ | csget | cschk | cmp _ _ _ _ | waitlvl _ _ | txframe | rxcap | rxcmp _
      | xcap | xcmp _ => exact fun _ _ _ _ => rfl
    rw [exec_eq_accept hi, exec_eq_accept hi, hstart.same (fun t => t.legal i) hlegal]
    refine hstart.accept _ _ fun hl => ?_
    have hbegin := hstart.map (f := fun t => t.beginCommand (encode i)) ⟨fun _ _ _ _ => rfl, fun _ => rfl⟩
    exact (blind_commandBody hos hlvs (active_ne_zero_of_legal hi hl) hi _ _ hbegin).outcome
  · rcases exec_immediate_forall hi with h | h
    · rw [h, h]
      exact hstart.acceptAlways (hstart.immediate i)
    · rw [h, h]
      exact hstart.accept _ _ fun _ => hstart.immediate i

end Sys2Proof.Machine
end

section
/-! The statement about inactive channels (spec/00_scope.md section 7). -/

namespace Sys2Proof.Machine

/-- Settles O55: a command's body goes through the two runs alike, and its acceptance reads no answer. -/
theorem inactiveChannelsAreNeverRead : Obligations.InactiveChannelsAreNeverRead := by
  intro i s os lvs hos hlvs
  have hout := exec_outcomes i hos hlvs
  constructor
  · intro t ht
    rw [ht] at hout
    cases ht' : exec i { s with samples := os, levels := lvs } with
    | next t' =>
      rw [ht'] at hout
      obtain ⟨a, b, c, rfl, ⟨es, es', hes, hes', hagree⟩, ⟨k, hk, hk'⟩, ⟨m, hm, hm'⟩⟩ := hout
      exact ⟨_, es, es', k, m, rfl, hes, hes', hagree, hk, hk', hm, hm', rfl⟩
    | fault f =>
      rw [ht'] at hout
      exact hout.elim
    | refused r =>
      rw [ht'] at hout
      exact hout.elim
  · intro f hf
    rw [hf] at hout
    cases hf' : exec i { s with samples := os, levels := lvs } with
    | next t' =>
      rw [hf'] at hout
      exact hout.elim
    | fault f' =>
      rw [hf'] at hout
      rw [show f = f' from hout]
    | refused r =>
      rw [hf'] at hout
      exact hout.elim

end Sys2Proof.Machine
end

section
/-! SUPPORT. What one step of the machine can be (log entries 1 and 2): to keep a predicate it is enough to keep it in
each of the things a step does. -/

namespace Sys2Proof.Machine

/-- A predicate of the state that each of the things a step does keeps. -/
structure StepKeeps (I : State → Prop) : Prop where
  port : ∀ s rest, I s → I { s with port := rest }
  answer : ∀ s ok d n, I s → I (({ s with draws := n } : State).answer ok d)
  refuse : ∀ s, I s → s.rst = false → I s.refuse
  reg : ∀ s d r, I s → s.rst = false → s.busy = false → I (s.writeReg d r)
  byte : ∀ s k v, I s → s.rst = false → s.busy = false → inWindow s.params k = true → I { s with mem := s.mem.write k v }
  command : ∀ s t i, I s → s.rst = false → exec i s = .next t → I t
  illegal : ∀ s b, I s → s.rst = false → s.ready → I (s.raiseError .illegalCommand 0 0 b)
  start : ∀ s w i, I s → s.rst = false → s.ready → decode w = .ok i → isTransport i = true → s.legal i = true →
    I (s.commandStart w)
  block : ∀ s, I s → s.rst = false → s.fsmFlow.Sat I I fun _ => True
  reset : ∀ s b, I s → I (s.setRst b)

section
variable {I : State → Prop} (hI : StepKeeps I)
include hI

theorem StepKeeps.replied {s : State} (hs : I s) (ok : Bool) (d : Word) : I (s.answer ok d) :=
  hI.answer s ok d s.draws hs

theorem StepKeeps.refusedAccess {s : State} (hs : I s) (hrst : s.rst = false) : I s.refuseAccess :=
  hI.replied (hI.refuse s hs hrst) true 0

/-- What `accept` comes to, where the run it guards keeps the predicate. -/
theorem StepKeeps.accept {s t : State} {w : Word} {legal : Bool} {run : State → Host.Outcome State Fault Refusal}
    (hs : I s) (hrst : s.rst = false) (hrun : s.ready → legal = true → run s = .next t → I t)
    (h : s.accept w legal run = .next t) : I t := by
  rcases s.accept_cases w legal run with ⟨hx, -⟩ | ⟨hx, hready, -⟩ | ⟨hx, hready, hl⟩
  · obtain rfl := Host.Outcome.next.inj (hx.symm.trans h)
    exact hI.refuse s hs hrst
  · obtain rfl := Host.Outcome.next.inj (hx.symm.trans h)
    exact hI.illegal s _ hs hrst hready
  · exact hrun hready hl (hx.symm.trans h)

theorem StepKeeps.illegalWord {s t : State} {w : Word} (hs : I s) (hrst : s.rst = false)
    (h : s.illegalWord w = .next t) : I t :=
  hI.accept hs hrst (fun _ hl => absurd hl Bool.false_ne_true) h

theorem StepKeeps.runWord {s t : State} {w : Word} (hs : I s) (hrst : s.rst = false) (h : runWord w s = .next t) :
    I t := by
  unfold Machine.runWord at h
  split at h
  · exact hI.command s t _ hs hrst h
  · exact hI.illegalWord hs hrst h

theorem StepKeeps.startWord {s t : State} {w : Word} (hs : I s) (hrst : s.rst = false)
    (h : startWord w s = .next t) : I t := by
  unfold Machine.startWord at h
  split at h
  · next i hw =>
    split at h
    · next hi =>
      refine hI.accept hs hrst (fun hready hl hx => ?_) h
      obtain rfl := Host.Outcome.next.inj hx
      exact hI.start s w i hs hrst hready hw hi hl
    · exact hI.command s t i hs hrst h
  · exact hI.illegalWord hs hrst h

theorem StepKeeps.hostWrite {s t : State} {a : Half} {sz : AccessSize} {d : Word} (hs : I s)
    (h : hostWrite a sz d s = .next t) : I t := by
  unfold Machine.hostWrite at h
  split at h
  · exact Host.Outcome.next.inj h ▸ hI.replied hs _ _
  next hrst =>
  have hrst := Bool.eq_false_iff.2 hrst
  split at h
  · exact Host.Outcome.next.inj h ▸ hI.replied hs _ _
  · split at h
    · exact hI.runWord (hI.replied hs _ _) hrst h
    split at h
    · exact Host.Outcome.next.inj h ▸ hI.replied hs _ _
    split at h
    · exact Host.Outcome.next.inj h ▸ hI.refusedAccess hs hrst
    next hb => exact Host.Outcome.next.inj h ▸ hI.replied (hI.reg s d _ hs hrst (Bool.eq_false_iff.2 hb)) _ _
  · next k htarget =>
    split at h
    · exact Host.Outcome.next.inj h ▸ hI.refusedAccess hs hrst
    next hb =>
    have hk : inWindow s.params k = true := by
      cases sz with
      | four =>
        rw [target, Option.map_eq_some_iff] at htarget
        obtain ⟨r, -, hr⟩ := htarget
        cases hr
      | one =>
        rw [target] at htarget
        split at htarget
        · next hw => cases htarget; exact hw
        · cases htarget
    exact Host.Outcome.next.inj h ▸ hI.replied (hI.byte s k _ hs hrst (Bool.eq_false_iff.2 hb) hk) _ _

theorem StepKeeps.hostRead {s : State} (a : Half) (sz : AccessSize) (hs : I s) : I (hostRead a sz s) := by
  rcases Bool.eq_false_or_eq_true s.rst with hrst | hrst
  · rw [hostRead_of_rst a sz hrst]
    exact hI.replied hs _ _
  rcases hostRead_cases a sz s with ⟨ok, d, n, h⟩ | ⟨-, h⟩
  · exact h ▸ hI.answer s ok d n hs
  · exact h ▸ hI.refusedAccess hs hrst

theorem StepKeeps.hostPost {s t : State} {w : Word} (hs : I s) (h : hostPost w s = .next t) : I t := by
  unfold Machine.hostPost at h
  split at h
  · exact Host.Outcome.next.inj h ▸ hI.replied hs _ _
  · next hrst => exact hI.startWord (hI.replied hs _ _) (Bool.eq_false_iff.2 hrst) h

theorem StepKeeps.blockStep {s t : State} (hs : I s) (h : blockStep s = .next t) : I t := by
  unfold Machine.blockStep at h
  split at h
  · exact Host.Outcome.next.inj h ▸ hs
  · next hrst => exact (hI.block s hs (Bool.eq_false_iff.2 hrst)).of_next h

/-- Then every step keeps it. -/
theorem StepKeeps.step {s t : State} (hs : I s) (h : step s = .next t) : I t := by
  unfold Machine.step machineStep at h
  split at h
  · exact hI.blockStep hs h
  next e rest hport =>
  have hs := hI.port s rest hs
  cases e with
  | read a sz => exact Host.Outcome.next.inj h ▸ hI.hostRead a sz hs
  | write a sz d => exact hI.hostWrite hs h
  | post w => exact hI.hostPost hs h
  | quiet => exact hI.blockStep hs h
  | rst b => exact Host.Outcome.next.inj h ▸ hI.reset _ b hs

end

end Sys2Proof.Machine
end

section
/-! SUPPORT. BUSY, FSM and the error registers through the steps of a running command (R26, R29, R44, R280). -/

namespace Sys2Proof.Machine

/-- BUSY and the error registers are the same. -/
structure SameControl (s t : State) : Prop where
  busy : t.busy = s.busy
  err : t.err = s.err
  errPos : t.errPos = s.errPos
  errMask : t.errMask = s.errMask
  errByte : t.errByte = s.errByte
  rst : t.rst = s.rst

/-- The codes the block writes to ERR (R270, U19). -/
def BlockCode (e : BitVec 4) : Prop := e = 0 ∨ e = 1 ∨ e = 2 ∨ e = 3 ∨ e = 4 ∨ e = 7

/-- The kinds of error the block raises (R276). -/
def BlockKind (k : ErrKind) : Prop := k ≠ .hardwareAbort ∧ k ≠ .sequenceError

theorem BlockKind.code {k : ErrKind} (h : BlockKind k) : BlockCode k.code ∧ k.code ≠ 0 := by
  cases k with
  | hardwareAbort => exact absurd rfl h.1
  | sequenceError => exact absurd rfl h.2
  | frameDecodeError | checksumError | timeoutError | compareMismatch | illegalCommand =>
    simp [BlockCode, ErrKind.code]

theorem State.ControlInv.of_same {s t : State} (h : s.ControlInv) (hc : SameControl s t) (hf : t.fsm = .idle ↔ s.fsm = .idle)
    (hrst : s.rst = false) : t.ControlInv where
  busy_iff := by rw [hc.busy, h.busy_iff, Ne, Ne, hf]
  err_code := hc.err ▸ h.err_code
  errinfo_clear := by
    rw [hc.err, hc.errPos, hc.errMask, hc.errByte]
    exact h.errinfo_clear
  busy_no_error := by
    rw [hc.busy, hc.err]
    exact h.busy_no_error
  held := fun ht => absurd (hc.rst.symm.trans ht) (Bool.eq_false_iff.1 hrst)

theorem controlInv_of_idle {t : State} (hidle : t.busy = false ∧ t.fsm = .idle) (hcode : BlockCode t.err)
    (hinfo : t.err = 0 → t.errPos = 0 ∧ t.errMask = 0 ∧ t.errByte = 0) (hrst : t.rst = false) : t.ControlInv where
  busy_iff := by simp [hidle.1, hidle.2]
  err_code := hcode
  errinfo_clear := hinfo
  busy_no_error := fun hb => absurd hb (Bool.eq_false_iff.1 hidle.1)
  held := fun ht => absurd ht (Bool.eq_false_iff.1 hrst)

theorem controlInv_raiseError {s : State} {k : ErrKind} (he : s.err = 0) (hrst : s.rst = false) (hk : BlockKind k)
    (p : Half) (m : Mask) (b : Byte) : (s.raiseError k p m b).ControlInv := by
  rw [State.raiseError_of_clear _ _ _ _ _ he]
  exact controlInv_of_idle ⟨rfl, rfl⟩ hk.code.1 (fun h => absurd h hk.code.2) hrst

/-! ### A step of a running command -/

/-- A state in the middle of a command: BUSY is 1, and ERR and ERRINFO are 0. -/
structure State.Running (s : State) : Prop where
  busy : s.busy = true
  err : s.err = 0
  errInfo : s.errPos = 0 ∧ s.errMask = 0 ∧ s.errByte = 0
  rst : s.rst = false

theorem State.ControlInv.running {s : State} (h : s.ControlInv) (hf : s.fsm ≠ .idle) (hrst : s.rst = false) :
    s.Running := by
  have hb := h.busy_iff.2 hf
  have he := h.busy_no_error hb
  exact ⟨hb, he, h.errinfo_clear he, hrst⟩

theorem State.Running.of_same {s t : State} (h : s.Running) (hc : SameControl s t) : t.Running := by
  obtain ⟨hpos, hmask, hbyte⟩ := h.errInfo
  exact ⟨hc.busy.trans h.busy, hc.err.trans h.err,
    ⟨hc.errPos.trans hpos, hc.errMask.trans hmask, hc.errByte.trans hbyte⟩, hc.rst.trans h.rst⟩

/-- A command goes on in a state that is not IDLE. -/
theorem State.Running.goesOn {s : State} (h : s.Running) (hf : s.fsm ≠ .idle) : s.ControlInv where
  busy_iff := by simp [h.busy, hf]
  err_code := .inl h.err
  errinfo_clear := fun _ => h.errInfo
  busy_no_error := fun _ => h.err
  held := fun ht => absurd ht (Bool.eq_false_iff.1 h.rst)

theorem State.Running.finish {s : State} (h : s.Running) {k : ErrKind} (hk : BlockKind k) (p : Half) :
    (s.finish k p).ControlInv := by
  rw [State.finish]
  split
  · exact controlInv_of_idle ⟨rfl, rfl⟩ (.inl h.err) (fun _ => h.errInfo) h.rst
  · exact controlInv_raiseError (s := s.endCommand) h.err h.rst hk _ _ _

theorem State.attemptFsm_ne_idle (s : State) : s.attemptFsm ≠ .idle := by
  rw [State.attemptFsm]
  split
  · nofun
  · split
    · nofun
    · nofun

theorem State.maskKind_block (s : State) : BlockKind s.maskKind := by
  rw [State.maskKind]
  split
  · exact ⟨nofun, nofun⟩
  · exact ⟨nofun, nofun⟩

theorem State.Running.attemptEnd {s : State} (h : s.Running) (m : Mask) (v : Byte) : (s.attemptEnd m v).ControlInv := by
  have hres : (s.writeResult m v).Running := h.of_same ⟨rfl, rfl, rfl, rfl, rfl, rfl⟩
  rw [State.attemptEnd]
  split
  · exact (hres.of_same (t := (s.writeResult m v).attemptStart) ⟨rfl, rfl, rfl, rfl, rfl, rfl⟩).goesOn
      (s.writeResult m v).attemptFsm_ne_idle
  · exact hres.finish s.maskKind_block _

theorem State.Running.raiseInCapture {s : State} (h : s.Running) {k : ErrKind} (hk : BlockKind k) (p : Half) (v : Byte) :
    (s.raiseInCapture k p v).ControlInv :=
  controlInv_raiseError (s := s.writeResult 0 s.ackc) h.err h.rst hk _ _ _

/-- A sampled structural byte lets the command run on, or ends it. -/
theorem State.Running.capStructural {s : State} (h : s.Running) (e : Byte) (idx : Half) (covered : Bool) :
    (capStructural e idx covered s).Sat State.Running State.ControlInv fun _ => True := by
  rw [Machine.capStructural]
  split
  · exact h.of_same ⟨rfl, rfl, rfl, rfl, rfl, rfl⟩
  · exact (h.of_same (t := s.afterSample 8) ⟨rfl, rfl, rfl, rfl, rfl, rfl⟩).raiseInCapture
      (k := .frameDecodeError) ⟨nofun, nofun⟩ _ _

theorem State.Running.capCheckSum {s : State} (h : s.Running) :
    (capCheckSum s).Sat State.Running State.ControlInv fun _ => True := by
  rw [Machine.capCheckSum]
  split
  · exact h
  · exact h.raiseInCapture (k := .checksumError) ⟨nofun, nofun⟩ _ _

theorem Flow.Sat.toFsm {x : Flow} (h : x.Sat State.Running State.ControlInv fun _ => True) {f : Fsm} (hf : f ≠ .idle) :
    (x.toFsm f).Sat State.ControlInv State.ControlInv fun _ => True :=
  h.andThen fun t ht => (ht.of_same (t := { t with fsm := f }) ⟨rfl, rfl, rfl, rfl, rfl, rfl⟩).goesOn hf

theorem State.txAfterHeader_ne_idle (s : State) : s.txAfterHeader ≠ .idle := by
  rw [State.txAfterHeader]
  split
  · nofun
  · nofun

theorem State.rxAfterHeader_ne_idle (s : State) : s.rxAfterHeader ≠ .idle := by
  rw [State.rxAfterHeader]
  split
  · nofun
  · nofun

theorem ite_ne {α : Type} {c : Prop} [Decidable c] {x y z : α} (hx : x ≠ z) (hy : y ≠ z) : (if c then x else y) ≠ z := by
  split
  · exact hx
  · exact hy

section
variable {s : State} (h : s.Running)
include h

theorem State.Running.goesOn_of_same {t : State} (hc : SameControl s t) (hf : t.fsm ≠ .idle) : t.ControlInv :=
  (h.of_same hc).goesOn hf

theorem State.Running.stepTxPayload : s.stepTxPayload.Sat State.ControlInv State.ControlInv fun _ => True := by
  rw [State.stepTxPayload]
  split
  · trivial
  · exact h.goesOn_of_same ⟨rfl, rfl, rfl, rfl, rfl, rfl⟩ (ite_ne nofun nofun)

theorem State.Running.stepTxEnd : s.stepTxEnd.ControlInv := by
  rw [State.stepTxEnd]
  split
  · exact h.goesOn_of_same ⟨rfl, rfl, rfl, rfl, rfl, rfl⟩ nofun
  · exact (h.of_same (t := s.send (endMarker s.txctl.endBit)) ⟨rfl, rfl, rfl, rfl, rfl, rfl⟩).attemptEnd _ _

theorem State.Running.stepRxStart : s.stepRxStart.Sat State.ControlInv State.ControlInv fun _ => True := by
  rw [State.stepRxStart]
  split
  · exact ((h.of_same (t := s.capBegin) ⟨rfl, rfl, rfl, rfl, rfl, rfl⟩).capStructural _ _ _).toFsm nofun
  · exact h.goesOn_of_same ⟨rfl, rfl, rfl, rfl, rfl, rfl⟩ nofun

theorem State.Running.stepRxLenHi : s.stepRxLenHi.Sat State.ControlInv State.ControlInv fun _ => True := by
  rw [State.stepRxLenHi]
  split
  · exact (h.capStructural _ _ _).toFsm nofun
  · exact h.goesOn_of_same ⟨rfl, rfl, rfl, rfl, rfl, rfl⟩ nofun

theorem State.Running.stepRxLenLo : s.stepRxLenLo.Sat State.ControlInv State.ControlInv fun _ => True := by
  rw [State.stepRxLenLo]
  split
  · exact (h.capStructural _ _ _).toFsm (ite_ne nofun s.rxAfterHeader_ne_idle)
  · exact h.goesOn_of_same ⟨rfl, rfl, rfl, rfl, rfl, rfl⟩ (ite_ne nofun s.rxAfterHeader_ne_idle)

theorem State.Running.stepRxAck : s.stepRxAck.ControlInv := by
  rw [State.stepRxAck]
  split
  · exact h.goesOn_of_same ⟨rfl, rfl, rfl, rfl, rfl, rfl⟩ s.rxAfterHeader_ne_idle
  · exact h.goesOn_of_same ⟨rfl, rfl, rfl, rfl, rfl, rfl⟩ s.rxAfterHeader_ne_idle

theorem State.Running.stepRxPayload : s.stepRxPayload.Sat State.ControlInv State.ControlInv fun _ => True := by
  rw [State.stepRxPayload]
  split
  · exact h.goesOn_of_same ⟨rfl, rfl, rfl, rfl, rfl, rfl⟩ (ite_ne nofun nofun)
  split
  · trivial
  split
  · trivial
  · exact h.goesOn_of_same ⟨rfl, rfl, rfl, rfl, rfl, rfl⟩ (ite_ne nofun nofun)

theorem State.Running.stepRxCsum : s.stepRxCsum.ControlInv := by
  rw [State.stepRxCsum]
  split
  · exact h.goesOn_of_same ⟨rfl, rfl, rfl, rfl, rfl, rfl⟩ nofun
  · exact h.goesOn_of_same ⟨rfl, rfl, rfl, rfl, rfl, rfl⟩ nofun

theorem State.Running.stepRxEnd : s.stepRxEnd.Sat State.ControlInv State.ControlInv fun _ => True := by
  rw [State.stepRxEnd]
  split
  · have hcheck := (h.capStructural (endMarker s.rxctl.endBit) (4 + s.lenr) false).andThen fun t ht => ht.capCheckSum
    exact hcheck.andThen fun t ht => ht.attemptEnd 0 t.ackc
  · exact (h.of_same (t := s.hit (endMarker s.rxctl.endBit) 0x00 (4 + s.lenr))
      ⟨rfl, rfl, rfl, rfl, rfl, rfl⟩).attemptEnd _ _

theorem State.Running.stepAuxCmp : s.stepAuxCmp.ControlInv :=
  (h.of_same (t := s.afterSample (wordN s.opr).toNat) ⟨rfl, rfl, rfl, rfl, rfl, rfl⟩).attemptEnd _ _

theorem State.Running.stepAuxWaitlvl (hf : s.fsm ≠ .idle) : s.stepAuxWaitlvl.ControlInv := by
  have hpoll : s.afterPoll.Running := h.of_same ⟨rfl, rfl, rfl, rfl, rfl, rfl⟩
  rw [State.stepAuxWaitlvl]
  split
  · exact hpoll.attemptEnd _ _
  · exact hpoll.goesOn hf

/-- Every step of a running command leaves it running in a state other than IDLE, or ends it (R26 to R29). -/
theorem State.Running.fsmFlow (hf : s.fsm ≠ .idle) :
    s.fsmFlow.Sat State.ControlInv State.ControlInv fun _ => True := by
  unfold State.fsmFlow
  split
  · next hidle => exact absurd hidle hf
  · exact h.goesOn_of_same ⟨rfl, rfl, rfl, rfl, rfl, rfl⟩ nofun
  · exact h.goesOn_of_same ⟨rfl, rfl, rfl, rfl, rfl, rfl⟩ nofun
  · exact h.goesOn_of_same ⟨rfl, rfl, rfl, rfl, rfl, rfl⟩ (ite_ne nofun s.txAfterHeader_ne_idle)
  · exact h.goesOn_of_same ⟨rfl, rfl, rfl, rfl, rfl, rfl⟩ s.txAfterHeader_ne_idle
  · exact h.stepTxPayload
  · exact h.goesOn_of_same ⟨rfl, rfl, rfl, rfl, rfl, rfl⟩ nofun
  · exact h.stepTxEnd
  · exact h.stepRxStart
  · exact h.stepRxLenHi
  · exact h.stepRxLenLo
  · exact h.stepRxAck
  · exact h.stepRxPayload
  · exact h.stepRxCsum
  · exact h.stepRxEnd
  · split
    · exact h.stepAuxWaitlvl hf
    · exact h.stepAuxCmp

end

/-! ### The other things a step does -/

theorem sameControl_writeReg (s : State) (d : Word) (r : Reg) :
    SameControl s (s.writeReg d r) ∧ (s.writeReg d r).fsm = s.fsm := by
  cases r with
  | cmd | status | active | txctl | txlen | rxctl | rxlen | budget | timeout | result | sums | rpos | errinfo | rrem
  | trem => exact ⟨⟨rfl, rfl, rfl, rfl, rfl, rfl⟩, rfl⟩

theorem controlInv_immediate {i : Instr} {s : State} (h : s.ControlInv) (hrst : s.rst = false) :
    (immediate i s).ControlInv := by
  cases i with
  | clrerr =>
    exact ⟨h.busy_iff, .inl rfl, fun _ => ⟨rfl, rfl, rfl⟩, fun _ => rfl,
      fun ht => absurd ht (Bool.eq_false_iff.1 hrst)⟩
  | srst => exact controlInv_of_idle ⟨rfl, rfl⟩ (.inl rfl) (fun _ => ⟨rfl, rfl, rfl⟩) hrst
  | nop | csclr | csadd _ | csget | cschk | cmp _ _ _ _ | waitlvl _ _ | txframe | rxcap | rxcmp _ | xcap | xcmp _ =>
    exact h.of_same ⟨rfl, rfl, rfl, rfl, rfl, rfl⟩ Iff.rfl hrst

theorem ownErrors_blockCode {i : Instr} {e : BitVec 4} (h : e ∈ ownErrors i) : BlockCode e := by
  have hmem : e ∈ ([0, 1, 2, 3, 4, 7] : List (BitVec 4)) := by
    cases i with
    | nop | clrerr | srst | csclr | csadd _ | csget | cschk | cmp _ _ _ _ | waitlvl _ _ | txframe | rxcap | rxcmp _
    | xcap | xcmp _ =>
      simp only [ownErrors, List.mem_cons, List.not_mem_nil, or_false] at h ⊢
      tauto
  simpa [BlockCode] using hmem

theorem controlInv_exec {i : Instr} {s t : State} (h : s.ControlInv) (hrst : s.rst = false) (hx : exec i s = .next t) :
    t.ControlInv := by
  rcases exec_ends i s with ⟨hy, -⟩ | ⟨hy, hs, -⟩ | ⟨-, -, hy⟩ | ⟨-, hs, -, u, hy, hend⟩ | ⟨-, -, -, f, hy, -⟩
  · obtain rfl := Host.Outcome.next.inj (hy.symm.trans hx)
    exact h.of_same ⟨rfl, rfl, rfl, rfl, rfl, rfl⟩ Iff.rfl hrst
  · obtain rfl := Host.Outcome.next.inj (hy.symm.trans hx)
    exact controlInv_raiseError (k := .illegalCommand) hs.2 hrst ⟨nofun, nofun⟩ _ _ _
  · obtain rfl := Host.Outcome.next.inj (hy.symm.trans hx)
    exact controlInv_immediate h hrst
  · obtain rfl := Host.Outcome.next.inj (hy.symm.trans hx)
    refine controlInv_of_idle hend.idle (ownErrors_blockCode hend.err) (fun he => ?_)
      ((congrArg State.rst hend.kept.host :).trans hrst)
    obtain ⟨hp, hm, hb⟩ := hend.errInfo he
    rw [hp, hm, hb]
    exact h.errinfo_clear hs.2
  · cases hy.symm.trans hx

theorem stepKeeps_controlInv : StepKeeps State.ControlInv where
  port s rest h := ⟨h.busy_iff, h.err_code, h.errinfo_clear, h.busy_no_error, fun hrst =>
    ⟨congrArg (fun u : State => { u with port := rest }) (h.held hrst).1, (h.held hrst).2⟩⟩
  answer s ok d n h := ⟨h.busy_iff, h.err_code, h.errinfo_clear, h.busy_no_error, fun hrst =>
    ⟨congrArg (fun u : State => ({ u with draws := n } : State).answer ok d) (h.held hrst).1, (h.held hrst).2⟩⟩
  refuse s h hrst := h.of_same ⟨rfl, rfl, rfl, rfl, rfl, rfl⟩ Iff.rfl hrst
  reg s d r h hrst _ := by
    obtain ⟨hc, hf⟩ := sameControl_writeReg s d r
    exact h.of_same hc (by rw [hf]) hrst
  byte s k v h hrst _ _ := h.of_same ⟨rfl, rfl, rfl, rfl, rfl, rfl⟩ Iff.rfl hrst
  command s t i h hrst hx := controlInv_exec h hrst hx
  illegal s b h hrst hs := controlInv_raiseError (k := .illegalCommand) hs.2 hrst ⟨nofun, nofun⟩ _ _ _
  start s w i h hrst hs _ _ _ :=
    State.Running.goesOn (s := s.commandStart w) ⟨rfl, hs.2, h.errinfo_clear hs.2, hrst⟩
      (State.attemptFsm_ne_idle _)
  block s h hrst := by
    by_cases hf : s.fsm = .idle
    · rw [State.fsmFlow, hf]
      exact h
    · exact (h.running hf hrst).fsmFlow hf
  reset s b h := by
    cases b with
    | true => exact ⟨by simp [State.setRst, State.resetRegisters, State.reset], .inl rfl, fun _ => ⟨rfl, rfl, rfl⟩,
        fun _ => rfl, fun _ => ⟨rfl, rfl⟩⟩
    | false => exact ⟨h.busy_iff, h.err_code, h.errinfo_clear, h.busy_no_error, nofun⟩

end Sys2Proof.Machine
end

section
/-! The statement about BUSY, FSM and the error registers (spec/10_state.md section 3, spec/60_exceptions.md). -/

namespace Sys2Proof.Machine

/-- Settles O41: each of the things a step does keeps the invariant. -/
theorem stepKeepsControlInvariant : Obligations.StepKeepsControlInvariant :=
  fun _ _ h hstep => stepKeeps_controlInv.step h hstep

end Sys2Proof.Machine
end

section
/-! SUPPORT. The word of a running command in OPR, and what the byte-level FSM reads from it (R26 to R29). -/

namespace Sys2Proof.Machine

theorem wordOp_encode (i : Instr) : wordOp (encode i) = Laws.EncodeFormat.code i := by
  cases i with
  | nop | clrerr | srst | csclr | csadd _ | csget | cschk | cmp _ _ _ _ | waitlvl _ _ | txframe | rxcap | rxcmp _
  | xcap | xcmp _ => exact wordOp_packWord ..

theorem wordR_encode (i : Instr) : wordR (encode i) = retried i := by
  cases i with
  | nop | clrerr | srst | csclr | csadd _ | csget | cschk | cmp _ _ _ _ | waitlvl _ _ | txframe | rxcap | rxcmp _
  | xcap | xcmp _ => exact wordR_packWord ..

/-- The commands that capture what they receive. -/
def captures : Instr → Bool
  | .rxcap | .xcap => true
  | _ => false

/-- The commands that send a frame and then receive one. -/
def exchanges : Instr → Bool
  | .xcap | .xcmp _ => true
  | _ => false

/-- The state FSM takes at an attempt's start (R29). -/
def firstFsm : Instr → Fsm
  | .txframe | .xcap | .xcmp _ => .txStart
  | .rxcap | .rxcmp _ => .rxStart
  | _ => .aux

section
variable {s : State} {i : Instr} (h : s.opr = encode i)
include h

theorem oprIs_of_opr (c : Byte) : s.oprIs c = (Laws.EncodeFormat.code i == c) := by
  rw [State.oprIs, h, wordOp_encode]

theorem oprR_of_opr : s.oprR = retried i := by
  rw [State.oprR, h, wordR_encode]

theorem capturing_of_opr : s.capturing = captures i := by
  rw [State.capturing, oprIs_of_opr h, oprIs_of_opr h]
  cases i with
  | nop | clrerr | srst | csclr | csadd _ | csget | cschk | cmp _ _ _ _ | waitlvl _ _ | txframe | rxcap | rxcmp _
  | xcap | xcmp _ => rfl

theorem exchanging_of_opr : s.exchanging = exchanges i := by
  rw [State.exchanging, oprIs_of_opr h, oprIs_of_opr h]
  cases i with
  | nop | clrerr | srst | csclr | csadd _ | csget | cschk | cmp _ _ _ _ | waitlvl _ _ | txframe | rxcap | rxcmp _
  | xcap | xcmp _ => rfl

theorem attemptFsm_of_opr (hi : isTransport i = true) : s.attemptFsm = firstFsm i := by
  rw [State.attemptFsm, exchanging_of_opr h, oprIs_of_opr h, oprIs_of_opr h, oprIs_of_opr h]
  cases i with
  | nop | clrerr | srst | csclr | csadd _ | csget | cschk => cases hi
  | cmp _ _ _ _ | waitlvl _ _ | txframe | rxcap | rxcmp _ | xcap | xcmp _ => rfl

end

theorem firstFsm_aux {i : Instr} (h : firstFsm i = .aux) : captures i = false := by
  cases i with
  | txframe | rxcap | rxcmp _ | xcap | xcmp _ => cases h
  | nop | clrerr | srst | csclr | csadd _ | csget | cschk | cmp _ _ _ _ | waitlvl _ _ => rfl

theorem firstFsm_not_inCapture (i : Instr) : (firstFsm i).inCapture = false := by
  cases i with
  | nop | clrerr | srst | csclr | csadd _ | csget | cschk | cmp _ _ _ _ | waitlvl _ _ | txframe | rxcap | rxcmp _
  | xcap | xcmp _ => rfl

end Sys2Proof.Machine
end

section
/-! SUPPORT. The buffers and RPOS through the steps of a running command (R23, R61, R68, R192 (e), R193). -/

namespace Sys2Proof.Machine

/-- What the buffer invariant says whatever FSM is. -/
structure State.Stored (s : State) : Prop where
  params_wf : s.params.wf
  mem_wf : s.mem.wf = true
  in_windows : ∀ c ∈ s.mem, inWindow s.params c.1 = true
  rpos_le : s.rpos.toNat ≤ s.params.bufSize

theorem State.BufferInv.stored {s : State} (h : s.BufferInv) : s.Stored :=
  ⟨h.params_wf, h.mem_wf, h.in_windows, h.rpos_le⟩

/-- Parameters, memory, RPOS and OPR are the same. -/
structure SameStore (s t : State) : Prop where
  params : t.params = s.params
  mem : t.mem = s.mem
  rpos : t.rpos = s.rpos
  opr : t.opr = s.opr

theorem SameStore.trans {s t u : State} (h : SameStore s t) (h' : SameStore t u) : SameStore s u :=
  ⟨h'.params.trans h.params, h'.mem.trans h.mem, h'.rpos.trans h.rpos, h'.opr.trans h.opr⟩

theorem State.Stored.of_same {s t : State} (h : s.Stored) (hst : SameStore s t) : t.Stored := by
  obtain ⟨hp, hm, hr, -⟩ := hst
  exact ⟨hp ▸ h.params_wf, hm ▸ h.mem_wf, by rw [hp, hm]; exact h.in_windows, by rw [hp, hr]; exact h.rpos_le⟩

theorem SameStore.capturing {s t : State} (h : SameStore s t) : t.capturing = s.capturing := by
  rw [State.capturing, State.capturing, State.oprIs, State.oprIs, State.oprIs, State.oprIs, h.opr]

/-! ### The invariant by the state of the FSM -/

theorem State.Stored.bufferInv {t : State} (h : t.Stored)
    (haux : t.fsm = .aux → t.capturing = false)
    (hbefore : t.fsm.beforeCapture = true → t.capturing = true →
      t.captureBase + t.rxlen.toNat ≤ t.params.bufSize)
    (hduring : t.fsm.inCapture = true → t.capturing = true →
      (t.fsm ≠ .rxPayload → t.pos = 0) ∧ (t.fsm = .rxPayload → t.pos.toNat < t.rxlen.toNat) ∧
        t.rpos.toNat + (t.rxlen.toNat - t.pos.toNat) ≤ t.params.bufSize) : t.BufferInv :=
  ⟨h.params_wf, h.mem_wf, h.in_windows, h.rpos_le, haux, hbefore, hduring⟩

theorem State.Stored.bufferInv_of_idle {t : State} (h : t.Stored) (hf : t.fsm = .idle) : t.BufferInv := by
  refine h.bufferInv ?_ ?_ ?_
  · rw [hf]; nofun
  · rw [hf]; nofun
  · rw [hf]; nofun

/-- A command that does not capture has nothing to keep but the store. -/
theorem State.Stored.bufferInv_of_not_capturing {t : State} (h : t.Stored) (hc : t.capturing = false) : t.BufferInv :=
  h.bufferInv (fun _ => hc) (fun _ ht => absurd ht (Bool.eq_false_iff.1 hc)) fun _ ht => absurd ht (Bool.eq_false_iff.1 hc)

/-! ### Commands that do not capture -/

theorem State.finish_sameStore (s : State) (k : ErrKind) (p : Half) : SameStore s (s.finish k p) := by
  rw [State.finish]
  split
  · exact ⟨rfl, rfl, rfl, rfl⟩
  · exact ⟨rfl, rfl, rfl, rfl⟩

theorem State.attemptEnd_sameStore (s : State) (m : Mask) (v : Byte) : SameStore s (s.attemptEnd m v) := by
  rw [State.attemptEnd]
  split
  · exact ⟨rfl, rfl, rfl, rfl⟩
  · exact (⟨rfl, rfl, rfl, rfl⟩ : SameStore s (s.writeResult m v)).trans (State.finish_sameStore _ _ _)

theorem fsmFlow_sameStore {s : State} (hc : s.capturing = false) :
    s.fsmFlow.Sat (SameStore s) (SameStore s) fun _ => True := by
  have hend : ∀ t m v, SameStore s t → SameStore s (t.attemptEnd m v) := fun t m v h =>
    h.trans (t.attemptEnd_sameStore m v)
  unfold State.fsmFlow
  split
  · exact ⟨rfl, rfl, rfl, rfl⟩
  · exact ⟨rfl, rfl, rfl, rfl⟩
  · exact ⟨rfl, rfl, rfl, rfl⟩
  · exact ⟨rfl, rfl, rfl, rfl⟩
  · exact ⟨rfl, rfl, rfl, rfl⟩
  · rw [State.stepTxPayload]
    split
    · trivial
    · exact ⟨rfl, rfl, rfl, rfl⟩
  · exact ⟨rfl, rfl, rfl, rfl⟩
  · change SameStore s s.stepTxEnd
    rw [State.stepTxEnd]
    split
    · exact ⟨rfl, rfl, rfl, rfl⟩
    · exact hend _ _ _ ⟨rfl, rfl, rfl, rfl⟩
  · rw [State.stepRxStart, hc]
    exact ⟨rfl, rfl, rfl, rfl⟩
  · rw [State.stepRxLenHi, hc]
    exact ⟨rfl, rfl, rfl, rfl⟩
  · rw [State.stepRxLenLo, hc]
    exact ⟨rfl, rfl, rfl, rfl⟩
  · rw [State.stepRxAck, hc]
    exact ⟨rfl, rfl, rfl, rfl⟩
  · rw [State.stepRxPayload, hc, if_neg Bool.false_ne_true]
    split
    · trivial
    split
    · trivial
    · exact ⟨rfl, rfl, rfl, rfl⟩
  · rw [State.stepRxCsum, hc]
    exact ⟨rfl, rfl, rfl, rfl⟩
  · rw [State.stepRxEnd, hc]
    exact hend _ _ _ ⟨rfl, rfl, rfl, rfl⟩
  · change SameStore s (if s.oprIs 0x21 then s.stepAuxWaitlvl else s.stepAuxCmp)
    split
    · rw [State.stepAuxWaitlvl]
      split
      · exact hend _ _ _ ⟨rfl, rfl, rfl, rfl⟩
      · exact ⟨rfl, rfl, rfl, rfl⟩
    · exact hend _ _ _ ⟨rfl, rfl, rfl, rfl⟩

/-! ### A capture before it samples (R27, R192 (e)) -/

/-- The transmit half of an exchange leaves what the capture will need. -/
theorem State.BufferInv.before {s t : State} (h : s.BufferInv) (hc : s.capturing = true)
    (hf : s.fsm.beforeCapture = true)
    (hst : SameStore s t) (hctl : t.rxctl = s.rxctl) (hlen : t.rxlen = s.rxlen) (ht : t.fsm.beforeCapture = true) :
    t.BufferInv := by
  have hbase : t.captureBase = s.captureBase := by
    rw [State.captureBase, State.captureBase, hctl, hst.rpos]
  refine (h.stored.of_same hst).bufferInv ?_ (fun _ _ => ?_) ?_
  · intro haux
    rw [haux] at ht
    cases ht
  · rw [hbase, hlen, hst.params]
    exact h.room_before hf hc
  · intro hcap
    cases hfsm : t.fsm with
    | txStart | txLenHi | txLenLo | txAck | txPayload | txCsum | txEnd | rxStart => rw [hfsm] at hcap; cases hcap
    | idle | rxLenHi | rxLenLo | rxAck | rxPayload | rxCsum | rxEnd | aux => rw [hfsm] at ht; cases ht

theorem State.txAfterHeader_before (s : State) : s.txAfterHeader.beforeCapture = true := by
  rw [State.txAfterHeader]
  split
  · rfl
  · rfl

/-! ### The header of a captured frame (R193, R194) -/

/-- Nothing of the payload is stored yet, and all of it fits. -/
structure State.HeaderRoom (s : State) : Prop where
  pos : s.pos = 0
  room : s.rpos.toNat + s.rxlen.toNat ≤ s.params.bufSize

theorem State.BufferInv.headerRoom {s : State} (h : s.BufferInv) (hc : s.capturing = true)
    (hf : s.fsm = .rxLenHi ∨ s.fsm = .rxLenLo ∨ s.fsm = .rxAck) : s.HeaderRoom := by
  have hin : s.fsm.inCapture = true ∧ s.fsm ≠ .rxPayload := by
    rcases hf with hf | hf | hf
    · rw [hf]; exact ⟨rfl, nofun⟩
    · rw [hf]; exact ⟨rfl, nofun⟩
    · rw [hf]; exact ⟨rfl, nofun⟩
  obtain ⟨hpos, -, hroom⟩ := h.room_during hin.1 hc
  have h0 := hpos hin.2
  exact ⟨h0, by rw [h0] at hroom; exact hroom⟩

/-- The states after the header's bytes: another one of them, the payload if there is any, or the checksum. -/
theorem State.Stored.bufferInv_of_header {t : State} (h : t.Stored) (hroom : t.HeaderRoom)
    (hf : t.fsm = .rxLenHi ∨ t.fsm = .rxLenLo ∨ t.fsm = .rxAck ∨ t.fsm = t.rxAfterHeader) : t.BufferInv := by
  have hstates : t.fsm ≠ .aux ∧ t.fsm.beforeCapture = false ∧ (t.fsm = .rxPayload → t.rxlen ≠ 0) := by
    rcases hf with hf | hf | hf | hf
    · rw [hf]; exact ⟨nofun, rfl, nofun⟩
    · rw [hf]; exact ⟨nofun, rfl, nofun⟩
    · rw [hf]; exact ⟨nofun, rfl, nofun⟩
    · rw [hf, State.rxAfterHeader]
      split
      · exact ⟨nofun, rfl, nofun⟩
      · next hne => exact ⟨nofun, rfl, fun _ => hne⟩
  obtain ⟨haux, hbefore, hpay⟩ := hstates
  refine h.bufferInv (fun hx => absurd hx haux) (fun hx => absurd hx (Bool.eq_false_iff.1 hbefore)) fun _ _ => ?_
  refine ⟨fun _ => hroom.pos, fun hx => ?_, ?_⟩
  · rw [hroom.pos]
    exact Nat.pos_of_ne_zero fun h0 => hpay hx (BitVec.eq_of_toNat_eq h0)
  · rw [hroom.pos]
    exact hroom.room

/-- After the payload a capture stores nothing more. -/
theorem State.Stored.bufferInv_of_trailer {t : State} (h : t.Stored) (hf : t.fsm = .rxCsum ∨ t.fsm = .rxEnd) :
    t.BufferInv := by
  rcases hf with hf | hf
  · refine h.bufferInv ?_ ?_ ?_
    · rw [hf]; nofun
    · rw [hf]; nofun
    · rw [hf]; nofun
  · refine h.bufferInv ?_ ?_ ?_
    · rw [hf]; nofun
    · rw [hf]; nofun
    · rw [hf]; nofun

/-- Store, POS and RXLEN are the same. -/
structure SameFrame (s t : State) : Prop where
  store : SameStore s t
  pos : t.pos = s.pos
  rxlen : t.rxlen = s.rxlen

theorem State.HeaderRoom.of_same {s t : State} (h : s.HeaderRoom) (hf : SameFrame s t) : t.HeaderRoom := by
  obtain ⟨⟨hp, -, hr, -⟩, hpos, hlen⟩ := hf
  exact ⟨hpos.trans h.pos, by rw [hp, hr, hlen]; exact h.room⟩

theorem State.Stored.raiseInCapture {s : State} (h : s.Stored) (k : ErrKind) (p : Half) (v : Byte) :
    (s.raiseInCapture k p v).BufferInv :=
  (h.of_same (t := s.raiseInCapture k p v) ⟨rfl, rfl, rfl, rfl⟩).bufferInv_of_idle rfl

theorem State.Stored.capStructural {s : State} (h : s.Stored) (e : Byte) (idx : Half) (covered : Bool) :
    (capStructural e idx covered s).Sat (SameFrame s) State.BufferInv fun _ => True := by
  rw [Machine.capStructural]
  split
  · exact ⟨⟨rfl, rfl, rfl, rfl⟩, rfl, rfl⟩
  · exact (h.of_same (t := s.afterSample 8) ⟨rfl, rfl, rfl, rfl⟩).raiseInCapture _ _ _

theorem State.Stored.capCheckSum {s : State} (h : s.Stored) :
    (capCheckSum s).Sat (SameFrame s) State.BufferInv fun _ => True := by
  rw [Machine.capCheckSum]
  split
  · exact ⟨⟨rfl, rfl, rfl, rfl⟩, rfl, rfl⟩
  · exact h.raiseInCapture _ _ _

/-- A byte of the header that is the expected one takes a capture to another state of the header, or past it. -/
theorem State.Stored.headerByte {s : State} {f : Fsm} (h : s.Stored) (hroom : s.HeaderRoom)
    (hf : f = .rxLenHi ∨ f = .rxLenLo ∨ f = .rxAck ∨ f = s.rxAfterHeader) (e : Byte) (idx : Half) (covered : Bool) :
    ((Machine.capStructural e idx covered s).toFsm f).Sat State.BufferInv State.BufferInv fun _ => True := by
  refine (h.capStructural e idx covered).andThen fun t ht => ?_
  have hafter : t.rxAfterHeader = s.rxAfterHeader := by rw [State.rxAfterHeader, State.rxAfterHeader, ht.rxlen]
  have hst := ht.store
  refine (h.of_same (t := { t with fsm := f }) ⟨hst.params, hst.mem, hst.rpos, hst.opr⟩).bufferInv_of_header
    (hroom.of_same ⟨⟨hst.params, hst.mem, hst.rpos, hst.opr⟩, ht.pos, ht.rxlen⟩) ?_
  rw [← hafter] at hf
  exact hf

/-! ### The payload of a captured frame (R193) -/

theorem State.BufferInv.capPayloadByte {s : State} (h : s.BufferInv) (hc : s.capturing = true)
    (hf : s.fsm = .rxPayload) :
    ({ s.capPayloadByte with fsm := if s.pos + 1 < s.rxlen then .rxPayload else .rxCsum } : State).BufferInv := by
  obtain ⟨-, hlt, hroom⟩ := h.room_during (by rw [hf]; rfl) hc
  have hpos := hlt hf
  have hbuf := h.params_wf.2.2
  have hlenlt := s.rxlen.isLt
  have hpos1 : (s.pos + 1).toNat = s.pos.toNat + 1 := toNat_add_one (by omega)
  have hrpos1 : (s.rpos + 1).toNat = s.rpos.toNat + 1 := toNat_add_one (by omega)
  have hstored : ({ s.capPayloadByte with
      fsm := if s.pos + 1 < s.rxlen then .rxPayload else .rxCsum } : State).Stored := by
    refine ⟨h.params_wf, Memory.wf_write _ _ _ h.mem_wf, fun c hmem => ?_, ?_⟩
    · rcases Memory.mem_write _ _ _ _ hmem with rfl | hmem
      · refine (inWindow_iff _ _).2 (.inr (.inl ?_))
        change 0x2000 ≤ 0x2000 + s.rpos.toNat ∧ 0x2000 + s.rpos.toNat < 0x2000 + s.params.bufSize
        omega
      · exact h.in_windows c hmem
    · change (s.rpos + 1).toNat ≤ s.params.bufSize
      omega
  by_cases hmore : s.pos + 1 < s.rxlen
  · have hmoreNat : s.pos.toNat + 1 < s.rxlen.toNat := by
      rw [← hpos1]
      exact BitVec.lt_def.1 hmore
    simp only [if_pos hmore] at hstored ⊢
    refine hstored.bufferInv nofun nofun fun _ _ => ⟨fun hne => absurd rfl hne, fun _ => ?_, ?_⟩
    · change (s.pos + 1).toNat < s.rxlen.toNat
      omega
    · change (s.rpos + 1).toNat + (s.rxlen.toNat - (s.pos + 1).toNat) ≤ s.params.bufSize
      omega
  · simp only [if_neg hmore] at hstored ⊢
    exact hstored.bufferInv_of_trailer (.inl rfl)

/-! ### Every step of a capture -/

theorem State.attemptEnd_zero_fsm (s : State) (v : Byte) : (s.attemptEnd 0 v).fsm = .idle := by
  rw [State.attemptEnd, if_neg (fun h => h.1 rfl), State.finish]
  split
  · rfl
  · rfl

theorem State.Stored.attemptEnd_zero {s : State} (h : s.Stored) (v : Byte) : (s.attemptEnd 0 v).BufferInv :=
  (h.of_same (s.attemptEnd_sameStore 0 v)).bufferInv_of_idle (s.attemptEnd_zero_fsm v)

/-- RPOS and the room of a capture that begins (R193). -/
theorem State.BufferInv.capBegin {s : State} (h : s.BufferInv) (hc : s.capturing = true) (hf : s.fsm = .rxStart) :
    s.capBegin.Stored ∧ s.capBegin.HeaderRoom := by
  have hroom := h.room_before (by rw [hf]; rfl) hc
  have hbase := s.capBegin_rpos_toNat
  refine ⟨⟨h.params_wf, h.mem_wf, h.in_windows, ?_⟩, rfl, ?_⟩
  · rw [hbase]
    exact Nat.le_of_add_right_le hroom
  · rw [hbase]
    exact hroom

theorem State.BufferInv.stepTxEnd {s : State} (h : s.BufferInv) (hc : s.capturing = true) (hf : s.fsm = .txEnd) :
    s.stepTxEnd.BufferInv := by
  rw [State.stepTxEnd]
  split
  · exact h.before hc (by rw [hf]; rfl) ⟨rfl, rfl, rfl, rfl⟩ rfl rfl rfl
  · exact (h.stored.of_same (t := s.send (endMarker s.txctl.endBit)) ⟨rfl, rfl, rfl, rfl⟩).attemptEnd_zero _

theorem State.BufferInv.stepRxEnd {s : State} (h : s.BufferInv) (hc : s.capturing = true) :
    s.stepRxEnd.Sat State.BufferInv State.BufferInv fun _ => True := by
  rw [State.stepRxEnd, if_pos hc]
  have hframe := (h.stored.capStructural (endMarker s.rxctl.endBit) (4 + s.lenr) false).andThen fun t ht =>
    ((h.stored.of_same ht.store).capCheckSum).imp (fun u hu => (h.stored.of_same ht.store).of_same hu.store)
      (fun _ hu => hu) fun _ hf => hf
  exact hframe.andThen fun t ht => ht.attemptEnd_zero t.ackc

theorem beforeCapture_ite {c : Prop} [Decidable c] {f g : Fsm} (hf : f.beforeCapture = true)
    (hg : g.beforeCapture = true) : (if c then f else g).beforeCapture = true := by
  split
  · exact hf
  · exact hg

/-- Every step of a capture keeps what is left of it inside RXBUF. -/
theorem State.BufferInv.fsmFlow_of_capturing {s : State} (h : s.BufferInv) (hc : s.capturing = true) :
    s.fsmFlow.Sat State.BufferInv State.BufferInv fun _ => True := by
  unfold State.fsmFlow
  split
  · exact h
  · next hf => exact h.before hc (by rw [hf]; rfl) ⟨rfl, rfl, rfl, rfl⟩ rfl rfl rfl
  · next hf => exact h.before hc (by rw [hf]; rfl) ⟨rfl, rfl, rfl, rfl⟩ rfl rfl rfl
  · next hf =>
    exact h.before hc (by rw [hf]; rfl) ⟨rfl, rfl, rfl, rfl⟩ rfl rfl (beforeCapture_ite rfl s.txAfterHeader_before)
  · next hf => exact h.before hc (by rw [hf]; rfl) ⟨rfl, rfl, rfl, rfl⟩ rfl rfl s.txAfterHeader_before
  · next hf =>
    rw [State.stepTxPayload]
    split
    · trivial
    · exact h.before hc (by rw [hf]; rfl) ⟨rfl, rfl, rfl, rfl⟩ rfl rfl (beforeCapture_ite rfl rfl)
  · next hf => exact h.before hc (by rw [hf]; rfl) ⟨rfl, rfl, rfl, rfl⟩ rfl rfl rfl
  · next hf => exact h.stepTxEnd hc hf
  · next hf =>
    obtain ⟨hstored, hroom⟩ := h.capBegin hc hf
    rw [State.stepRxStart, if_pos hc]
    exact hstored.headerByte hroom (.inl rfl) _ _ _
  · next hf =>
    rw [State.stepRxLenHi, if_pos hc]
    exact h.stored.headerByte (h.headerRoom hc (.inl hf)) (.inr (.inl rfl)) _ _ _
  · next hf =>
    rw [State.stepRxLenLo, if_pos hc]
    refine h.stored.headerByte (h.headerRoom hc (.inr (.inl hf))) ?_ _ _ _
    split
    · exact .inr (.inr (.inl rfl))
    · exact .inr (.inr (.inr rfl))
  · next hf =>
    rw [State.stepRxAck, if_pos hc]
    exact State.Stored.bufferInv_of_header (h.stored.of_same ⟨rfl, rfl, rfl, rfl⟩)
      ((h.headerRoom hc (.inr (.inr hf))).of_same ⟨⟨rfl, rfl, rfl, rfl⟩, rfl, rfl⟩) (.inr (.inr (.inr rfl)))
  · next hf =>
    rw [State.stepRxPayload, if_pos hc]
    exact h.capPayloadByte hc hf
  · rw [State.stepRxCsum, if_pos hc]
    exact State.Stored.bufferInv_of_trailer (h.stored.of_same ⟨rfl, rfl, rfl, rfl⟩) (.inr rfl)
  · exact h.stepRxEnd hc
  · next hf => exact absurd hc (Bool.eq_false_iff.1 (h.aux_not_capture hf))

theorem State.BufferInv.fsmFlow {s : State} (h : s.BufferInv) :
    s.fsmFlow.Sat State.BufferInv State.BufferInv fun _ => True := by
  rcases Bool.eq_false_or_eq_true s.capturing with hc | hc
  · exact h.fsmFlow_of_capturing hc
  · have hkeep : ∀ t, SameStore s t → t.BufferInv := fun t ht =>
      (h.stored.of_same ht).bufferInv_of_not_capturing (ht.capturing.trans hc)
    exact (fsmFlow_sameStore hc).imp hkeep hkeep fun _ hf => hf

/-! ### Whole commands (R192, R193) -/

theorem storeBytes_in_windows {p : Params} {m : Memory} {n : Nat} (vs : List Byte)
    (h : ∀ c ∈ m, inWindow p c.1 = true) (hroom : n + vs.length ≤ p.bufSize) :
    ∀ c ∈ storeBytes (Buf.rx.addr n) vs m, inWindow p c.1 = true := by
  induction vs generalizing n m with
  | nil => exact h
  | cons v rest ih =>
    rw [List.length_cons] at hroom
    refine ih (n := n + 1) (m := m.write (Buf.rx.addr n) v) (fun c hc => ?_) (by omega)
    rcases Memory.mem_write _ _ _ _ hc with rfl | hc
    · refine (inWindow_iff _ _).2 (.inr (.inl ?_))
      change 0x2000 ≤ 0x2000 + n ∧ 0x2000 + n < 0x2000 + p.bufSize
      omega
    · exact h c hc

/-- A whole capture that fits RXBUF keeps the store. -/
theorem State.Stored.capRun {s t : State} (h : s.Stored) (he : s.err = 0)
    (hroom : s.captureBase + s.rxlen.toNat ≤ s.params.bufSize) (ht : (capRun s).outcome = .next t) : t.Stored := by
  have hbuf := h.params_wf.2.2
  rcases capRun_cases he (by omega) with ⟨k, hend⟩ | ⟨ack, payload, cs, e, hpay, hend⟩
  · obtain rfl := Host.Outcome.next.inj (hend.symm.trans ht)
    refine ⟨h.params_wf, h.mem_wf, h.in_windows, ?_⟩
    change s.capBegin.rpos.toNat ≤ s.params.bufSize
    rw [s.capBegin_rpos_toNat]
    omega
  · obtain rfl := Host.Outcome.next.inj (hend.symm.trans ht)
    have hmem : ((s.captured ack payload cs).capTested e).mem = storeBytes (Buf.rx.addr s.captureBase) payload s.mem :=
      s.captured_mem ack payload cs
    refine ⟨h.params_wf, ?_, ?_, ?_⟩
    · rw [hmem]
      exact storeBytes_wf _ _ _ h.mem_wf
    · rw [hmem]
      exact storeBytes_in_windows payload h.in_windows (by rw [hpay]; exact hroom)
    · change (s.capBegin.rpos + BitVec.ofNat 16 payload.length).toNat ≤ s.params.bufSize
      rw [BitVec.toNat_add, BitVec.toNat_ofNat, s.capBegin_rpos_toNat, hpay]
      omega

theorem State.Stored.of_fields {s t : State} (h : s.Stored) (hp : t.params = s.params) (hm : t.mem = s.mem)
    (hr : t.rpos = s.rpos) : t.Stored := by
  exact ⟨hp ▸ h.params_wf, hm ▸ h.mem_wf, by rw [hp, hm]; exact h.in_windows, by rw [hp, hr]; exact h.rpos_le⟩

theorem captureRoom_of_captureOk {s : State} (hl : s.captureOk = true) :
    s.captureBase + s.rxlen.toNat ≤ s.params.bufSize := by
  simp only [State.captureOk, Bool.and_eq_true, decide_eq_true_eq] at hl
  exact hl.2

/-- Every command that runs to its end leaves the buffers inside their windows. -/
theorem State.Stored.commandEnd {i : Instr} {s t : State} (h : s.Stored) (hs : s.ready) (hl : s.legal i = true)
    (hx : exec i s = .next t) (hend : CommandEnd i s t) : t.Stored := by
  by_cases hrx : i = .rxcap
  · subst hrx
    rw [exec_rxcap_of_legal hs hl] at hx
    exact State.Stored.capRun (s := s.beginCommand (encode .rxcap)) (h.of_fields rfl rfl rfl) hs.2
      (captureRoom_of_captureOk (Bool.and_eq_true_iff.1 hl).2) hx
  by_cases hxc : i = .xcap
  · subst hxc
    rcases txBody_cases (s.beginCommand (encode .xcap)) with ⟨req, hreq, hold⟩ | ⟨off, -, -, hstop⟩
    · rw [exec_xcap_of_txBody hs hl (txBody_eq_sent hreq hold)] at hx
      exact State.Stored.capRun (s := (s.beginCommand (encode .xcap)).sent req) (h.of_fields rfl rfl rfl) hs.2
        (captureRoom_of_captureOk (Bool.and_eq_true_iff.1 hl).2) hx
    · have hrun : exec .xcap s = ((txBody (s.beginCommand (encode .xcap))).andThen Machine.capRun).outcome :=
        exec_of_legal hs hl rfl
      rw [hrun, hstop] at hx
      cases hx
  · obtain ⟨hrpos, -, -, hmem⟩ := hend.kept.buffers hrx hxc
    exact h.of_fields (congrArg State.params hend.kept.host :) hmem hrpos

theorem State.BufferInv.of_same {s t : State} (h : s.BufferInv) (hf : SameFrame s t) (hctl : t.rxctl = s.rxctl)
    (hfsm : t.fsm = s.fsm) : t.BufferInv := by
  have hc := hf.store.capturing
  have hbase : t.captureBase = s.captureBase := by rw [State.captureBase, State.captureBase, hctl, hf.store.rpos]
  refine (h.stored.of_same hf.store).bufferInv ?_ ?_ ?_
  · rw [hfsm, hc]
    exact h.aux_not_capture
  · rw [hfsm, hc, hbase, hf.rxlen, hf.store.params]
    exact h.room_before
  · rw [hfsm, hc, hf.pos, hf.rxlen, hf.store.params, hf.store.rpos]
    exact h.room_during

theorem bufferInv_immediate {i : Instr} {s : State} (h : s.BufferInv) : (immediate i s).BufferInv := by
  cases i with
  | srst => exact State.Stored.bufferInv_of_idle ⟨h.params_wf, h.mem_wf, h.in_windows, Nat.zero_le _⟩ rfl
  | nop | clrerr | csclr | csadd _ | csget | cschk | cmp _ _ _ _ | waitlvl _ _ | txframe | rxcap | rxcmp _ | xcap
  | xcmp _ => exact h.of_same ⟨⟨rfl, rfl, rfl, rfl⟩, rfl, rfl⟩ rfl rfl

theorem bufferInv_exec {i : Instr} {s t : State} (h : s.BufferInv) (hx : exec i s = .next t) : t.BufferInv := by
  rcases exec_ends i s with ⟨hy, -⟩ | ⟨hy, -⟩ | ⟨-, -, hy⟩ | ⟨-, hs, hl, u, hy, hend⟩ | ⟨-, -, -, f, hy, -⟩
  · obtain rfl := Host.Outcome.next.inj (hy.symm.trans hx)
    exact h.of_same ⟨⟨rfl, rfl, rfl, rfl⟩, rfl, rfl⟩ rfl rfl
  · obtain rfl := Host.Outcome.next.inj (hy.symm.trans hx)
    exact State.Stored.bufferInv_of_idle (h.stored.of_same ⟨rfl, rfl, rfl, rfl⟩) rfl
  · obtain rfl := Host.Outcome.next.inj (hy.symm.trans hx)
    exact bufferInv_immediate h
  · obtain rfl := Host.Outcome.next.inj (hy.symm.trans hx)
    exact (h.stored.commandEnd hs hl hx hend).bufferInv_of_idle hend.idle.2
  · cases hy.symm.trans hx

/-! ### The other things a step does -/

theorem State.ControlInv.idle {s : State} (h : s.ControlInv) (hb : s.busy = false) : s.fsm = .idle := by
  by_contra hf
  exact absurd (h.busy_iff.2 hf) (Bool.eq_false_iff.1 hb)

theorem bufferInv_writeReg {s : State} (h : s.BufferInv) (hf : s.fsm = .idle) (d : Word) (r : Reg) :
    (s.writeReg d r).BufferInv := by
  have hidle : (s.writeReg d r).fsm = .idle := (sameControl_writeReg s d r).2.trans hf
  cases r with
  | cmd | status | active | txctl | txlen | rxctl | rxlen | budget | timeout | result | sums | rpos | errinfo | rrem
  | trem => exact State.Stored.bufferInv_of_idle (h.stored.of_same ⟨rfl, rfl, rfl, rfl⟩) hidle

theorem bufferInv_commandStart {s : State} {w : Word} {i : Instr} (h : s.BufferInv) (hw : decode w = .ok i)
    (hi : isTransport i = true) (hl : s.legal i = true) : (s.commandStart w).BufferInv := by
  have hopr : (s.commandStart w).opr = encode i := (encode_of_decode hw).2.symm
  have hfsm : (s.commandStart w).fsm = firstFsm i := attemptFsm_of_opr hopr hi
  have hcap := capturing_of_opr hopr
  have hstored : (s.commandStart w).Stored := h.stored.of_fields rfl rfl rfl
  refine hstored.bufferInv ?_ (fun _ hc => ?_) (fun hx => ?_)
  · rw [hfsm, hcap]
    exact firstFsm_aux
  · rw [hcap] at hc
    have hok : s.captureOk = true := by
      cases i with
      | rxcap => exact (Bool.and_eq_true_iff.1 hl).2
      | xcap => exact (Bool.and_eq_true_iff.1 hl).2
      | nop | clrerr | srst | csclr | csadd _ | csget | cschk | cmp _ _ _ _ | waitlvl _ _ | txframe | rxcmp _
      | xcmp _ => cases hc
    exact captureRoom_of_captureOk hok
  · rw [hfsm] at hx
    exact absurd hx (Bool.eq_false_iff.1 (firstFsm_not_inCapture i))

theorem stepKeeps_bufferInv : StepKeeps fun s => s.ControlInv ∧ s.BufferInv where
  port s rest h := ⟨stepKeeps_controlInv.port s rest h.1, h.2.of_same ⟨⟨rfl, rfl, rfl, rfl⟩, rfl, rfl⟩ rfl rfl⟩
  answer s ok d n h := ⟨stepKeeps_controlInv.answer s ok d n h.1, h.2.of_same ⟨⟨rfl, rfl, rfl, rfl⟩, rfl, rfl⟩ rfl rfl⟩
  refuse s h hrst := ⟨stepKeeps_controlInv.refuse s h.1 hrst, h.2.of_same ⟨⟨rfl, rfl, rfl, rfl⟩, rfl, rfl⟩ rfl rfl⟩
  reg s d r h hrst hb := ⟨stepKeeps_controlInv.reg s d r h.1 hrst hb, bufferInv_writeReg h.2 (h.1.idle hb) d r⟩
  byte s k v h hrst hb hk := by
    refine ⟨stepKeeps_controlInv.byte s k v h.1 hrst hb hk,
      State.Stored.bufferInv_of_idle ⟨h.2.params_wf, Memory.wf_write _ _ _ h.2.mem_wf, fun c hc => ?_, h.2.rpos_le⟩
        (h.1.idle hb)⟩
    rcases Memory.mem_write _ _ _ _ hc with rfl | hc
    · exact hk
    · exact h.2.in_windows c hc
  command s t i h hrst hx := ⟨stepKeeps_controlInv.command s t i h.1 hrst hx, bufferInv_exec h.2 hx⟩
  illegal s b h hrst hs := ⟨stepKeeps_controlInv.illegal s b h.1 hrst hs,
    State.Stored.bufferInv_of_idle (h.2.stored.of_same ⟨rfl, rfl, rfl, rfl⟩) rfl⟩
  start s w i h hrst hs hw hi hl :=
    ⟨stepKeeps_controlInv.start s w i h.1 hrst hs hw hi hl, bufferInv_commandStart h.2 hw hi hl⟩
  block s h hrst := ((stepKeeps_controlInv.block s h.1 hrst).and h.2.fsmFlow).imp (fun _ ht => ht) (fun _ ht => ht)
    fun _ _ => trivial
  reset s b h := by
    refine ⟨stepKeeps_controlInv.reset s b h.1, ?_⟩
    cases b with
    | true => exact State.Stored.bufferInv_of_idle ⟨h.2.params_wf, rfl, nofun, Nat.zero_le _⟩ rfl
    | false => exact h.2.of_same ⟨⟨rfl, rfl, rfl, rfl⟩, rfl, rfl⟩ rfl rfl

end Sys2Proof.Machine
end

section
/-! The statement about the buffers (spec/10_state.md section 2, spec/20_memory.md section 4). -/

namespace Sys2Proof.Machine

/-- Settles O43: each of the things a step does keeps the invariant, in a state that meets O41's as well. -/
theorem stepKeepsBufferInvariant : Obligations.StepKeepsBufferInvariant :=
  fun _ _ hctl h hstep => (stepKeeps_bufferInv.step ⟨hctl, h⟩ hstep).2

end Sys2Proof.Machine
end

section
/-! SUPPORT. The start of a command (R29), and the one transport event of each state of the FSM (R26 to R28). -/

namespace Sys2Proof.Machine

/-! ### The event of a state (R26, R27, R28) -/

/-- What a step of the block adds to the trace: the event of the state FSM names. -/
def State.event (s : State) : List Event :=
  match s.fsm with
  | .idle => []
  | .txStart => [.send s.active (startMarker s.txctl.kind)]
  | .txLenHi => [.send s.active (hiByte s.lenr)]
  | .txLenLo => [.send s.active (loByte s.lenr)]
  | .txAck => [.send s.active s.txctl.ackVal]
  | .txPayload => (s.bufAtPos .tx).toList.map (.send s.active)
  | .txCsum => [.send s.active (0 - s.csum)]
  | .txEnd => [.send s.active (endMarker s.txctl.endBit)]
  | .rxStart | .rxLenHi | .rxLenLo | .rxAck | .rxPayload | .rxCsum | .rxEnd => [.sample 8 (s.sampleValue 8)]
  | .aux =>
    if s.oprIs 0x21 then [.level s.levelValue] else [.sample (wordN s.opr).toNat (s.sampleValue (wordN s.opr).toNat)]

theorem State.attemptEnd_trace (s : State) (m : Mask) (v : Byte) : (s.attemptEnd m v).trace = s.trace := by
  have hfinish : ∀ u k p, (State.finish u k p).trace = u.trace := fun u k p => by
    rw [State.finish]
    split
    · rfl
    · rfl
  rw [State.attemptEnd]
  split
  · rfl
  · exact hfinish _ _ _

theorem capStructural_trace (e : Byte) (idx : Half) (covered : Bool) (s : State) :
    (capStructural e idx covered s).Sat (fun t => t.trace = s.trace ++ [.sample 8 (s.sampleValue 8)])
      (fun t => t.trace = s.trace ++ [.sample 8 (s.sampleValue 8)]) fun _ => True := by
  rw [capStructural]
  split
  · rfl
  · rfl

theorem capCheckSum_trace (s : State) :
    (capCheckSum s).Sat (fun t => t.trace = s.trace) (fun t => t.trace = s.trace) fun _ => True := by
  rw [capCheckSum]
  split
  · rfl
  · rfl

theorem stepTxPayload_trace (s : State) :
    s.stepTxPayload.Sat (fun t => t.trace = s.trace ++ (s.bufAtPos .tx).toList.map (.send s.active))
      (fun t => t.trace = s.trace ++ (s.bufAtPos .tx).toList.map (.send s.active)) fun _ => True := by
  rw [State.stepTxPayload]
  cases s.bufAtPos .tx with
  | none => trivial
  | some v => rfl

theorem stepTxEnd_trace (s : State) :
    s.stepTxEnd.trace = s.trace ++ [.send s.active (endMarker s.txctl.endBit)] := by
  rw [State.stepTxEnd]
  split
  · rfl
  · rw [State.attemptEnd_trace]
    rfl

/-- What a receive state adds to the trace. -/
abbrev Sampled (s t : State) : Prop := t.trace = s.trace ++ [.sample 8 (s.sampleValue 8)]

theorem Flow.Sat.toFsm_sampled {s : State} {x : Flow} (h : x.Sat (Sampled s) (Sampled s) fun _ => True) (f : Fsm) :
    (x.toFsm f).Sat (Sampled s) (Sampled s) fun _ => True :=
  h.andThen fun _ ht => ht

theorem stepRxStart_trace (s : State) : s.stepRxStart.Sat (Sampled s) (Sampled s) fun _ => True := by
  rw [State.stepRxStart]
  split
  · exact (capStructural_trace _ _ _ s.capBegin).toFsm_sampled _
  · rfl

theorem stepRxLenHi_trace (s : State) : s.stepRxLenHi.Sat (Sampled s) (Sampled s) fun _ => True := by
  rw [State.stepRxLenHi]
  split
  · exact (capStructural_trace _ _ _ s).toFsm_sampled _
  · rfl

theorem stepRxLenLo_trace (s : State) : s.stepRxLenLo.Sat (Sampled s) (Sampled s) fun _ => True := by
  rw [State.stepRxLenLo]
  split
  · exact (capStructural_trace _ _ _ s).toFsm_sampled _
  · rfl

theorem stepRxAck_trace (s : State) : Sampled s s.stepRxAck := by
  rw [State.stepRxAck]
  split
  · rfl
  · rfl

theorem stepRxPayload_trace (s : State) : s.stepRxPayload.Sat (Sampled s) (Sampled s) fun _ => True := by
  rw [State.stepRxPayload]
  split
  · rfl
  split
  · trivial
  split
  · trivial
  · rfl

theorem stepRxCsum_trace (s : State) : Sampled s s.stepRxCsum := by
  rw [State.stepRxCsum]
  split
  · rfl
  · rfl

theorem stepRxEnd_trace (s : State) : s.stepRxEnd.Sat (Sampled s) (Sampled s) fun _ => True := by
  rw [State.stepRxEnd]
  split
  · have hcheck : ∀ t, Sampled s t → (capCheckSum t).Sat (Sampled s) (Sampled s) fun _ => True := fun t ht =>
      (capCheckSum_trace t).imp (fun u hu => hu.trans ht) (fun u hu => hu.trans ht) fun _ hf => hf
    exact ((capStructural_trace _ _ _ s).andThen hcheck).andThen fun t ht => (t.attemptEnd_trace 0 t.ackc).trans ht
  · exact State.attemptEnd_trace _ _ _

theorem stepAuxWaitlvl_trace (s : State) : s.stepAuxWaitlvl.trace = s.trace ++ [.level s.levelValue] := by
  rw [State.stepAuxWaitlvl]
  split
  · exact State.attemptEnd_trace _ _ _
  · rfl

theorem stepAuxCmp_trace (s : State) :
    s.stepAuxCmp.trace = s.trace ++ [.sample (wordN s.opr).toNat (s.sampleValue (wordN s.opr).toNat)] :=
  State.attemptEnd_trace _ _ _

/-- Each step of the block takes the event of the state FSM names, unless it stops (R26). -/
theorem fsmFlow_event (s : State) :
    s.fsmFlow.Sat (fun t => t.trace = s.trace ++ s.event) (fun t => t.trace = s.trace ++ s.event) fun _ => True := by
  unfold State.fsmFlow State.event
  cases s.fsm with
  | idle => exact (List.append_nil s.trace).symm
  | txStart => rfl
  | txLenHi => rfl
  | txLenLo => rfl
  | txAck => rfl
  | txPayload => exact stepTxPayload_trace s
  | txCsum => rfl
  | txEnd => exact stepTxEnd_trace s
  | rxStart => exact stepRxStart_trace s
  | rxLenHi => exact stepRxLenHi_trace s
  | rxLenLo => exact stepRxLenLo_trace s
  | rxAck => exact stepRxAck_trace s
  | rxPayload => exact stepRxPayload_trace s
  | rxCsum => exact stepRxCsum_trace s
  | rxEnd => exact stepRxEnd_trace s
  | aux =>
    cases hop : s.oprIs 0x21 with
    | true => exact stepAuxWaitlvl_trace s
    | false => exact stepAuxCmp_trace s

/-- In TX_PAYLOAD a byte that nothing has written stops the step (R69). -/
theorem fsmFlow_txPayload_none {s : State} (hf : s.fsm = .txPayload) (h : s.bufAtPos .tx = none) :
    s.fsmFlow = .stop (.unwrittenByte .tx s.pos.toNat) := by
  rw [State.fsmFlow, hf]
  simp only [State.stepTxPayload, h]

theorem step_of_left_alone {s t : State} (hrst : s.rst = false)
    (hport : s.port = [] ∨ ∃ rest, s.port = .quiet :: rest) (h : step s = .next t) :
    ∃ rest, ({ s with port := rest } : State).fsmFlow.outcome = .next t := by
  rcases hport with hport | ⟨rest, hport⟩
  · have hblock : step s = blockStep s := by simp only [step, machineStep, hport]
    exact ⟨s.port, (if_neg (Bool.eq_false_iff.1 hrst)).symm.trans (hblock.symm.trans h)⟩
  · refine ⟨rest, ?_⟩
    rw [← h, step_of_port hport]
    exact (if_neg (Bool.eq_false_iff.1 hrst)).symm

end Sys2Proof.Machine
end

section
/-! The statements about the steps of a running command (spec/10_state.md section 3). -/

namespace Sys2Proof.Machine

/-- Settles O10: the step's event is the one its FSM state names, written out state by state. -/
theorem runningBlockTakesOneEventAStep : Obligations.RunningBlockTakesOneEventAStep := by
  intro s t hrst hport hstep
  obtain ⟨rest, hflow⟩ := step_of_left_alone hrst hport hstep
  have htrace : t.trace = s.trace ++ s.event := (fsmFlow_event { s with port := rest }).of_next hflow
  unfold State.event at htrace
  cases hf : s.fsm with
  | idle =>
    rw [hf] at htrace
    exact htrace.trans (List.append_nil _)
  | txStart | txLenHi | txLenLo | txAck | txCsum | txEnd =>
    rw [hf] at htrace
    exact htrace
  | rxStart | rxLenHi | rxLenLo | rxAck | rxPayload | rxCsum | rxEnd =>
    rw [hf, s.sampleValue_eq] at htrace
    exact htrace
  | txPayload =>
    rw [hf] at htrace
    cases hbyte : s.bufAtPos .tx with
    | none =>
      rw [fsmFlow_txPayload_none (s := { s with port := rest }) hf hbyte] at hflow
      cases hflow
    | some v =>
      rw [hbyte] at htrace
      exact ⟨v, hbyte, htrace⟩
  | aux =>
    simp only [hf, State.sampleValue_eq, State.levelValue_eq] at htrace
    constructor
    · intro hop
      have hcmp : ¬ s.oprIs 0x21 = true := by
        rw [State.oprIs, hop]
        exact Bool.false_ne_true
      exact htrace.trans (congrArg _ (if_neg hcmp))
    · intro hop
      have hwait : s.oprIs 0x21 = true := beq_iff_eq.2 hop
      exact htrace.trans (congrArg _ (if_pos hwait))

theorem legal_withPort (s : State) (rest : List PortEvent) (r : List Reply) (i : Instr) :
    ({ s with port := rest, replies := r } : State).legal i = s.legal i := by
  cases i with
  | nop | clrerr | srst | csclr | csadd _ | csget | cschk | cmp _ _ _ _ | waitlvl _ _ | txframe | rxcap | rxcmp _
  | xcap | xcmp _ => rfl

/-- The state with other budgets left and FSM. -/
def State.attempted (s : State) (rrem trem : Word) (f : Fsm) : State := { s with rrem := rrem, trem := trem, fsm := f }

/-- TREM after an attempt's start (R29). -/
def startTrem (i : Instr) (s : State) : Word :=
  match i with
  | .waitlvl _ _ => s.timeout
  | _ => s.trem

theorem attemptStart_eq {s : State} {i : Instr} (hopr : s.opr = encode i) (hi : isTransport i = true) :
    s.attemptStart = s.attempted (if retried i then s.rrem - 1 else s.rrem) (startTrem i s) (firstFsm i) := by
  have htrem : (if s.oprIs 0x21 then s.timeout else s.trem) = startTrem i s := by
    rw [oprIs_of_opr hopr]
    cases i with
    | nop | clrerr | srst | csclr | csadd _ | csget | cschk | cmp _ _ _ _ | waitlvl _ _ | txframe | rxcap | rxcmp _
    | xcap | xcmp _ => rfl
  rw [State.attemptStart, htrem, oprR_of_opr hopr, attemptFsm_of_opr hopr hi]
  rfl

/-- Command start of the word of a transport command, field by field (R29). -/
theorem commandStart_encode {i : Instr} (hi : isTransport i = true) (s : State) :
    s.commandStart (encode i) =
      (s.beginCommand (encode i)).attempted (if retried i then s.budget - 1 else s.rrem) (startTrem i s) (firstFsm i) := by
  have hrrem : (if retried i then (if wordR (encode i) then s.budget else s.rrem) - 1
      else if wordR (encode i) then s.budget else s.rrem) = if retried i then s.budget - 1 else s.rrem := by
    rw [wordR_encode]
    cases retried i with
    | true => rfl
    | false => rfl
  have htrem : startTrem i { s.beginCommand (encode i) with
      rrem := if wordR (encode i) then s.budget else s.rrem } = startTrem i s := by
    cases i with
    | nop | clrerr | srst | csclr | csadd _ | csget | cschk | cmp _ _ _ _ | waitlvl _ _ | txframe | rxcap | rxcmp _
    | xcap | xcmp _ => rfl
  rw [State.commandStart, attemptStart_eq rfl hi, htrem, ← hrrem]
  rfl

/-- A posted word of a transport command is accepted and started where the tests pass. -/
theorem hostPost_encode {i : Instr} {s : State} (hrst : s.rst = false) (hs : s.ready)
    (hw : decode (encode i) = .ok i) (hi : isTransport i = true) (hl : s.legal i = true) :
    hostPost (encode i) s = .next ((s.answer true 0).commandStart (encode i)) := by
  have hl' : (s.answer true 0).legal i = true := (legal_withPort s s.port _ i).trans hl
  have hstart : startWord (encode i) (s.answer true 0) =
      (s.answer true 0).accept (encode i) ((s.answer true 0).legal i) fun t => .next (t.commandStart (encode i)) := by
    rw [startWord, hw]
    exact if_pos hi
  rw [hostPost, if_neg (Bool.eq_false_iff.1 hrst), hstart, hl']
  exact State.accept_run _ _ _ hs

/-- Settles O11: the word's fields are those of the command it decodes to, and its tests have passed. -/
theorem postedTransportCommandStarts : Obligations.PostedTransportCommandStarts := by
  intro s w i rest hrst hport hs hw hi hl
  obtain rfl : w = encode i := (encode_of_decode hw).2.symm
  have hpost := hostPost_encode (s := { s with port := rest }) hrst hs hw hi
    ((legal_withPort s rest s.replies i).trans hl)
  rw [commandStart_encode hi] at hpost
  refine (step_post hport hpost).trans ?_
  cases i with
  | nop | clrerr | srst | csclr | csadd _ | csget | cschk => cases hi
  | cmp _ _ _ _ | waitlvl _ _ | txframe | rxcap | rxcmp _ | xcap | xcmp _ => rfl

end Sys2Proof.Machine
end

section
/-! SUPPORT. Whole commands at the byte level (R11, R29): attempts, the retry loop over them, and the commands that make
one attempt. -/

namespace Sys2Proof.Machine

/-! ### The end of a transmitted frame (R27) -/

/-- TX_CSUM and TX_END of an exchange. -/
theorem leads_txTrailer_exchange {t : State} {x : Host.Outcome State Fault Refusal} (hs : t.silent)
    (hx : t.exchanging = true) (h : Leads (t.sendTrailer.atFsm .rxStart) x) : Leads (t.atFsm .txCsum) x := by
  refine Leads.next hs (t := (t.send (0 - t.csum)).atFsm .txEnd) rfl ?_
  refine Leads.next hs (t := t.sendTrailer.atFsm .rxStart) ?_ h
  have hx' : ((t.send (0 - t.csum)).atFsm .txEnd).exchanging = true := hx
  change (Flow.go ((t.send (0 - t.csum)).atFsm .txEnd).stepTxEnd).outcome = _
  rw [State.stepTxEnd, if_pos hx']
  rfl

/-- TX_CSUM and TX_END of TXFRAME. -/
theorem leads_txTrailer {t : State} (hs : t.silent) (hx : t.exchanging = false) :
    Leads (t.atFsm .txCsum) (.next (t.sendTrailer.writeResult 0 (0 - t.sendTrailer.csum)).endCommand) := by
  refine Leads.next hs (t := (t.send (0 - t.csum)).atFsm .txEnd) rfl ?_
  refine Leads.next hs ?_ (Leads.refl _)
  have hx' : ((t.send (0 - t.csum)).atFsm .txEnd).exchanging = false := hx
  change (Flow.go ((t.send (0 - t.csum)).atFsm .txEnd).stepTxEnd).outcome = _
  rw [State.stepTxEnd, if_neg (Bool.eq_false_iff.1 hx'), State.attemptEnd_zero]
  rfl

/-! ### One attempt (R29, R230) -/

/-- An attempt of the command `i` with TIMEOUT `n`, byte by byte, comes from the attempt's start to where its body
comes, whatever follows. -/
def AttemptLeads (i : Instr) (n : Word) (attempt : State → Flow) : Prop :=
  ∀ (s : State) (K : State → Flow), s.silent → s.opr = encode i → s.timeout = n →
    (∀ u, Same s u → Leads u.attemptNext (K u).outcome) →
    Leads (s.attempted s.rrem (startTrem i s) (firstFsm i)) ((attempt s).andThen K).outcome

theorem attemptLeads_rxcmp (r : Bool) (n : Word) : AttemptLeads (.rxcmp r) n rxcmpAttempt :=
  fun s K hs hopr _ hK => leads_rx_compare K s hs (capturing_of_opr hopr) hK

theorem attemptLeads_xcmp (r : Bool) (n : Word) : AttemptLeads (.xcmp r) n xcmpAttempt := by
  intro s K hs hopr _ hK
  rw [xcmpAttempt, txBody, Flow.andThen_assoc, Flow.andThen_assoc]
  refine leads_tx _ s hs fun t ht => ?_
  have hopr' : t.opr = encode (.xcmp r) := ht.opr.trans hopr
  rw [Flow.go_andThen]
  refine leads_txTrailer_exchange (ht.silent hs) (exchanging_of_opr hopr') ?_
  exact leads_rx_compare K t.sendTrailer (ht.silent hs) (capturing_of_opr hopr')
    fun u hu => hK u (ht.trans ⟨hu.port, hu.rst, hu.opr, hu.rrem, hu.timeout⟩)

theorem attemptLeads_cmp (r : Bool) (m : BitVec 4) (a b : Byte) (n : Word) :
    AttemptLeads (.cmp r m a b) n (cmpAttempt m.toNat a b) := by
  intro s K hs hopr _ hK
  have hn : wordN s.opr = m := by rw [hopr]; exact wordN_packWord ..
  have ha : wordA s.opr = a := by rw [hopr]; exact wordA_packWord ..
  have hb : wordB s.opr = b := by rw [hopr]; exact wordB_packWord ..
  have hop : (s.atFsm .aux).oprIs 0x21 = false := oprIs_of_opr (i := .cmp r m a b) hopr _
  have hstep : (s.atFsm .aux).fsmFlow.outcome =
      .next ((s.afterSample m.toNat).writeResult (s.cmpMask m.toNat a b) 0x00).attemptNext := by
    change (Flow.go (if (s.atFsm .aux).oprIs 0x21 then (s.atFsm .aux).stepAuxWaitlvl
      else (s.atFsm .aux).stepAuxCmp)).outcome = _
    rw [hop, if_neg Bool.false_ne_true, State.stepAuxCmp, State.attemptEnd_eq]
    change Host.Outcome.next (((s.afterSample (wordN s.opr).toNat).writeResult
      (s.cmpMask (wordN s.opr).toNat (wordA s.opr) (wordB s.opr)) 0x00).atFsm .aux).attemptNext = _
    rw [State.attemptNext_atFsm, hn, ha, hb]
  exact Leads.next hs hstep (hK _ ⟨rfl, rfl, rfl, rfl, rfl⟩)

theorem level_of_opr {s : State} {r l : Bool} (hopr : s.opr = encode (.waitlvl r l)) :
    (wordA s.opr).getLsbD 0 = l := by
  have ha : wordA (encode (.waitlvl r l)) = BitVec.setWidth 8 (BitVec.ofBool l) := wordA_packWord ..
  rw [hopr, ha]
  cases l with
  | true => rfl
  | false => rfl

/-- A poll in AUX: the attempt's end, or AUX again. -/
theorem fsmFlow_aux_waitlvl {s : State} {r l : Bool} (hopr : s.opr = encode (.waitlvl r l)) :
    (s.atFsm .aux).fsmFlow.outcome =
      .next (if s.pollMask l = 0 ∨ s.afterPoll.trem = 0 then
        (s.afterPoll.writeResult (s.pollMask l) 0x00).attemptNext else s.afterPoll.atFsm .aux) := by
  have hop : (s.atFsm .aux).oprIs 0x21 = true := oprIs_of_opr (i := .waitlvl r l) hopr _
  have hlevel : (wordA (s.atFsm .aux).opr).getLsbD 0 = l := level_of_opr hopr
  change (Flow.go (if (s.atFsm .aux).oprIs 0x21 then (s.atFsm .aux).stepAuxWaitlvl
    else (s.atFsm .aux).stepAuxCmp)).outcome = _
  rw [hop, if_pos rfl, State.stepAuxWaitlvl, hlevel, State.attemptEnd_eq,
    ← State.attemptNext_atFsm (s.afterPoll.writeResult (s.pollMask l) 0x00) .aux]
  rfl

/-- The polls of one WAITLVL attempt, TREM holding how many are left. -/
theorem leads_pollLoop {r l : Bool} (K : State → Flow) (k : Nat) (s : State) (hs : s.silent)
    (hopr : s.opr = encode (.waitlvl r l)) (hk : s.trem.toNat = k + 1)
    (hK : ∀ u, Same s u → Leads u.attemptNext (K u).outcome) :
    Leads (s.atFsm .aux) (K (pollLoop l (k + 1) s)).outcome := by
  induction k generalizing s with
  | zero =>
    have hlast : s.afterPoll.trem = 0 := by
      change s.trem - 1 = 0
      rw [BitVec.eq_of_toNat_eq (x := s.trem) (y := 1) hk]
      rfl
    have hstep := fsmFlow_aux_waitlvl hopr
    rw [if_pos (.inr hlast)] at hstep
    rw [pollLoop, if_pos (.inr hlast)]
    exact Leads.next hs hstep (hK _ ⟨rfl, rfl, rfl, rfl, rfl⟩)
  | succ k ih =>
    have hstep := fsmFlow_aux_waitlvl hopr
    by_cases hend : s.pollMask l = 0 ∨ s.afterPoll.trem = 0
    · rw [if_pos hend] at hstep
      rw [pollLoop, if_pos hend]
      exact Leads.next hs hstep (hK _ ⟨rfl, rfl, rfl, rfl, rfl⟩)
    · rw [if_neg hend] at hstep
      rw [pollLoop, if_neg hend]
      refine Leads.next hs hstep (ih s.afterPoll hs hopr ?_ fun u hu => hK u ?_)
      · change (s.trem - 1).toNat = k + 1
        rw [BitVec.toNat_sub_of_le (by rw [BitVec.le_def, hk]; exact Nat.le_add_left 1 (k + 1)), hk]
        rfl
      · exact ⟨hu.port, hu.rst, hu.opr, hu.rrem, hu.timeout⟩

theorem attemptLeads_waitlvl (r l : Bool) {n : Word} (hn : n ≠ 0) : AttemptLeads (.waitlvl r l) n (waitlvlAttempt l) := by
  intro s K hs hopr htime hK
  obtain ⟨k, hk⟩ := Nat.exists_eq_succ_of_ne_zero (toNat_ne_zero (htime ▸ hn))
  rw [waitlvlAttempt, Flow.go_andThen, hk]
  exact leads_pollLoop K k { s with trem := s.timeout } hs hopr hk
    fun u hu => hK u ⟨hu.port, hu.rst, hu.opr, hu.rrem, hu.timeout⟩

/-! ### The attempts of a command (R29, R230) -/

section
variable {i : Instr} {n : Word} {attempt : State → Flow} (hatt : AttemptLeads i n attempt) (hi : isTransport i = true)
  (k : ErrKind) (p : State → Half) (hkind : ∀ u : State, u.opr = encode i → u.maskKind = k)
  (hpos : ∀ u : State, u.opr = encode i → u.maskPos = p u)
include hatt hkind hpos

/-- The one attempt of a command with R = 0, and the command's end. -/
theorem leads_attempt {s : State} (hs : s.silent) (hopr : s.opr = encode i) (hn : s.timeout = n)
    (hr : retried i = false) :
    Leads (s.attempted s.rrem (startTrem i s) (firstFsm i))
      ((attempt s).andThen fun u => .go (u.finish k (p u))).outcome := by
  refine hatt s _ hs hopr hn fun u hu => ?_
  have hopr' : u.opr = encode i := hu.opr.trans hopr
  have hend : ¬ (u.resMask ≠ 0 ∧ u.oprR = true ∧ u.rrem ≠ 0) := by
    rw [oprR_of_opr hopr', hr]
    rintro ⟨-, h, -⟩
    cases h
  rw [State.attemptNext, if_neg hend, hkind u hopr', hpos u hopr']
  exact Leads.refl _

include hi

/-- The attempts of a command with R = 1, RREM holding how many are left, and the command's end. -/
theorem leads_retryLoop (hr : retried i = true) (j : Nat) (s : State) (hs : s.silent) (hopr : s.opr = encode i)
    (hn : s.timeout = n) (hj : s.rrem.toNat = j) (hj0 : j ≠ 0) :
    Leads (s.attempted (s.rrem - 1) (startTrem i s) (firstFsm i))
      ((retryLoop attempt j s).andThen fun u => .go (u.finish k (p u))).outcome := by
  induction j generalizing s with
  | zero => exact absurd rfl hj0
  | succ j ih =>
    rw [retryLoop, Flow.andThen_assoc]
    refine hatt { s with rrem := s.rrem - 1 } _ hs hopr hn fun u hu => ?_
    have hopr' : u.opr = encode i := hu.opr.trans hopr
    have hleft : u.rrem.toNat = j := by
      have hrrem : u.rrem = s.rrem - 1 := hu.rrem
      rw [hrrem, BitVec.toNat_sub_of_le (by rw [BitVec.le_def, hj]; exact Nat.le_add_left 1 j), hj]
      rfl
    rw [State.attemptNext, oprR_of_opr hopr', hr]
    by_cases hend : u.resMask = 0 ∨ u.rrem = 0
    · rw [if_pos hend, if_neg (fun h => hend.elim h.1 h.2.2), hkind u hopr', hpos u hopr']
      exact Leads.refl _
    · obtain ⟨hmask, hmore⟩ := not_or.1 hend
      rw [if_neg hend, if_pos ⟨hmask, rfl, hmore⟩, attemptStart_eq hopr' hi, hr, if_pos rfl]
      exact ih u (hu.silent hs) hopr' (hu.timeout.trans hn) hleft (hleft ▸ toNat_ne_zero hmore)

/-- A command that ends with the error of its last mask, from its attempts. -/
theorem leads_attempts {s : State} (hs : s.silent) (hn : s.timeout = n)
    (hbudget : s.budgetOk (retried i) = true) :
    Leads (s.commandStart (encode i))
      ((runAttempts (retried i) attempt (s.beginCommand (encode i))).andThen fun u => .go (u.finish k (p u))).outcome := by
  have hbound := State.attemptBound_ne_zero hbudget
  rw [commandStart_encode hi]
  cases hr : retried i with
  | false => exact leads_attempt hatt k p hkind hpos (s := s.beginCommand (encode i)) hs rfl hn hr
  | true =>
    rw [hr] at hbound
    rw [if_pos rfl]
    exact leads_retryLoop hatt hi k p hkind hpos hr s.budget.toNat
      ({ s.beginCommand (encode i) with rrem := s.budget }) hs rfl hn rfl hbound

end

/-! ### Whole commands (R11) -/

theorem maskKind_of_opr {i : Instr} {u : State} (h : u.opr = encode i) :
    u.maskKind = if Laws.EncodeFormat.code i == 0x21 then .timeoutError else .compareMismatch := by
  rw [State.maskKind, oprIs_of_opr h]

theorem maskPos_of_opr {i : Instr} {u : State} (h : u.opr = encode i) :
    u.maskPos = if Laws.EncodeFormat.code i == 0x32 || Laws.EncodeFormat.code i == 0x34 then u.first else 0 := by
  rw [State.maskPos, oprIs_of_opr h, oprIs_of_opr h]

/-- TXFRAME: the request goes out, then the command ends (R170). -/
theorem leads_txframe {s : State} (hs : s.silent) :
    Leads (s.commandStart (encode .txframe)) (commandBody .txframe (s.beginCommand (encode .txframe))).outcome := by
  rw [commandStart_encode rfl]
  change Leads ((s.beginCommand (encode .txframe)).atFsm .txStart)
    ((txBody (s.beginCommand (encode .txframe))).andThen fun u => .go (u.writeResult 0 (0 - u.csum)).endCommand).outcome
  rw [txBody, Flow.andThen_assoc]
  exact leads_tx _ (s.beginCommand (encode .txframe)) hs fun t ht =>
    leads_txTrailer (ht.silent hs) (exchanging_of_opr (i := .txframe) ht.opr)

/-- XCAP: the request goes out, then the capture (R201). -/
theorem leads_xcap {s : State} (hs : s.silent) :
    Leads (s.commandStart (encode .xcap)) (commandBody .xcap (s.beginCommand (encode .xcap))).outcome := by
  rw [commandStart_encode rfl]
  change Leads ((s.beginCommand (encode .xcap)).atFsm .txStart)
    ((txBody (s.beginCommand (encode .xcap))).andThen capRun).outcome
  rw [txBody, Flow.andThen_assoc]
  refine leads_tx _ (s.beginCommand (encode .xcap)) hs fun t ht => ?_
  rw [Flow.go_andThen]
  have hopr : t.opr = encode .xcap := ht.opr
  exact leads_txTrailer_exchange (ht.silent hs) (exchanging_of_opr hopr)
    (leads_rx_capture t.sendTrailer (ht.silent hs) (capturing_of_opr hopr))

/-- An accepted transport command, byte by byte, comes to the outcome of its body. -/
theorem leads_command {i : Instr} {s : State} (hs : s.silent) (hi : isTransport i = true) (hl : s.legal i = true) :
    Leads (s.commandStart (encode i)) (commandBody i (s.beginCommand (encode i))).outcome := by
  cases i with
  | nop | clrerr | srst | csclr | csadd _ | csget | cschk => cases hi
  | cmp r m a b =>
    exact leads_attempts (attemptLeads_cmp r m a b s.timeout) rfl .compareMismatch (fun _ => 0)
      (fun _ h => maskKind_of_opr h) (fun _ h => maskPos_of_opr h) hs rfl (Bool.and_eq_true_iff.1 hl).2
  | waitlvl r l =>
    have hlegal : s.waitlvlLegal r = true := hl
    simp only [State.waitlvlLegal, Bool.and_eq_true, bne_iff_ne] at hlegal
    obtain ⟨⟨-, htime⟩, hbudget⟩ := hlegal
    exact leads_attempts (attemptLeads_waitlvl r l htime) rfl .timeoutError (fun _ => 0)
      (fun _ h => maskKind_of_opr h) (fun _ h => maskPos_of_opr h) hs rfl hbudget
  | txframe => exact leads_txframe hs
  | rxcap =>
    rw [commandStart_encode rfl]
    exact leads_rx_capture (s.beginCommand (encode .rxcap)) hs (capturing_of_opr (i := .rxcap) rfl)
  | rxcmp r =>
    exact leads_attempts (attemptLeads_rxcmp r s.timeout) rfl .compareMismatch State.first
      (fun _ h => maskKind_of_opr h) (fun _ h => maskPos_of_opr h) hs rfl (Bool.and_eq_true_iff.1 hl).2
  | xcap => exact leads_xcap hs
  | xcmp r =>
    exact leads_attempts (attemptLeads_xcmp r s.timeout) rfl .compareMismatch State.first
      (fun _ h => maskKind_of_opr h) (fun _ h => maskPos_of_opr h) hs rfl (Bool.and_eq_true_iff.1 hl).2

/-! ### The two ways to hand over a word (R11, R250) -/

theorem Core.run_one (M : Host.Core) (s : M.State) : M.run 1 s = M.step s := by
  rw [Host.Core.run]
  cases M.step s with
  | next t => rfl
  | fault f => rfl
  | refused r => rfl

theorem core_run_one (s : State) : Sys2Proof.core.run 1 s = step s := Core.run_one Sys2Proof.core s

theorem core_run_of_next {s t : State} (h : step s = .next t) (k : Nat) :
    Host.Core.run Sys2Proof.core (k + 1) s = Host.Core.run Sys2Proof.core k t := by
  have hcore : Sys2Proof.core.step s = .next t := h
  simp only [Host.Core.run, hcore]

/-- What is to be run plays no part where acceptance does not come to it. -/
theorem State.accept_eq_of_not_run {s : State} {l : Bool} (h : ¬ (s.ready ∧ l = true)) (w : Word)
    (run run' : State → Host.Outcome State Fault Refusal) : s.accept w l run = s.accept w l run' := by
  unfold State.accept
  split
  · rfl
  next hb =>
    split
    · rfl
    next he =>
      split
      · next hl => exact absurd ⟨⟨Bool.eq_false_iff.2 hb, not_ne_iff.1 he⟩, hl⟩ h
      · rfl

/-- A word that starts no command is handled alike at both levels. -/
theorem startWord_eq_runWord {w : Word} {s : State}
    (h : ¬ ∃ i, decode w = .ok i ∧ isTransport i = true ∧ s.ready ∧ s.legal i = true) : startWord w s = runWord w s := by
  cases hw : decode w with
  | error r => rw [startWord, runWord, hw]
  | ok i =>
    rw [runWord_of_ok hw, startWord, hw]
    change (if isTransport i then _ else _) = _
    cases hi : isTransport i with
    | false => exact if_neg Bool.false_ne_true
    | true =>
      obtain rfl : w = encode i := (encode_of_decode hw).2.symm
      rw [if_pos rfl, exec_eq_accept hi]
      exact State.accept_eq_of_not_run (fun hrun => h ⟨i, hw, hi, hrun⟩) _ _ _

/-- A word posted to a silent host is handled as at the command level, or starts what leads there. -/
theorem hostPost_leads {u : State} (hport : u.port = []) (w : Word) :
    hostPost w u = hostWrite 0x0000 .four w u ∨
    ∃ t, hostPost w u = .next t ∧ Leads t (hostWrite 0x0000 .four w u) := by
  rcases Bool.eq_false_or_eq_true u.rst with hrst | hrst
  · exact .inl ((hostPost_of_rst w hrst).trans (hostWrite_of_rst _ _ w hrst).symm)
  rw [hostWrite_cmd w hrst]
  by_cases hstart : ∃ i, decode w = .ok i ∧ isTransport i = true ∧ (u.answer true 0).ready ∧
      (u.answer true 0).legal i = true
  · obtain ⟨i, hw, hi, hs, hl⟩ := hstart
    obtain rfl : w = encode i := (encode_of_decode hw).2.symm
    refine .inr ⟨_, hostPost_encode hrst hs hw hi ((legal_withPort u u.port _ i).symm.trans hl), ?_⟩
    rw [runWord_of_ok hw, exec_of_legal hs hl hi]
    exact leads_command ⟨hport, hrst⟩ hi hl
  · exact .inl ((if_neg (Bool.eq_false_iff.1 hrst)).trans (startWord_eq_runWord hstart))

end Sys2Proof.Machine
end

section
/-! The statement about the two levels (spec/00_scope.md section 8). -/

namespace Sys2Proof.Machine

/-- Settles O9: a word that starts no command is handled alike at both levels; one that does is followed, byte by byte,
to the outcome of its body. -/
theorem byteLevelRunsReachTheCommandLevelOutcome : Obligations.ByteLevelRunsReachTheCommandLevelOutcome := by
  intro s w
  have hpost : step { s with port := [.post w] } = hostPost w { s with port := [] } := step_post rfl rfl
  have hwrite : step { s with port := [.write 0x0000 .four w] } = hostWrite 0x0000 .four w { s with port := [] } :=
    step_write rfl rfl
  rw [core_run_one, hwrite]
  rcases hostPost_leads (u := { s with port := [] }) rfl w with hsame | ⟨t, ht, k, hk⟩
  · exact ⟨0, (core_run_one _).trans (hpost.trans hsame)⟩
  · exact ⟨k, (core_run_of_next (hpost.trans ht) k).trans hk⟩

end Sys2Proof.Machine
end
